-- ==== Sys2Proof/Word.lean ====
section
/-! DEFINITION. The words of the block (00_scope.md R10, R12, R13) and the names of a command's fields
(30_encoding.md R113-R115). Nothing here can be shown wrong by a test; arithmetic stands in Machine/FixedPoint.lean. -/

namespace Sys2Proof

/-- A byte of the host's address space (20_memory.md R84). -/
abbrev Byte := BitVec 8

/-- A 32-bit word: every sample, element, register and command (00_scope.md R10). -/
abbrev Word := BitVec 32

/-- CTX, bit 8 of a command word: which host plan context a 1D command uses (30_encoding.md R115). -/
inductive HostCtx where
  | p0
  | p1
  deriving DecidableEq, Repr

/-- DIR, bit 4 of a command word (30_encoding.md R113). -/
inductive Direction where
  | forward
  | inverse
  deriving DecidableEq, Repr

/-- CPLX, bit 5 of a command word: the input kind of TRANSFORM (30_encoding.md R114). -/
inductive InputKind where
  | real
  | complex
  deriving DecidableEq, Repr

end Sys2Proof
end

