-- ==== Sys2Proof/Config.lean ====
section
/-! DEFINITION. What an instance of the block fixes: the three build parameters (00_scope.md R7-R9, R11), their
legal ranges, and the platform's BLOCK_BASE (20_memory.md R83). The parameters stand in State (`State.build`), so every
statement about all states is about every build (notes/assumptions/5.md) at every place (notes/assumptions/9.md). -/

namespace Sys2Proof

/-- The build parameters reported by CFG (10_state.md R32), and the block's place in the system. -/
structure Build where
  /-- FRAC_BITS, written F in the rules (00_scope.md R7). -/
  fracBits : Nat
  /-- LOG2_MAXLEN (00_scope.md R8). -/
  log2MaxLen : Nat
  /-- LOG2_MATMAX (00_scope.md R9). -/
  log2MatMax : Nat
  /-- BLOCK_BASE, the block's base in the system address space: the platform's parameter, any value
  (20_memory.md R83). No register shows it. -/
  blockBase : Word
  deriving DecidableEq, Repr

/-- The default build: F = 8, MAXLEN = 32768, MATMAX = 65536 (00_scope.md R7-R9). DESIGN CHOICE, unsafe: the spec leaves
BLOCK_BASE to the platform and gives it no default; 0 stands here (notes/assumptions/9.md). -/
def Build.default : Build := { fracBits := 8, log2MaxLen := 15, log2MatMax := 16, blockBase := 0 }

/-- MAXLEN, the longest 1D plan (00_scope.md R8). -/
def Build.maxLen (b : Build) : Nat := 2 ^ b.log2MaxLen

/-- MATMAX, the largest element count of a 2D plan (00_scope.md R9). -/
def Build.matMax (b : Build) : Nat := 2 ^ b.log2MatMax

/-- The legal ranges of 00_scope.md R7, R8 and R9. -/
def Build.legal (b : Build) : Bool :=
  decide (1 ≤ b.fracBits) && decide (b.fracBits ≤ 16) &&
  decide (1 ≤ b.log2MaxLen) && decide (b.log2MaxLen ≤ 15) &&
  decide (2 ≤ b.log2MatMax) && decide (b.log2MatMax ≤ 22) && decide (b.log2MatMax ≤ 2 * b.log2MaxLen)

end Sys2Proof
end

