-- ==== Sys2Proof/Syntax.lean ====
section
/-! DEFINITION. The commands of the block as abstract syntax: one constructor per row of spec/opcode_table.json
(30_encoding.md R121). Commands carry no immediates; their operands are the latched operand registers (R117). -/

namespace Sys2Proof

/-- A command. The last constructor is the table's row for OPC 0xF and for every word that matches no other row
(46_control.md R291); it carries the word itself. -/
inductive Instr where
  | nop
  | planCreate (ctx : HostCtx)
  | planDestroy (ctx : HostCtx)
  | loadReal (ctx : HostCtx)
  | loadCplx (ctx : HostCtx)
  | run (ctx : HostCtx) (dir : Direction)
  | transform (ctx : HostCtx) (dir : Direction) (kind : InputKind)
  | result (ctx : HostCtx)
  | mag (ctx : HostCtx)
  | nmag (ctx : HostCtx)
  | isqrt
  | plan2dCreate
  | plan2dDestroy
  | transform2d (dir : Direction)
  | result2d
  | reserved (word : Word)
  deriving DecidableEq, Repr

end Sys2Proof
end

