-- ==== Sys2Proof/Decode.lean ====
section
/-! DEFINITION. The decoder of command words, total on any bytes, and after it the encoder; both written from
30_encoding.md R111 (fields) and R121 (opcode map). -/

namespace Sys2Proof

/-- Why bytes are no command. Only a string of fewer than four bytes is rejected: every 32-bit word is either one of
the 33 legal words or the reserved row's (30_encoding.md R124). -/
inductive DecodeError where
  /-- Fewer than the four bytes of the one command length (30_encoding.md R110). -/
  | shortCommandWord (length : Nat)
  deriving DecidableEq, Repr

/-- The four bytes of a word, the least significant first (20_memory.md R84). -/
def wordBytes (w : Word) : List Byte :=
  [w.extractLsb' 0 8, w.extractLsb' 8 8, w.extractLsb' 16 8, w.extractLsb' 24 8]

/-- The word whose byte at address a + k is `bk` (20_memory.md R84). -/
def wordOfBytes (b0 b1 b2 b3 : Byte) : Word := b3 ++ b2 ++ b1 ++ b0

/-- CTX, bit 8 (30_encoding.md R115). -/
def ctxField (w : Word) : HostCtx := if w.getLsbD 8 then .p1 else .p0

/-- DIR, bit 4 (30_encoding.md R113). -/
def dirField (w : Word) : Direction := if w.getLsbD 4 then .inverse else .forward

/-- CPLX, bit 5 (30_encoding.md R114). -/
def cplxField (w : Word) : InputKind := if w.getLsbD 5 then .complex else .real

/-- One row of the opcode map: a word encodes the row when `word AND mask = pattern` (30_encoding.md R121). -/
structure OpcodeRow where
  pattern : Word
  mask : Word
  build : Word → Instr

/-- Whether a word encodes a row (30_encoding.md R116, R121). -/
def OpcodeRow.covers (r : OpcodeRow) (w : Word) : Bool := w &&& r.mask == r.pattern

/-- The opcode map of 30_encoding.md R121, in its order, the reserved row left out. -/
def opcodeMap : List OpcodeRow :=
  [ ⟨0x00000000, 0xFFFFFFFF, fun _ => .nop⟩,
    ⟨0x00000001, 0xFFFFFEFF, fun w => .planCreate (ctxField w)⟩,
    ⟨0x00000002, 0xFFFFFEFF, fun w => .planDestroy (ctxField w)⟩,
    ⟨0x00000003, 0xFFFFFEFF, fun w => .loadReal (ctxField w)⟩,
    ⟨0x00000004, 0xFFFFFEFF, fun w => .loadCplx (ctxField w)⟩,
    ⟨0x00000005, 0xFFFFFEEF, fun w => .run (ctxField w) (dirField w)⟩,
    ⟨0x00000006, 0xFFFFFECF, fun w => .transform (ctxField w) (dirField w) (cplxField w)⟩,
    ⟨0x00000007, 0xFFFFFEFF, fun w => .result (ctxField w)⟩,
    ⟨0x00000008, 0xFFFFFEFF, fun w => .mag (ctxField w)⟩,
    ⟨0x00000009, 0xFFFFFEFF, fun w => .nmag (ctxField w)⟩,
    ⟨0x0000000A, 0xFFFFFFFF, fun _ => .isqrt⟩,
    ⟨0x0000000B, 0xFFFFFFFF, fun _ => .plan2dCreate⟩,
    ⟨0x0000000C, 0xFFFFFFFF, fun _ => .plan2dDestroy⟩,
    ⟨0x0000000D, 0xFFFFFFEF, fun w => .transform2d (dirField w)⟩,
    ⟨0x0000000E, 0xFFFFFFFF, fun _ => .result2d⟩ ]

/-- Whether a word is one of the 33 legal command words (30_encoding.md R116, R122). -/
def legalWord (w : Word) : Bool := opcodeMap.any (·.covers w)

/-- The command of a word: its row of the opcode map, or the reserved row (30_encoding.md R124, 46_control.md R291). -/
def decodeWord (w : Word) : Instr :=
  match opcodeMap.find? (·.covers w) with
  | some r => r.build w
  | none => .reserved w

/-- Decode the command at the head of a string of bytes, and the bytes after it. -/
def decode : List Byte → Except DecodeError (Instr × List Byte)
  | b0 :: b1 :: b2 :: b3 :: rest => .ok (decodeWord (wordOfBytes b0 b1 b2 b3), rest)
  | short => .error (.shortCommandWord short.length)

/-- The command read from a word numbered as spec/opcode_table.json numbers it; bits at `nbits` and above are 0. -/
def decodeTableWord (nbits w : Nat) : Option Instr :=
  match decode (wordBytes (BitVec.ofNat 32 (w % 2 ^ nbits))) with
  | .ok (i, _) => some i
  | .error _ => none

/-! ## The encoder -/

/-- CTX in its place, bit 8. -/
def HostCtx.bits : HostCtx → Word
  | .p0 => 0
  | .p1 => 1 <<< 8

/-- DIR in its place, bit 4. -/
def Direction.bits : Direction → Word
  | .forward => 0
  | .inverse => 1 <<< 4

/-- CPLX in its place, bit 5. -/
def InputKind.bits : InputKind → Word
  | .real => 0
  | .complex => 1 <<< 5

/-- The command word of an instruction: OPC and the fields it uses, every other bit 0 (30_encoding.md R111, R112). -/
def encodeWord : Instr → Word
  | .nop => 0x0
  | .planCreate c => 0x1 ||| c.bits
  | .planDestroy c => 0x2 ||| c.bits
  | .loadReal c => 0x3 ||| c.bits
  | .loadCplx c => 0x4 ||| c.bits
  | .run c d => 0x5 ||| c.bits ||| d.bits
  | .transform c d k => 0x6 ||| c.bits ||| d.bits ||| k.bits
  | .result c => 0x7 ||| c.bits
  | .mag c => 0x8 ||| c.bits
  | .nmag c => 0x9 ||| c.bits
  | .isqrt => 0xA
  | .plan2dCreate => 0xB
  | .plan2dDestroy => 0xC
  | .transform2d d => 0xD ||| d.bits
  | .result2d => 0xE
  | .reserved w => w

/-- The bytes of an instruction, as the command word is stored (20_memory.md R84). -/
def encode (i : Instr) : List Byte := wordBytes (encodeWord i)

end Sys2Proof
end

