-- ==== Sys2Proof/Machine/State.lean ====
section
/-! DEFINITION. The state of the block (10_state.md), the ways a step can stop, and the state after reset
(70_reset_and_hazards.md R340). Plain data throughout. -/

namespace Sys2Proof.Machine

open Sys2Proof

/-! ## Names of places -/

/-- A plan context (10_state.md R50): the host's P0 and P1, the 2D plan's row plan R (`row`)
and column plan C (`col`). -/
inductive Ctx where
  | p0
  | p1
  | row
  | col
  deriving DecidableEq, Repr

/-- A data memory: an array of 32-bit words (10_state.md R52-R56). -/
inductive Buf where
  | re (ctx : Ctx)
  | im (ctx : Ctx)
  | inRe
  | inIm
  | matIn
  | trRe
  | trIm
  | mrRe
  | mrIm
  deriving DecidableEq, Repr

/-- A control and status register (20_memory.md R82). -/
inductive Csr where
  | id
  | cfg
  | ctrl
  | status
  | cmd
  | arg0
  | arg1
  | res0
  | res1
  | lastCmd
  | ctxInfo (ctx : Ctx)
  | p2dInfo
  deriving DecidableEq, Repr

/-- What a mapped address names (20_memory.md R81): a register, a word of a data memory, or a word of one of the
read-only table views BRT, TWR and TWI. -/
inductive Loc where
  | csr (reg : Csr)
  | buf (b : Buf) (index : Nat)
  | brt (ctx : Ctx) (index : Nat)
  | twr (ctx : Ctx) (index : Nat)
  | twi (ctx : Ctx) (index : Nat)
  deriving DecidableEq, Repr

/-! ## Error codes -/

/-- The error codes of STATUS.ERR (60_exceptions.md R301). Codes 6..15 are never produced (10_state.md R39), so they
are no values of this type. -/
inductive ErrCode where
  | ok
  | notPow2
  | tooLarge
  | noPlan
  | index
  | illegal
  deriving DecidableEq, Repr

/-! ## The host side of the port -/

/-- The form of a bus access (20_memory.md R86): 8, 16, 32 or 64 bits, or a word with partial byte enables. -/
inductive AccessSize where
  | byte
  | half
  | word
  | double
  | partialWord
  deriving DecidableEq, Repr

/-- Something the outside does to the block (46_control.md R292, R299; notes/assumptions/3.md). -/
inductive HostOp where
  /-- One write access at a system address (R293, 20_memory.md R83). -/
  | write (addr : Word) (size : AccessSize) (value : Word)
  /-- One read access at a system address (R294, 20_memory.md R83). -/
  | read (addr : Word) (size : AccessSize)
  /-- The host's loop WAIT: read STATUS until BUSY is 0 (30_encoding.md R125, R299). -/
  | wait
  /-- The reset input, with the contents the data memories then have (R340, R343; notes/assumptions/8.md). -/
  | reset (contents : List Host.Cell)
  deriving DecidableEq, Repr

/-- The block's answer to one access (60_exceptions.md R312). -/
inductive Reply where
  /-- A read that was served, with its word. -/
  | data (value : Word)
  /-- A write that was served, a write that was ignored, or a dropped CMD write. -/
  | ack
  /-- The error response. -/
  | busError
  deriving DecidableEq, Repr

/-! ## The state -/

/-- The data memories as bytes at the addresses of 20_memory.md R81, in the canonical form of `Memory.wf`. -/
abbrev Memory := List Host.Cell

/-- The fields of a plan context that CTXn_INFO shows (10_state.md R46, R50). -/
structure Plan where
  valid : Bool
  length : BitVec 16
  steps : BitVec 4
  deriving DecidableEq, Repr

/-- A context that holds no plan (10_state.md R51). -/
def Plan.none : Plan := { valid := false, length := 0, steps := 0 }

/-- The state of the block, and beside it the host side of its port. -/
structure State where
  /-- The build parameters (00_scope.md R7-R9) and BLOCK_BASE (20_memory.md R83); no step changes them. -/
  build : Build
  /-- CTRL.IE (10_state.md R33). -/
  ie : Bool
  /-- STATUS.BUSY (10_state.md R35). -/
  busy : Bool
  /-- STATUS.DONE (10_state.md R36). -/
  done : Bool
  /-- STATUS.OVR (10_state.md R37). -/
  ovr : Bool
  /-- STATUS.BERR (10_state.md R38). -/
  berr : Bool
  /-- STATUS.ERR (10_state.md R39). -/
  err : ErrCode
  /-- ARG0 (10_state.md R41). -/
  arg0 : Word
  /-- ARG1 (10_state.md R42). -/
  arg1 : Word
  /-- RES0 (10_state.md R43). -/
  res0 : Word
  /-- RES1 (10_state.md R44). -/
  res1 : Word
  /-- LASTCMD (10_state.md R45). -/
  lastCmd : Word
  /-- L_CMD, the word of the command in flight (10_state.md R48). -/
  lCmd : Word
  /-- L_ARG0 (10_state.md R48). -/
  lArg0 : Word
  /-- L_ARG1 (10_state.md R48). -/
  lArg1 : Word
  /-- VALID, LENGTH and STEPS of context P0 (10_state.md R50). -/
  planP0 : Plan
  /-- VALID, LENGTH and STEPS of context P1. -/
  planP1 : Plan
  /-- VALID, LENGTH and STEPS of context R, the 2D plan's row plan. -/
  planR : Plan
  /-- VALID, LENGTH and STEPS of context C, the 2D plan's column plan. -/
  planC : Plan
  /-- P2D_INFO.V2D (10_state.md R47, R57). -/
  v2d : Bool
  /-- RE, IM, IN_RE, IN_IM, MAT_IN, TR_RE, TR_IM, MR_RE, MR_IM (10_state.md R52-R56). -/
  mem : Memory
  /-- The model's own: how many more host steps pass before the command in flight completes (46_control.md R298). -/
  wait : Nat
  /-- The model's own, an input: the completion latencies of the commands still to be accepted (46_control.md R298). -/
  latencies : List Nat
  /-- The model's own, an input: what the outside still does to the block, in order (20_memory.md R100). -/
  hostOps : List HostOp
  /-- The model's own, an output: the answers given so far, newest first. -/
  replies : List Reply
  deriving DecidableEq, Repr

/-! ## Stops -/

/-- Why the machine stops with a fault. The spec gives every step an effect, so no state reaches one. -/
inductive Fault where
  /-- Raised by `step` only, if the bytes of L_CMD were no command. Every 32-bit word decodes (30_encoding.md R124),
  so it is never raised; it is there because the decoder's type allows a rejection. Safe. -/
  | commandFetch (reason : DecodeError)
  deriving DecidableEq, Repr

/-- Why an instruction has no meaning. -/
inductive Refusal where
  /-- Raised by `exec` for an instruction that the model gives no meaning; no instruction is left. Safe. -/
  | notModelled (mnemonic : String)
  deriving DecidableEq, Repr

/-! ## Reset -/

/-- The state after reset of a build (70_reset_and_hazards.md R340). The contents of the data memories are the
parameter INIT_MEM (R343). -/
def State.afterReset (b : Build) (initMem : Memory) : State :=
  { build := b
    ie := false
    busy := false
    done := false
    ovr := false
    berr := false
    err := .ok
    arg0 := 0
    arg1 := 0
    res0 := 0
    res1 := 0
    lastCmd := 0
    lCmd := 0
    lArg0 := 0
    lArg1 := 0
    planP0 := .none
    planP1 := .none
    planR := .none
    planC := .none
    v2d := false
    mem := initMem
    wait := 0
    latencies := []
    hostOps := []
    replies := [] }

/-- The default build right after reset, nothing listed in memory. DESIGN CHOICE, unsafe: the spec leaves the contents
of the data memories open (R343); an unlisted byte reads 0 (notes/assumptions/1.md). -/
def State.reset : State := State.afterReset Build.default []

end Sys2Proof.Machine
end

