-- ==== Sys2Proof/Machine/AddressMap.lean ====
section
/-! DEFINITION. The address map of the slave port (20_memory.md R81, R82), and where the host's interconnect puts it in the
system address space (R83). -/

namespace Sys2Proof.Machine

open Sys2Proof

/-- The four plan contexts in the order of 10_state.md R50. -/
def Ctx.all : List Ctx := [.p0, .p1, .row, .col]

/-- The number n of a context in the map and in CTXn_INFO (10_state.md R46, R50). -/
def Ctx.number : Ctx → Nat
  | .p0 => 0
  | .p1 => 1
  | .row => 2
  | .col => 3

/-- The base of a context's windows, 0x0010_0000 · (c + 1) (20_memory.md R81). -/
def Ctx.base (c : Ctx) : Nat := 0x00100000 * (c.number + 1)

/-- The base address of a data memory (20_memory.md R81). -/
def Buf.base : Buf → Nat
  | .re c => c.base
  | .im c => c.base + 0x20000
  | .inRe => 0x00500000
  | .inIm => 0x00520000
  | .matIn => 0x01000000
  | .trRe => 0x02000000
  | .trIm => 0x03000000
  | .mrRe => 0x04000000
  | .mrIm => 0x05000000

/-- The element count of a data memory (20_memory.md R81). -/
def Buf.count (b : Build) : Buf → Nat
  | .re _ | .im _ | .inRe | .inIm => b.maxLen
  | .matIn | .trRe | .trIm | .mrRe | .mrIm => b.matMax

/-- The byte address of element i: base + 4·i (20_memory.md R81). -/
def Buf.addr (b : Buf) (i : Nat) : Nat := b.base + 4 * i

/-- Every data memory. -/
def Buf.all : List Buf :=
  Ctx.all.map .re ++ Ctx.all.map .im ++ [.inRe, .inIm, .matIn, .trRe, .trIm, .mrRe, .mrIm]

/-- The registers at their offsets (20_memory.md R82). -/
def csrOffsets : List (Nat × Csr) :=
  [ (0x000, .id), (0x004, .cfg), (0x008, .ctrl), (0x00C, .status), (0x010, .cmd), (0x014, .arg0), (0x018, .arg1),
    (0x01C, .res0), (0x020, .res1), (0x024, .lastCmd), (0x040, .ctxInfo .p0), (0x044, .ctxInfo .p1),
    (0x048, .ctxInfo .row), (0x04C, .ctxInfo .col), (0x050, .p2dInfo) ]

/-- The offset of a register (20_memory.md R82). -/
def Csr.addr : Csr → Nat
  | .id => 0x000
  | .cfg => 0x004
  | .ctrl => 0x008
  | .status => 0x00C
  | .cmd => 0x010
  | .arg0 => 0x014
  | .arg1 => 0x018
  | .res0 => 0x01C
  | .res1 => 0x020
  | .lastCmd => 0x024
  | .ctxInfo c => 0x040 + 4 * c.number
  | .p2dInfo => 0x050

/-- What the words of a window are. -/
inductive WindowKind where
  | data (b : Buf)
  | brt (ctx : Ctx)
  | twr (ctx : Ctx)
  | twi (ctx : Ctx)
  deriving DecidableEq, Repr

/-- One row of the address map: `count` words from `base` on. -/
structure Window where
  base : Nat
  count : Nat
  kind : WindowKind
  deriving DecidableEq, Repr

/-- The place of word `i` of a window. -/
def Window.loc (w : Window) (i : Nat) : Loc :=
  match w.kind with
  | .data b => .buf b i
  | .brt c => .brt c i
  | .twr c => .twr c i
  | .twi c => .twi c i

/-- Whether a byte address lies in a window. -/
def Window.holds (w : Window) (a : Nat) : Bool := decide (w.base ≤ a) && decide (a < w.base + 4 * w.count)

/-- The windows of the data memories. -/
def dataWindows (b : Build) : List Window :=
  Buf.all.map fun m => { base := m.base, count := m.count b, kind := .data m }

/-- The windows of the table views: BRT of MAXLEN words, TWR and TWI of MAXLEN/2 (20_memory.md R81). -/
def tableWindows (b : Build) : List Window :=
  Ctx.all.map (fun c => { base := c.base + 0x40000, count := b.maxLen, kind := .brt c }) ++
  Ctx.all.map (fun c => { base := c.base + 0x60000, count := b.maxLen / 2, kind := .twr c }) ++
  Ctx.all.map (fun c => { base := c.base + 0x70000, count := b.maxLen / 2, kind := .twi c })

/-- The place an aligned address names, or none where it is unmapped (20_memory.md R81, R82, R89). -/
def locate (b : Build) (a : Nat) : Option Loc :=
  match csrOffsets.lookup a with
  | some r => some (.csr r)
  | none => ((dataWindows b ++ tableWindows b).find? (·.holds a)).map fun w => w.loc ((a - w.base) / 4)

/-- The address of a place, the other direction of the map (20_memory.md R81, 30_encoding.md R125). -/
def Loc.addr : Loc → Nat
  | .csr r => r.addr
  | .buf b i => b.addr i
  | .brt c i => c.base + 0x40000 + 4 * i
  | .twr c i => c.base + 0x60000 + 4 * i
  | .twi c i => c.base + 0x70000 + 4 * i

/-- The system address of an address of the map: the interconnect adds BLOCK_BASE (20_memory.md R83). DESIGN CHOICE: on
the 32-bit bus of 00_scope.md R11 the sum wraps (notes/assumptions/9.md). -/
def systemAddress (blockBase addr : Word) : Word := blockBase + addr

/-- The address of the map that an access at a system address reaches, the other direction of `systemAddress`
(20_memory.md R83). -/
def blockAddress (blockBase addr : Word) : Word := addr - blockBase

/-- Whether a byte address belongs to a data memory of the build. -/
def isDataByte (b : Build) (a : Nat) : Bool := (dataWindows b).any (·.holds a)

end Sys2Proof.Machine
end

