-- ==== Sys2Proof/Machine/FixedPoint.lean ====
section
/-! DEFINITION. Integers and fixed-point numbers (00_scope.md R13, R14; 40_fixed_point.md). A 32-bit word and the signed
integer of it are the same datum; `BitVec.toInt` is the reading `s32` of a word. -/

namespace Sys2Proof.Machine

open Sys2Proof

/-- `s32(v)` as a word, and equally `u32(v)`: the word congruent to `v` modulo 2^32 (00_scope.md R13). -/
def s32 (v : Int) : Word := BitVec.ofInt 32 v

/-- `asr(v, n)`, floor(v / 2^n) (00_scope.md R14). -/
def asr (v : Int) (n : Nat) : Int := v / 2 ^ n

/-- `zext_16(v)` as a word (00_scope.md R13). -/
def zext16 (v : Nat) : Word := (BitVec.ofNat 16 v).setWidth 32

/-- Scale-in, `s32(s << F)` (40_fixed_point.md R141). -/
def scaleIn (fracBits : Nat) (sample : Word) : Word := s32 (sample.toInt * 2 ^ fracBits)

/-- Scale-out, `asr(s32(v), F)` (40_fixed_point.md R143). -/
def scaleOut (fracBits : Nat) (v : Word) : Int := asr v.toInt fracBits

/-- The multiply-shift of the butterfly: the exact product, shifted right with floor (40_fixed_point.md R144). -/
def mulShift (fracBits : Nat) (b w : Int) : Int := asr (b * w) fracBits

end Sys2Proof.Machine
end

