-- ==== Sys2Proof/Machine/Ops.lean ====
section
/-! DEFINITION. The named operations over memory and registers, and the two ends of a command: completion without an
error, and completion with an error code, which is the block's whole trap entry (60_exceptions.md R302, R310). There is
no return from an exception to model (R311): after either end the block is idle and takes the next command. -/

namespace Sys2Proof.Machine

open Sys2Proof

/-! ## Memory: bytes in canonical form -/

/-- What an address that is not listed reads as. DESIGN CHOICE, unsafe: 70_reset_and_hazards.md R343 leaves the contents
after reset open (notes/assumptions/1.md). -/
def Memory.unlisted (_addr : Nat) : Byte := 0

/-- The canonical form: addresses strictly rising, no entry equal to what an unlisted address reads as. -/
def Memory.wf : Memory → Bool
  | [] => true
  | (a, v) :: rest => decide (v ≠ Memory.unlisted a) && rest.all (fun cell => decide (a < cell.1)) && Memory.wf rest

/-- The byte at an address. -/
def Memory.read8 : Memory → Nat → Byte
  | [], a => Memory.unlisted a
  | (b, v) :: rest, a => if b = a then v else Memory.read8 rest a

/-- List a byte at its place among rising addresses, in place of what is listed there. -/
def Memory.insertByte : Memory → Nat → Byte → Memory
  | [], a, v => [(a, v)]
  | (b, w) :: rest, a, v =>
    if a < b then (a, v) :: (b, w) :: rest
    else if a = b then (a, v) :: rest
    else (b, w) :: Memory.insertByte rest a v

/-- Store a byte, keeping the canonical form: the value an unlisted address reads as is stored by listing nothing. -/
def Memory.write8 (m : Memory) (a : Nat) (v : Byte) : Memory :=
  if v = Memory.unlisted a then m.filter (fun cell => cell.1 != a) else m.insertByte a v

/-- The 32-bit word at an address, little-endian (20_memory.md R84). -/
def Memory.read32 (m : Memory) (a : Nat) : Word :=
  wordOfBytes (m.read8 a) (m.read8 (a + 1)) (m.read8 (a + 2)) (m.read8 (a + 3))

/-- Store a 32-bit word at an address, little-endian (20_memory.md R84). -/
def Memory.write32 (m : Memory) (a : Nat) (v : Word) : Memory :=
  (((m.write8 a (v.extractLsb' 0 8)).write8 (a + 1) (v.extractLsb' 8 8)).write8 (a + 2) (v.extractLsb' 16 8)).write8
    (a + 3) (v.extractLsb' 24 8)

/-- Zero every byte from `lo` up to, not including, `hi`: an unlisted byte reads 0. -/
def Memory.zeroRange (m : Memory) (lo hi : Nat) : Memory :=
  m.filter fun cell => !(decide (lo ≤ cell.1) && decide (cell.1 < hi))

/-- Element i of a data memory, `X[i]` (00_scope.md R15). -/
def Memory.get (m : Memory) (b : Buf) (i : Nat) : Word := m.read32 (b.addr i)

/-- `X[i] <- v` (00_scope.md R15). -/
def Memory.set (m : Memory) (b : Buf) (i : Nat) (v : Word) : Memory := m.write32 (b.addr i) v

/-- `for i in [0, n): X[i] <- 0`. -/
def Memory.zero (m : Memory) (b : Buf) (n : Nat) : Memory := m.zeroRange (b.addr 0) (b.addr n)

/-- Memory contents made canonical from any list of bytes, those outside the data memories of the build left out. -/
def Memory.ofCells (b : Build) (cells : List Host.Cell) : Memory :=
  cells.foldl (fun m cell => if isDataByte b cell.1 then m.write8 cell.1 cell.2 else m) []

/-! ## Plan contexts -/

/-- The plan context that CTX selects (30_encoding.md R115). -/
def ctxOf : HostCtx → Ctx
  | .p0 => .p0
  | .p1 => .p1

/-- The fields of a context. -/
def State.plan (s : State) : Ctx → Plan
  | .p0 => s.planP0
  | .p1 => s.planP1
  | .row => s.planR
  | .col => s.planC

/-- Replace the fields of a context. -/
def State.setPlan (s : State) : Ctx → Plan → State
  | .p0, p => { s with planP0 := p }
  | .p1, p => { s with planP1 := p }
  | .row, p => { s with planR := p }
  | .col, p => { s with planC := p }

/-- LENGTH(c) as a number. -/
def State.length (s : State) (c : Ctx) : Nat := (s.plan c).length.toNat

/-- STEPS(c) as a number. -/
def State.steps (s : State) (c : Ctx) : Nat := (s.plan c).steps.toNat

/-- A plan of length n: VALID, LENGTH = n, STEPS = log2(n) (41_plan.md R161, R164). -/
def Plan.ofLength (n : Nat) : Plan :=
  { valid := true, length := BitVec.ofNat 16 n, steps := BitVec.ofNat 4 n.log2 }

/-- RMASK(c), `u32((LENGTH >> 1) - 1) & 0xFFFF` (10_state.md R51). -/
def Plan.rmask (p : Plan) : BitVec 16 := (p.length >>> 1) - 1

/-- Element i of a data memory in a state. -/
def State.get (s : State) (b : Buf) (i : Nat) : Word := s.mem.get b i

/-- Replace the data memories. -/
def State.withMem (s : State) (m : Memory) : State := { s with mem := m }

/-- RES0 and RES1 together: no command writes one of them alone (10_state.md R43, R44). -/
def State.withResults (s : State) (r0 r1 : Word) : State := { s with res0 := r0, res1 := r1 }

/-! ## The two ends of a command -/

/-- The completion writes: BUSY <- 0, DONE <- 1, ERR <- code (46_control.md R297). -/
def State.complete (code : ErrCode) (s : State) : State :=
  { s with busy := false, done := true, err := code }

/-- `raise CmdError(code)`: none of the command's writes is made, only the completion writes, with the code in
STATUS.ERR; no other state is saved and no mode changes (60_exceptions.md R302, R310). -/
def raiseCmdError (code : ErrCode) (s : State) : Host.Outcome State Fault Refusal := .next (s.complete code)

/-- The end of a command that raised nothing: its writes, made in `s'`, and the completion writes become visible
together (46_control.md R297). -/
def commit (s' : State) : Host.Outcome State Fault Refusal := .next (s'.complete .ok)

end Sys2Proof.Machine
end

