-- ==== Sys2Proof/Machine/Operands.lean ====
section
/-! DEFINITION. The operands of the commands, read from the latched operand registers (30_encoding.md R117-R119). -/

namespace Sys2Proof.Machine

open Sys2Proof

/-- A length or dimension: the low 16 bits of an operand register, zero-extended (30_encoding.md R117, R118). -/
def lengthOperand (arg : Word) : Nat := (arg.extractLsb' 0 16).toNat

/-- An index, or the argument of ISQRT: all 32 bits, unsigned (30_encoding.md R117, R119). -/
def indexOperand (arg : Word) : Nat := arg.toNat

/-- The length of PLAN_CREATE (30_encoding.md R117). -/
def State.lengthArg (s : State) : Nat := lengthOperand s.lArg0

/-- The index of RESULT, MAG and NMAG (30_encoding.md R117). -/
def State.indexArg (s : State) : Nat := indexOperand s.lArg0

/-- The argument of ISQRT (30_encoding.md R117). -/
def State.rootArg (s : State) : Nat := indexOperand s.lArg0

/-- The rows of PLAN2D_CREATE (30_encoding.md R117). -/
def State.rowsArg (s : State) : Nat := lengthOperand s.lArg0

/-- The columns of PLAN2D_CREATE (30_encoding.md R117). -/
def State.colsArg (s : State) : Nat := lengthOperand s.lArg1

/-- The row of RESULT2D (30_encoding.md R117). -/
def State.rowArg (s : State) : Nat := indexOperand s.lArg0

/-- The column of RESULT2D (30_encoding.md R117). -/
def State.colArg (s : State) : Nat := indexOperand s.lArg1

end Sys2Proof.Machine
end

