-- ==== Sys2Proof/Machine/TwiddleRom.lean ====
section
/-! DEFINITION. The twiddle ROM (42_twiddle_rom.md): the quarter-wave table Q[0..8192] at resolution 32768. -/

namespace Sys2Proof.Machine

/-- The table of 42_twiddle_rom.md R192 (F = 8) by run lengths. Q is non-increasing (R190), so it is given by how many
entries hold 256, how many hold 255, and so on down to 0. DEDUCED: the runs were counted from the rows of R192
(notes/assumptions/6.md). -/
def romRuns : List Nat :=
  [327, 238, 165, 134, 116, 103, 95, 88, 82, 78, 73, 71, 67, 65, 62, 61, 58, 57, 55, 54, 53, 51, 50, 50, 48,
   47, 46, 46, 45, 44, 43, 43] ++
  [42, 41, 41, 41, 40, 39, 39, 38, 38, 38, 37, 37, 36, 36, 35, 36, 35, 34, 35, 34, 33, 34, 33, 33, 33, 32, 32,
   32, 32, 31, 31, 31] ++
  [31, 31, 30, 30, 30, 30, 30, 29, 30, 29, 29, 28, 29, 29, 28, 28, 28, 28, 28, 28, 27, 27, 28, 27, 27, 27, 26,
   27, 27, 26, 26, 26] ++
  [27, 26, 25, 26, 26, 26, 25, 25, 26, 25, 25, 25, 25, 25, 25, 25, 24, 25, 24, 25, 24, 24, 24, 25, 24, 24, 24,
   23, 24, 24, 23, 24] ++
  [24, 23, 23, 24, 23, 23, 23, 24, 23, 23, 23, 23, 22, 23, 23, 23, 22, 23, 22, 23, 22, 23, 22, 23, 22, 22, 22,
   23, 22, 22, 22, 22] ++
  [22, 22, 22, 21, 22, 22, 22, 22, 21, 22, 22, 21, 22, 21, 22, 21, 22, 21, 22, 21, 21, 22, 21, 21, 21, 21, 22,
   21, 21, 21, 21, 21] ++
  [21, 21, 21, 21, 21, 21, 21, 21, 21, 21, 21, 20, 21, 21, 21, 20, 21, 21, 21, 20, 21, 21, 20, 21, 21, 20, 21,
   20, 21, 21, 20, 21] ++
  [20, 21, 20, 21, 20, 21, 20, 21, 20, 21, 20, 20, 21, 20, 21, 20, 21, 20, 20, 21, 20, 21, 20, 20, 21, 20, 20,
   21, 20, 21, 20, 20] ++
  [11]

/-- Entry m of a table given by its runs, the first of which holds `value`, the next `value - 1`, and so on. -/
def entryOfRuns : List Nat → Nat → Nat → Nat
  | [], _, _ => 0
  | run :: runs, value, m => if m < run then value else entryOfRuns runs (value - 1) (m - run)

/-- floor(π · 2^96). -/
def piScaled : Nat := 248902613312231085230521944622

/-- The series of cos in nested form, scaled by 2^96: `terms` further terms from term `k` on, for the square `x2` of the
angle scaled alike. -/
def cosSeries (x2 : Nat) : (terms : Nat) → (k : Nat) → Int
  | 0, _ => 2 ^ 96
  | n + 1, k => 2 ^ 96 - ((x2 : Int) * cosSeries x2 n (k + 1) / 2 ^ 96) / ((2 * k - 1) * (2 * k) : Nat)

/-- `round(cos(2πm/32768) · 2^F)` for 0 ≤ m ≤ 8192 (42_twiddle_rom.md R190), computed in integers scaled by 2^96. The
spec lists no table for F other than 8 and has a model compute one from R190 (R193). DEDUCED: sixteen terms leave an
error far below the distance of any value from a halfway point (notes/assumptions/5.md). -/
def romEntryComputed (fracBits m : Nat) : Int :=
  let x := piScaled * m / 2 ^ 14
  (cosSeries (x * x / 2 ^ 96) 16 1 * 2 ^ fracBits + 2 ^ 95) / 2 ^ 96

/-- Q[m] of the build (42_twiddle_rom.md R190, R192, R193). -/
def romEntry (fracBits m : Nat) : Int :=
  if fracBits = 8 then entryOfRuns romRuns 256 m else romEntryComputed fracBits m

/-- `TW(c, k)` for a context of length `len`: the pair (TWre, TWim), by index scaling and quadrant symmetry
(41_plan.md R173). -/
def twiddle (fracBits len k : Nat) : Int × Int :=
  let m := k * (32768 / len)
  if m ≤ 8192 then (romEntry fracBits m, -romEntry fracBits (8192 - m))
  else (-romEntry fracBits (16384 - m), -romEntry fracBits (m - 8192))

end Sys2Proof.Machine
end

