-- ==== Sys2Proof/Machine/PlanUnit.lean ====
section
/-! DEFINITION. Plan construction, the bit-reversal unit and the table views of a plan (41_plan.md). -/

namespace Sys2Proof.Machine

open Sys2Proof

/-- `isPow2(x)` (41_plan.md R160). -/
def isPow2 (x : Nat) : Bool := decide (x ≠ 0) && decide (x &&& (x - 1) = 0)

/-- `bitrev(i, b)`: the low b bits of i in reverse, the others left out (41_plan.md R170). -/
def bitrev (i b : Nat) : Nat :=
  (List.range b).foldl (fun r t => if i.testBit t then r ||| (1 <<< (b - 1 - t)) else r) 0

/-- An entry of the BRT view of a context: the bit-reversal table inside a valid plan, else 0 (20_memory.md R94). -/
def State.brtWord (s : State) (c : Ctx) (i : Nat) : Word :=
  if (s.plan c).valid && decide (i < s.length c) then zext16 (bitrev i (s.steps c)) else 0

/-- An entry of the TWR view of a context: the real part of the twiddle pair inside a valid plan, else 0
(20_memory.md R95). -/
def State.twrWord (s : State) (c : Ctx) (k : Nat) : Word :=
  if (s.plan c).valid && decide (k < s.length c / 2) then s32 (twiddle s.build.fracBits (s.length c) k).1 else 0

/-- An entry of the TWI view of a context: the imaginary part (20_memory.md R95). -/
def State.twiWord (s : State) (c : Ctx) (k : Nat) : Word :=
  if (s.plan c).valid && decide (k < s.length c / 2) then s32 (twiddle s.build.fracBits (s.length c) k).2 else 0

/-- Give a context a plan of length n and zero the whole of its two buffers (41_plan.md R161, R166). -/
def State.createPlan (s : State) (c : Ctx) (n : Nat) : State :=
  (s.setPlan c (Plan.ofLength n)).withMem
    ((s.mem.zero (.re c) s.build.maxLen).zero (.im c) s.build.maxLen)

/-- PLAN_CREATE (41_plan.md R161). -/
def execPlanCreate (ctx : HostCtx) (s : State) : Host.Outcome State Fault Refusal :=
  let n := s.lengthArg
  if !isPow2 n then raiseCmdError .notPow2 s
  else if n > s.build.maxLen then raiseCmdError .tooLarge s
  else commit (s.createPlan (ctxOf ctx) n)

/-- PLAN_DESTROY (41_plan.md R168): the buffers keep their words (R169). -/
def execPlanDestroy (ctx : HostCtx) (s : State) : Host.Outcome State Fault Refusal :=
  let c := ctxOf ctx
  if !(s.plan c).valid then raiseCmdError .noPlan s
  else commit (s.setPlan c .none)

end Sys2Proof.Machine
end

