-- ==== Sys2Proof/Machine/Butterfly.lean ====
section
/-! DEFINITION. The butterfly engine: load with bit reversal, the passes, and the commands LOAD_REAL, LOAD_CPLX, RUN and
TRANSFORM (43_butterfly.md). Loops are written as the rules write them, over the data memories. -/

namespace Sys2Proof.Machine

open Sys2Proof

/-- What stays fixed while PASSES(c, inv) runs (43_butterfly.md R212). -/
structure Engine where
  /-- F. -/
  frac : Nat
  /-- c. -/
  ctx : Ctx
  /-- N. -/
  len : Nat
  /-- S. -/
  steps : Nat
  /-- mask, RMASK(c). -/
  mask : Nat
  /-- inv. -/
  inverse : Bool
  deriving DecidableEq, Repr

/-- Whether a direction is Inverse. -/
def isInverse : Direction → Bool
  | .forward => false
  | .inverse => true

/-- The engine set up for a context of a state. -/
def State.engine (s : State) (c : Ctx) (dir : Direction) : Engine :=
  { frac := s.build.fracBits
    ctx := c
    len := s.length c
    steps := s.steps c
    mask := (s.plan c).rmask.toNat
    inverse := isInverse dir }

/-- `BFLY(c, p, q, wr, wi)` (43_butterfly.md R211): both operands are read first, each product is shifted on its own,
each sum is wrapped once when stored. -/
def butterfly (e : Engine) (p q : Nat) (wr wi : Int) (m : Memory) : Memory :=
  let ar := (m.get (.re e.ctx) p).toInt
  let ai := (m.get (.im e.ctx) p).toInt
  let br := (m.get (.re e.ctx) q).toInt
  let bi := (m.get (.im e.ctx) q).toInt
  let rr := mulShift e.frac br wr
  let ii := mulShift e.frac bi wi
  let ir := mulShift e.frac bi wr
  let ri := mulShift e.frac br wi
  (((m.set (.re e.ctx) p (s32 (ar + rr - ii))).set (.im e.ctx) p (s32 (ai + ir + ri))).set
    (.re e.ctx) q (s32 (ar - rr + ii))).set (.im e.ctx) q (s32 (ai - ir - ri))

/-- The twiddle pair at a value of the running counter, its sine negated for the inverse direction
(43_butterfly.md R212, R214). -/
def Engine.twiddleAt (e : Engine) (ctr : Nat) : Int × Int :=
  let w := twiddle e.frac e.len (ctr &&& e.mask)
  (w.1, if e.inverse then -w.2 else w.2)

/-- A block of `count` consecutive pairs (p, p + s) from p on (43_butterfly.md R212, the inner loop). Gives the counter
after the block and the memory. -/
def passBlock (e : Engine) (s stride : Nat) : (count p ctr : Nat) → Memory → Nat × Memory
  | 0, _, ctr, m => (ctr, m)
  | count + 1, p, ctr, m =>
    let w := e.twiddleAt ctr
    passBlock e s stride count (p + 1) (ctr + stride) (butterfly e p (p + s) w.1 w.2 m)

/-- One pass from j on: `while j < N` a block of s pairs, then j advances by 2·s (43_butterfly.md R212, the middle loop).
The first argument bounds the iterations; N of them are enough because s ≥ 1. -/
def passLoop (e : Engine) (s stride : Nat) : (bound j ctr : Nat) → Memory → Memory
  | 0, _, _, m => m
  | bound + 1, j, ctr, m =>
    if j < e.len then
      let r := passBlock e s stride s j ctr m
      passLoop e s stride bound (j + 2 * s) r.1 r.2
    else m

/-- `for step in [0, S)`: one pass with the counter at 0, then the group spacing doubles and the stride halves
(43_butterfly.md R212, the outer loop). -/
def passSteps (e : Engine) : (steps s stride : Nat) → Memory → Memory
  | 0, _, _, m => m
  | steps + 1, s, stride, m => passSteps e steps (s <<< 1) (stride >>> 1) (passLoop e s stride e.len 0 0 m)

/-- The final shift of the inverse direction, for every element i < N of RE and IM (43_butterfly.md R212, R214). -/
def normalise (e : Engine) (m : Memory) : Memory :=
  (List.range e.len).foldl
    (fun m i =>
      (m.set (.re e.ctx) i (s32 (asr (m.get (.re e.ctx) i).toInt e.steps))).set
        (.im e.ctx) i (s32 (asr (m.get (.im e.ctx) i).toInt e.steps))) m

/-- `PASSES(c, inv)` (43_butterfly.md R212). -/
def passes (e : Engine) (m : Memory) : Memory :=
  let m' := passSteps e e.steps 1 (e.len >>> 1) m
  if e.inverse then normalise e m' else m'

/-- Load a context from samples: element i takes sample bitrev(i, S), scaled in (43_butterfly.md R201, R202, R216;
45_transform2d.md R271). `re m k` and `im m k` are sample k's words as they stand in memory m. -/
def loadSamples (e : Engine) (re im : Memory → Nat → Word) (m : Memory) : Memory :=
  (List.range e.len).foldl
    (fun m i =>
      (m.set (.re e.ctx) i (scaleIn e.frac (re m (bitrev i e.steps)))).set
        (.im e.ctx) i (scaleIn e.frac (im m (bitrev i e.steps)))) m

/-- The load of a 1D command: the samples are IN_RE, and IN_IM or 0 (43_butterfly.md R201, R202, R216; scaleIn(0) = 0,
40_fixed_point.md R142). -/
def loadInputs (e : Engine) (kind : InputKind) (m : Memory) : Memory :=
  loadSamples e (fun m k => m.get .inRe k)
    (fun m k => match kind with | .real => 0 | .complex => m.get .inIm k) m

/-- LOAD_REAL (43_butterfly.md R201). -/
def execLoadReal (ctx : HostCtx) (s : State) : Host.Outcome State Fault Refusal :=
  let c := ctxOf ctx
  if !(s.plan c).valid then raiseCmdError .noPlan s
  else commit (s.withMem (loadInputs (s.engine c .forward) .real s.mem))

/-- LOAD_CPLX (43_butterfly.md R202). -/
def execLoadCplx (ctx : HostCtx) (s : State) : Host.Outcome State Fault Refusal :=
  let c := ctxOf ctx
  if !(s.plan c).valid then raiseCmdError .noPlan s
  else commit (s.withMem (loadInputs (s.engine c .forward) .complex s.mem))

/-- RUN (43_butterfly.md R210). -/
def execRun (ctx : HostCtx) (dir : Direction) (s : State) : Host.Outcome State Fault Refusal :=
  let c := ctxOf ctx
  if !(s.plan c).valid then raiseCmdError .noPlan s
  else commit (s.withMem (passes (s.engine c dir) s.mem))

/-- TRANSFORM (43_butterfly.md R216). -/
def execTransform (ctx : HostCtx) (dir : Direction) (kind : InputKind) (s : State) :
    Host.Outcome State Fault Refusal :=
  let c := ctxOf ctx
  if !(s.plan c).valid then raiseCmdError .noPlan s
  else commit (s.withMem (passes (s.engine c dir) (loadInputs (s.engine c dir) kind s.mem)))

end Sys2Proof.Machine
end

