-- ==== Sys2Proof/Machine/Control.lean ====
section
/-! DEFINITION. The commands without a source counterpart: NOP and the reserved row (46_control.md R290, R291). -/

namespace Sys2Proof.Machine

open Sys2Proof

/-- NOP: no state change besides completion (46_control.md R290). -/
def execNop (s : State) : Host.Outcome State Fault Refusal := commit s

/-- A word that no row of the opcode map matches: completes with ILLEGAL and no other effect (46_control.md R291,
60_exceptions.md R307). The word itself plays no part. -/
def execReserved (_word : Word) (s : State) : Host.Outcome State Fault Refusal := raiseCmdError .illegal s

end Sys2Proof.Machine
end

