-- ==== Sys2Proof/Machine/Results.lean ====
section
/-! DEFINITION. The read-out commands: RESULT (40_fixed_point.md R145), the integer square root and the magnitude
helpers (44_isqrt.md). -/

namespace Sys2Proof.Machine

open Sys2Proof

/-- The iterations of the square root for result bits n - 1 down to 0, with the running root (kept doubled) and the
residual (44_isqrt.md R241). -/
def isqrtLoop : (n root residual : Nat) → Nat
  | 0, root, _ => root
  | n + 1, root, r =>
    let trial := root + (1 <<< n)
    let cand := trial <<< n
    if r ≥ cand then isqrtLoop n (root ||| (2 <<< n)) (r - cand) else isqrtLoop n root r

/-- `isqrt(x)`: sixteen iterations from bit 15 down to bit 0 (44_isqrt.md R240, R241). -/
def isqrt (x : Nat) : Nat := isqrtLoop 16 0 x >>> 1

/-- The square root of `u32(a·a + b·b)` as a result word (44_isqrt.md R246). -/
def magnitude (a b : Int) : Word := zext16 (isqrt (s32 (a * a + b * b)).toNat)

/-- RESULT (40_fixed_point.md R145). -/
def execResult (ctx : HostCtx) (s : State) : Host.Outcome State Fault Refusal :=
  let c := ctxOf ctx
  if !(s.plan c).valid then raiseCmdError .noPlan s
  else if s.indexArg ≥ s.length c then raiseCmdError .index s
  else
    commit (s.withResults (s32 (scaleOut s.build.fracBits (s.get (.re c) s.indexArg)))
      (s32 (scaleOut s.build.fracBits (s.get (.im c) s.indexArg))))

/-- The shared body of MAG and NMAG: both parts of an element shifted right by `shift`, then the root of the sum of
squares (44_isqrt.md R244, R245). -/
def State.magnitudeAt (s : State) (c : Ctx) (shift : Nat) : Word :=
  magnitude (asr (s.get (.re c) s.indexArg).toInt shift) (asr (s.get (.im c) s.indexArg).toInt shift)

/-- MAG (44_isqrt.md R244). -/
def execMag (ctx : HostCtx) (s : State) : Host.Outcome State Fault Refusal :=
  let c := ctxOf ctx
  if !(s.plan c).valid then raiseCmdError .noPlan s
  else if s.indexArg ≥ s.length c then raiseCmdError .index s
  else commit (s.withResults (s.magnitudeAt c s.build.fracBits) 0)

/-- NMAG (44_isqrt.md R245). -/
def execNmag (ctx : HostCtx) (s : State) : Host.Outcome State Fault Refusal :=
  let c := ctxOf ctx
  if !(s.plan c).valid then raiseCmdError .noPlan s
  else if s.indexArg ≥ s.length c then raiseCmdError .index s
  else commit (s.withResults (s.magnitudeAt c (s.steps c + s.build.fracBits)) 0)

/-- ISQRT (44_isqrt.md R243). -/
def execIsqrt (s : State) : Host.Outcome State Fault Refusal :=
  commit (s.withResults (zext16 (isqrt s.rootArg)) 0)

end Sys2Proof.Machine
end

