-- ==== Sys2Proof/Machine/Transform2d.lean ====
section
/-! DEFINITION. The 2D separable transform: PLAN2D_CREATE, PLAN2D_DESTROY, TRANSFORM2D and RESULT2D
(45_transform2d.md). -/

namespace Sys2Proof.Machine

open Sys2Proof

/-- The `rows` of the 2D plan, LENGTH of context C (45_transform2d.md R260). -/
def State.rows (s : State) : Nat := s.length .col

/-- The `cols` of the 2D plan, LENGTH of context R (45_transform2d.md R260). -/
def State.cols (s : State) : Nat := s.length .row

/-- The success part of PLAN2D_CREATE: both private plans, all their buffers and all four matrices zeroed, V2D set
(45_transform2d.md R261, R263). -/
def State.createPlan2d (s : State) (rows cols : Nat) : State :=
  let s' := (s.createPlan .row cols).createPlan .col rows
  let m := (((s'.mem.zero .trRe s.build.matMax).zero .trIm s.build.matMax).zero .mrRe s.build.matMax).zero
    .mrIm s.build.matMax
  { s'.withMem m with v2d := true }

/-- PLAN2D_CREATE: the columns are checked before the rows, NOT_POW2 before TOO_LARGE (45_transform2d.md R261, R262). -/
def execPlan2dCreate (s : State) : Host.Outcome State Fault Refusal :=
  let rows := s.rowsArg
  let cols := s.colsArg
  if !isPow2 cols then raiseCmdError .notPow2 s
  else if !isPow2 rows then raiseCmdError .notPow2 s
  else if cols > s.build.maxLen ∨ rows > s.build.maxLen then raiseCmdError .tooLarge s
  else if rows * cols > s.build.matMax then raiseCmdError .tooLarge s
  else commit (s.createPlan2d rows cols)

/-- PLAN2D_DESTROY: the matrices and buffers keep their words (45_transform2d.md R264). -/
def execPlan2dDestroy (s : State) : Host.Outcome State Fault Refusal :=
  if !s.v2d then raiseCmdError .noPlan s
  else commit { (s.setPlan .row .none).setPlan .col .none with v2d := false }

/-- Row i of the row pass: load row i of MAT_IN into R, run the passes, and scatter element j to
TR[j·rows + bitrev(i, STEPS(C))] (45_transform2d.md R270-R272). -/
def rowPass (e : Engine) (rows colSteps : Nat) (m : Memory) (i : Nat) : Memory :=
  let m' := passes e (loadSamples e (fun m k => m.get .matIn (i * e.len + k)) (fun _ _ => 0) m)
  (List.range e.len).foldl
    (fun m j =>
      (m.set .trRe (j * rows + bitrev i colSteps) (m.get (.re e.ctx) j)).set
        .trIm (j * rows + bitrev i colSteps) (m.get (.im e.ctx) j)) m'

/-- Column i of the column pass: copy row i of TR into C, run the passes, and scatter element j to MR[j·cols + i]
(45_transform2d.md R270, R273, R274). -/
def colPass (e : Engine) (cols : Nat) (m : Memory) (i : Nat) : Memory :=
  let m' := passes e ((List.range e.len).foldl
    (fun m j =>
      (m.set (.re e.ctx) j (m.get .trRe (i * e.len + j))).set (.im e.ctx) j (m.get .trIm (i * e.len + j))) m)
  (List.range e.len).foldl
    (fun m j =>
      (m.set .mrRe (j * cols + i) (m.get (.re e.ctx) j)).set .mrIm (j * cols + i) (m.get (.im e.ctx) j)) m'

/-- The memory after TRANSFORM2D: every row, then every column (45_transform2d.md R270). -/
def State.transform2d (s : State) (dir : Direction) : Memory :=
  let m := (List.range s.rows).foldl (rowPass (s.engine .row dir) s.rows (s.steps .col)) s.mem
  (List.range s.cols).foldl (colPass (s.engine .col dir) s.cols) m

/-- TRANSFORM2D (45_transform2d.md R270). -/
def execTransform2d (dir : Direction) (s : State) : Host.Outcome State Fault Refusal :=
  if !s.v2d then raiseCmdError .noPlan s
  else commit (s.withMem (s.transform2d dir))

/-- RESULT2D (45_transform2d.md R277). -/
def execResult2d (s : State) : Host.Outcome State Fault Refusal :=
  if !s.v2d then raiseCmdError .noPlan s
  else if s.rowArg ≥ s.rows ∨ s.colArg ≥ s.cols then raiseCmdError .index s
  else
    let i := s.rowArg * s.cols + s.colArg
    commit (s.withResults (s32 (scaleOut s.build.fracBits (s.get .mrRe i)))
      (s32 (scaleOut s.build.fracBits (s.get .mrIm i))))

end Sys2Proof.Machine
end

