-- ==== Sys2Proof/Machine/Dispatch.lean ====
section
/-! DEFINITION. One arm per command (46_control.md R297). -/

namespace Sys2Proof.Machine

open Sys2Proof

def exec (i : Instr) (s : State) : Host.Outcome State Fault Refusal :=
  match i with
  | .nop => Sys2Proof.Machine.execNop s
  | .planCreate ctx => Sys2Proof.Machine.execPlanCreate ctx s
  | .planDestroy ctx => Sys2Proof.Machine.execPlanDestroy ctx s
  | .loadReal ctx => Sys2Proof.Machine.execLoadReal ctx s
  | .loadCplx ctx => Sys2Proof.Machine.execLoadCplx ctx s
  | .run ctx dir => Sys2Proof.Machine.execRun ctx dir s
  | .transform ctx dir kind => Sys2Proof.Machine.execTransform ctx dir kind s
  | .result ctx => Sys2Proof.Machine.execResult ctx s
  | .mag ctx => Sys2Proof.Machine.execMag ctx s
  | .nmag ctx => Sys2Proof.Machine.execNmag ctx s
  | .isqrt => Sys2Proof.Machine.execIsqrt s
  | .plan2dCreate => Sys2Proof.Machine.execPlan2dCreate s
  | .plan2dDestroy => Sys2Proof.Machine.execPlan2dDestroy s
  | .transform2d dir => Sys2Proof.Machine.execTransform2d dir s
  | .result2d => Sys2Proof.Machine.execResult2d s
  | .reserved word => Sys2Proof.Machine.execReserved word s

end Sys2Proof.Machine
end

