-- ==== Sys2Proof/Machine/Flags.lean ====
section
/-! DEFINITION. The STATUS fields: how they read, what sets and clears them, and the interrupt output
(10_state.md R34-R39, R49). The block has no other flags (R59). -/

namespace Sys2Proof.Machine

open Sys2Proof

/-- The number of an error code (60_exceptions.md R301). -/
def ErrCode.number : ErrCode → BitVec 4
  | .ok => 0
  | .notPow2 => 1
  | .tooLarge => 2
  | .noPlan => 3
  | .index => 4
  | .illegal => 5

/-- STATUS as it reads: BUSY, DONE, OVR, BERR in bits 0..3, ERR in bits 11:8, the rest 0 (10_state.md R34). -/
def State.statusWord (s : State) : Word :=
  (0 : BitVec 20) ++ s.err.number ++ (0 : BitVec 4) ++ BitVec.ofBool s.berr ++ BitVec.ofBool s.ovr ++
    BitVec.ofBool s.done ++ BitVec.ofBool s.busy

/-- A host write of `v` to STATUS: a 1 in bit 1, 2 or 3 clears DONE, OVR or BERR (10_state.md R34). -/
def State.clearStatus (s : State) (v : Word) : State :=
  { s with
    done := if v.getLsbD 1 then false else s.done
    ovr := if v.getLsbD 2 then false else s.ovr
    berr := if v.getLsbD 3 then false else s.berr }

/-- A bus error sets BERR and nothing else (60_exceptions.md R312). -/
def State.markBusError (s : State) : State := { s with berr := true }

/-- A CMD write while BUSY sets OVR and nothing else (46_control.md R296). -/
def State.markOverrun (s : State) : State := { s with ovr := true }

/-- `Accept(w)` (46_control.md R295): latch the word and the operands, record the word, BUSY <- 1, DONE <- 0, ERR <- 0.
How many host steps then pass before completion is left open (R298); it is the next of the latencies given as an input,
0 where none is given (notes/assumptions/2.md). -/
def State.accept (s : State) (w : Word) : State :=
  { s with
    lCmd := w
    lArg0 := s.arg0
    lArg1 := s.arg1
    lastCmd := w
    busy := true
    done := false
    err := .ok
    wait := s.latencies.headD 0
    latencies := s.latencies.tail }

/-- The interrupt output, `IRQ = CTRL.IE and STATUS.DONE` (10_state.md R49, 60_exceptions.md R314). -/
def State.irq (s : State) : Bool := s.ie && s.done

end Sys2Proof.Machine
end

