-- ==== Sys2Proof/Machine/HostPort.lean ====
section
/-! DEFINITION. The slave port: host writes and reads (46_control.md R293, R294), the reset input
(70_reset_and_hazards.md R340, R341), and one host step. -/

namespace Sys2Proof.Machine

open Sys2Proof

/-! ## Registers as the host sees them -/

/-- ID, ASCII "LFFT" (10_state.md R31). -/
def idWord : Word := 0x4C464654

/-- CFG: LOG2_MAXLEN [3:0], FRAC_BITS [12:8], LOG2_MATMAX [20:16], REV = 1 in [31:24] (10_state.md R32). -/
def cfgWord (b : Build) : Word :=
  (1 : BitVec 8) ++ (0 : BitVec 3) ++ BitVec.ofNat 5 b.log2MatMax ++ (0 : BitVec 3) ++ BitVec.ofNat 5 b.fracBits ++
    (0 : BitVec 4) ++ BitVec.ofNat 4 b.log2MaxLen

/-- CTXn_INFO: LENGTH [15:0], STEPS [19:16], VALID [31] (10_state.md R46, 46_control.md R294). -/
def Plan.infoWord (p : Plan) : Word := BitVec.ofBool p.valid ++ (0 : BitVec 11) ++ p.steps ++ p.length

/-- A register as it reads (46_control.md R294). -/
def State.readCsr (s : State) : Csr → Word
  | .id => idWord
  | .cfg => cfgWord s.build
  | .ctrl => (BitVec.ofBool s.ie).setWidth 32
  | .status => s.statusWord
  | .cmd => 0
  | .arg0 => s.arg0
  | .arg1 => s.arg1
  | .res0 => s.res0
  | .res1 => s.res1
  | .lastCmd => s.lastCmd
  | .ctxInfo c => (s.plan c).infoWord
  | .p2dInfo => (BitVec.ofBool s.v2d).setWidth 32

/-- A host write to a register (46_control.md R293): CMD issues or is dropped (R295, R296), CTRL, STATUS, ARG0 and ARG1
take the value, the read-only registers ignore it (20_memory.md R91). -/
def State.writeCsr (s : State) (v : Word) : Csr → State
  | .cmd => if s.busy then s.markOverrun else s.accept v
  | .ctrl => { s with ie := v.getLsbD 0 }
  | .status => s.clearStatus v
  | .arg0 => { s with arg0 := v }
  | .arg1 => { s with arg1 := v }
  | .id | .cfg | .res0 | .res1 | .lastCmd | .ctxInfo _ | .p2dInfo => s

/-! ## Places -/

/-- The word at a place (46_control.md R294). -/
def State.readLoc (s : State) : Loc → Word
  | .csr r => s.readCsr r
  | .buf b i => s.get b i
  | .brt c i => s.brtWord c i
  | .twr c k => s.twrWord c k
  | .twi c k => s.twiWord c k

/-- A host write to a place (46_control.md R293); the table views ignore it (20_memory.md R91). -/
def State.writeLoc (s : State) (v : Word) : Loc → State
  | .csr r => s.writeCsr v r
  | .buf b i => s.withMem (s.mem.set b i v)
  | .brt _ _ | .twr _ _ | .twi _ _ => s

/-- Whether a place is a register; the others are data windows (20_memory.md R90). -/
def Loc.isCsr : Loc → Bool
  | .csr _ => true
  | .buf _ _ | .brt _ _ | .twr _ _ | .twi _ _ => false

/-- The checks of an access at an address of the map, in their order (60_exceptions.md R313): a 32-bit access at an aligned address, a mapped
address, no data window while BUSY. The place it reaches, or none for a bus error. -/
def State.target (s : State) (addr : Word) (size : AccessSize) : Option Loc :=
  if size ≠ .word ∨ addr.extractLsb' 0 2 ≠ 0 then none
  else
    match locate s.build addr.toNat with
    | none => none
    | some l => if !l.isCsr && s.busy then none else some l

/-! ## Accesses -/

/-- `HostWrite(a, size, v)` (46_control.md R293) and its answer. -/
def hostWrite (addr : Word) (size : AccessSize) (v : Word) (s : State) : State × Reply :=
  match s.target addr size with
  | none => (s.markBusError, .busError)
  | some l => (s.writeLoc v l, .ack)

/-- `HostRead(a, size)` (46_control.md R294) and its answer. -/
def hostRead (addr : Word) (size : AccessSize) (s : State) : State × Reply :=
  match s.target addr size with
  | none => (s.markBusError, .busError)
  | some l => (s, .data (s.readLoc l))

/-- The data lines of an answer: 0 with a bus error (60_exceptions.md R312). -/
def Reply.dataLines : Reply → Word
  | .data v => v
  | .ack => 0
  | .busError => 0

/-- The reset input (70_reset_and_hazards.md R340, R341): everything at its reset value, a command in flight abandoned,
the data memories with the contents given (R343). The host's side of the port goes on. -/
def hostReset (contents : List Host.Cell) (s : State) : State :=
  { State.afterReset s.build (Memory.ofCells s.build contents) with
    latencies := s.latencies
    hostOps := s.hostOps
    replies := s.replies }

/-- Append an answer to the record of answers. -/
def State.answer (s : State) (r : Reply) : State := { s with replies := r :: s.replies }

/-- Take the host operation just served from the queue. -/
def State.dropOp (s : State) : State := { s with hostOps := s.hostOps.tail }

/-- One host step spent while a command is in flight (46_control.md R298). -/
def State.tick (s : State) : State := { s with wait := s.wait - 1 }

/-- The host operation at the head of the queue, served. An access is at a system address, which the interconnect brings
to the block's own (20_memory.md R83). WAIT reads STATUS, at its own place wherever the block is, and stays at the head
until it has read BUSY = 0 (30_encoding.md R125, 46_control.md R299). -/
def hostStep (op : HostOp) (s : State) : State :=
  match op with
  | .write a size v =>
    let r := hostWrite (blockAddress s.build.blockBase a) size v s.tick.dropOp
    r.1.answer r.2
  | .read a size =>
    let r := hostRead (blockAddress s.build.blockBase a) size s.tick.dropOp
    r.1.answer r.2
  | .wait =>
    let r := hostRead (BitVec.ofNat 32 Csr.status.addr) .word s.tick
    let s' := r.1.answer r.2
    if r.2.dataLines.getLsbD 0 then s' else s'.dropOp
  | .reset contents => hostReset contents s.dropOp

end Sys2Proof.Machine
end

