-- ==== Sys2Proof/Machine/Schedule.lean ====
section
/-! DEFINITION. Which agent moves next, and how the sequencer fetches its command (46_control.md R297, R298). -/

namespace Sys2Proof.Machine

open Sys2Proof

/-- Whether the next step is SeqStep: a command is in flight and either its latency has passed or the host has nothing
left to do (every accepted command completes, 70_reset_and_hazards.md R354; notes/assumptions/2.md). -/
def State.seqTurn (s : State) : Bool := s.busy && (decide (s.wait = 0) || s.hostOps.isEmpty)

/-- The bytes the sequencer decodes: those of L_CMD (46_control.md R297, 20_memory.md R84). -/
def State.commandBytes (s : State) : List Byte := wordBytes s.lCmd

/-- A command word placed where SeqStep fetches it, by the block's own way in: acceptance (46_control.md R295), with no
host step before completion (notes/assumptions/7.md). -/
def State.placeCommand (s : State) (w : Word) : State := { s.accept w with wait := 0 }

end Sys2Proof.Machine
end

