-- ==== Sys2Proof/Machine/Step.lean ====
section
/-! DEFINITION. The step of the transition system (46_control.md R292): SeqStep, or one host step, or nothing left to do. -/

namespace Sys2Proof.Machine

open Sys2Proof

/-- `SeqStep` (46_control.md R297): decode L_CMD and run the command. -/
def seqStep (s : State) : Host.Outcome State Fault Refusal :=
  match decode s.commandBytes with
  | .ok (i, _) => exec i s
  | .error reason => .fault (.commandFetch reason)

/-- One step: SeqStep where it is the sequencer's turn, else the host's next operation; with none left the block is idle
and keeps all its state (60_exceptions.md R323). -/
def step (s : State) : Host.Outcome State Fault Refusal :=
  if s.seqTurn then seqStep s
  else
    match s.hostOps with
    | [] => .next s
    | op :: _ => .next (hostStep op s)

/-- The state in which the next step runs the command of a word numbered as spec/opcode_table.json numbers it. -/
def State.withFetchWord (s : State) (nbits w : Nat) : State := s.placeCommand (BitVec.ofNat 32 (w % 2 ^ nbits))

end Sys2Proof.Machine
end

