-- ==== Sys2Proof/Safety.lean ====
section
/-! DEFINITION. What a sound state of the block is, in the spec's own invariants, what a safe step is, and the words in
which the statements speak of the data memories. -/

namespace Sys2Proof.Machine

open Sys2Proof

/-- The invariant of a plan context (10_state.md R51): a valid one holds a power of two up to MAXLEN and its logarithm,
an invalid one holds zeros. -/
def Plan.Sound (b : Build) (p : Plan) : Prop :=
  if p.valid then p.length.toNat = 2 ^ p.steps.toNat ∧ p.length.toNat ≤ b.maxLen
  else p.length = 0 ∧ p.steps = 0

/-- The invariant of the 2D plan (10_state.md R57). -/
def State.Sound2d (s : State) : Prop :=
  if s.v2d then s.planR.valid = true ∧ s.planC.valid = true ∧ s.planR.length.toNat * s.planC.length.toNat ≤ s.build.matMax
  else s.planR.valid = false ∧ s.planC.valid = false

/-- The invariant of the block, every part of it a sentence of the spec or the canonical form of the memory. -/
structure State.Sound (s : State) : Prop where
  /-- The build parameters are in their legal ranges (00_scope.md R7-R9). -/
  build : s.build.legal = true
  /-- Every context is sound (10_state.md R51). -/
  plans : ∀ c, (s.plan c).Sound s.build
  /-- The 2D plan is sound (10_state.md R57). -/
  plan2d : s.Sound2d
  /-- The memory is in canonical form. -/
  canonical : s.mem.wf = true
  /-- Every listed byte belongs to a data memory (20_memory.md R81, R105). -/
  mapped : ∀ cell ∈ s.mem, isDataByte s.build cell.1 = true
  /-- While a command is in flight DONE is 0 and ERR reads OK (10_state.md R36, R39). -/
  inFlight : s.busy = true → s.done = false ∧ s.err = .ok
  /-- LASTCMD is the word of the last accepted command, the one in L_CMD (10_state.md R45, R48). -/
  recorded : s.lastCmd = s.lCmd

/-- Element i of a context as its real and imaginary words (10_state.md R52). -/
def Memory.pair (m : Memory) (c : Ctx) (i : Nat) : Word × Word := (m.get (.re c) i, m.get (.im c) i)

/-- Byte address `a` belongs to one of the first n elements of a data memory (20_memory.md R81). -/
def Buf.HasByte (b : Buf) (n a : Nat) : Prop := b.addr 0 ≤ a ∧ a < b.addr n

/-- Byte address `a` belongs to one of the first n elements of a context's RE or IM. -/
def Ctx.HasByte (c : Ctx) (n a : Nat) : Prop := (Buf.re c).HasByte n a ∨ (Buf.im c).HasByte n a

/-- A step that stops with neither a fault nor a refusal. -/
def Completes (o : Host.Outcome State Fault Refusal) : Prop := ∃ s', o = .next s'

end Sys2Proof.Machine
end

