-- ==== Sys2Proof/WellFormed.lean ====
section
/-! DEFINITION. Which terms of `Instr` stand for a command word. Every field is an enumeration, so the one check is
that the reserved row holds no word that another row encodes (30_encoding.md R123, R124). -/

namespace Sys2Proof

/-- The reserved row stands for exactly the words outside the 33 legal ones (46_control.md R291); every other term is
well formed by its type. -/
def wellFormed : Instr → Bool
  | .nop | .planCreate _ | .planDestroy _ | .loadReal _ | .loadCplx _ | .run _ _ | .transform _ _ _ => true
  | .result _ | .mag _ | .nmag _ | .isqrt | .plan2dCreate | .plan2dDestroy | .transform2d _ | .result2d => true
  | .reserved w => !legalWord w

end Sys2Proof
end

