-- ==== Sys2Proof/Certificates/Slice0/Obligations.lean ====
section
/-! DEFINITION. The statements for the provers, and before them the vocabulary in which they give the spec's values:
closed forms that do not follow the model's loops. `wait`, `latencies`, `hostOps` and `replies` are the model's own
fields (notes/assumptions/2.md, 3.md, 4.md); where a statement names them it says so. -/

namespace Sys2Proof.Spec

open Sys2Proof Sys2Proof.Machine

/-- The 33 legal command words and their meanings, as 30_encoding.md R122 lists them. -/
def legalWords : List (Word × Instr) :=
  [ (0x000, .nop), (0x001, .planCreate .p0), (0x101, .planCreate .p1), (0x002, .planDestroy .p0),
    (0x102, .planDestroy .p1), (0x003, .loadReal .p0), (0x103, .loadReal .p1), (0x004, .loadCplx .p0),
    (0x104, .loadCplx .p1), (0x005, .run .p0 .forward), (0x015, .run .p0 .inverse), (0x105, .run .p1 .forward),
    (0x115, .run .p1 .inverse), (0x006, .transform .p0 .forward .real), (0x016, .transform .p0 .inverse .real),
    (0x026, .transform .p0 .forward .complex), (0x036, .transform .p0 .inverse .complex),
    (0x106, .transform .p1 .forward .real), (0x116, .transform .p1 .inverse .real),
    (0x126, .transform .p1 .forward .complex), (0x136, .transform .p1 .inverse .complex), (0x007, .result .p0),
    (0x107, .result .p1), (0x008, .mag .p0), (0x108, .mag .p1), (0x009, .nmag .p0), (0x109, .nmag .p1),
    (0x00A, .isqrt), (0x00B, .plan2dCreate), (0x00C, .plan2dDestroy), (0x00D, .transform2d .forward),
    (0x01D, .transform2d .inverse), (0x00E, .result2d) ]

/-- It is the sequencer's turn: a command is in flight and no host step has to come before its completion. -/
def SeqTurn (s : State) : Prop := s.busy = true ∧ (s.wait = 0 ∨ s.hostOps = [])

/-- The rows of the address map a place belongs to have it (20_memory.md R81): its index is below the row's count. -/
def Mapped (b : Build) : Loc → Prop
  | .csr _ => True
  | .buf m i => i < m.count b
  | .brt _ i => i < b.maxLen
  | .twr _ k => k < b.maxLen / 2
  | .twi _ k => k < b.maxLen / 2

/-- The windows of the address map, each with its base and its count of words as 20_memory.md R81 lists them. -/
def windowTable (b : Build) : List ((Nat → Loc) × Nat × Nat) :=
  [ (.buf (.re .p0), 0x00100000, b.maxLen), (.buf (.im .p0), 0x00120000, b.maxLen), (.brt .p0, 0x00140000, b.maxLen),
    (.twr .p0, 0x00160000, b.maxLen / 2), (.twi .p0, 0x00170000, b.maxLen / 2),
    (.buf (.re .p1), 0x00200000, b.maxLen), (.buf (.im .p1), 0x00220000, b.maxLen), (.brt .p1, 0x00240000, b.maxLen),
    (.twr .p1, 0x00260000, b.maxLen / 2), (.twi .p1, 0x00270000, b.maxLen / 2),
    (.buf (.re .row), 0x00300000, b.maxLen), (.buf (.im .row), 0x00320000, b.maxLen),
    (.brt .row, 0x00340000, b.maxLen), (.twr .row, 0x00360000, b.maxLen / 2), (.twi .row, 0x00370000, b.maxLen / 2),
    (.buf (.re .col), 0x00400000, b.maxLen), (.buf (.im .col), 0x00420000, b.maxLen),
    (.brt .col, 0x00440000, b.maxLen), (.twr .col, 0x00460000, b.maxLen / 2), (.twi .col, 0x00470000, b.maxLen / 2),
    (.buf .inRe, 0x00500000, b.maxLen), (.buf .inIm, 0x00520000, b.maxLen), (.buf .matIn, 0x01000000, b.matMax),
    (.buf .trRe, 0x02000000, b.matMax), (.buf .trIm, 0x03000000, b.matMax), (.buf .mrRe, 0x04000000, b.matMax),
    (.buf .mrIm, 0x05000000, b.matMax) ]

/-- An access with one of the three causes of a bus error (60_exceptions.md R313). -/
def BadAccess (addr : Word) (size : AccessSize) (s : State) : Prop :=
  size ≠ .word ∨ addr.toNat % 4 ≠ 0 ∨ (∀ l, Mapped s.build l → l.addr ≠ addr.toNat) ∨
    (s.busy = true ∧ ∀ r : Csr, r.addr ≠ addr.toNat)

/-- The state without the host side of the port and the schedule: the block itself. -/
def block (s : State) : State := { s with wait := 0, latencies := [], hostOps := [], replies := [] }

/-- The state with the host operation at the head of the queue taken and one host step of the latency spent: what the
model's schedule does before an access is served (notes/assumptions/2.md, 3.md). -/
def hostTurn (s : State) : State := { s with wait := s.wait - 1, hostOps := s.hostOps.tail }

/-- The state an access leaves, its answer recorded (notes/assumptions/4.md). -/
def answered (r : State × Reply) : State := { r.1 with replies := r.2 :: r.1.replies }

/-- One pass as a function of the values before it (43_butterfly.md R211, R213, R214): index i belongs to the pair
(p, p + 2^step), whose twiddle index is (p mod 2^step) · (N >> (step + 1)). -/
def onePass (fracBits n : Nat) (inverse : Bool) (step : Nat) (x : Nat → Word × Word) (i : Nat) : Word × Word :=
  let p := if i % (2 * 2 ^ step) < 2 ^ step then i else i - 2 ^ step
  let a := x p
  let b := x (p + 2 ^ step)
  let w := twiddle fracBits n (p % 2 ^ step * (n >>> (step + 1)))
  let wi := if inverse then -w.2 else w.2
  let rr := b.1.toInt * w.1 / 2 ^ fracBits
  let ii := b.2.toInt * wi / 2 ^ fracBits
  let ir := b.2.toInt * w.1 / 2 ^ fracBits
  let ri := b.1.toInt * wi / 2 ^ fracBits
  if i = p then (BitVec.ofInt 32 (a.1.toInt + rr - ii), BitVec.ofInt 32 (a.2.toInt + ir + ri))
  else (BitVec.ofInt 32 (a.1.toInt - rr + ii), BitVec.ofInt 32 (a.2.toInt - ir - ri))

/-- The first `steps` passes, in increasing order of `step` (43_butterfly.md R212, R215). -/
def passesUpTo (fracBits n : Nat) (inverse : Bool) (x : Nat → Word × Word) : Nat → Nat → Word × Word
  | 0 => x
  | steps + 1 => onePass fracBits n inverse steps (passesUpTo fracBits n inverse x steps)

/-- PASSES on the values of a context of length n = 2^steps: all passes, and for the inverse direction one floor shift of
every element by STEPS (43_butterfly.md R212, R214). -/
def transformed (fracBits n steps : Nat) (inverse : Bool) (x : Nat → Word × Word) (i : Nat) : Word × Word :=
  let y := passesUpTo fracBits n inverse x steps i
  if inverse then (BitVec.ofInt 32 (y.1.toInt / 2 ^ steps), BitVec.ofInt 32 (y.2.toInt / 2 ^ steps)) else y

/-- An integer sample scaled in (40_fixed_point.md R141). -/
def scaled (fracBits : Nat) (x : Word) : Word := BitVec.ofInt 32 (x.toInt * 2 ^ fracBits)

/-- The values a 1D load leaves (43_butterfly.md R201, R202). -/
def loaded (s : State) (kind : InputKind) (steps : Nat) (i : Nat) : Word × Word :=
  (scaled s.build.fracBits (s.get .inRe (bitrev i steps)),
    match kind with
    | .real => 0
    | .complex => scaled s.build.fracBits (s.get .inIm (bitrev i steps)))

/-- Whether a direction is Inverse. -/
def inverted (d : Direction) : Bool := decide (d = .inverse)

/-- The transform of row i of the 2D input (45_transform2d.md R271). -/
def rowTransform (s : State) (d : Direction) (i : Nat) : Nat → Word × Word :=
  transformed s.build.fracBits (s.length .row) (s.steps .row) (inverted d) fun k =>
    (scaled s.build.fracBits (s.get .matIn (i * s.length .row + bitrev k (s.steps .row))), 0)

/-- The transform of column i: context C sees at position x the row bitrev(x, STEPS(C)) (45_transform2d.md R272, R273). -/
def colTransform (s : State) (d : Direction) (i : Nat) : Nat → Word × Word :=
  transformed s.build.fracBits (s.length .col) (s.steps .col) (inverted d) fun x =>
    rowTransform s d (bitrev x (s.steps .col)) i

/-- The bytes TRANSFORM2D stores to (10_state.md R62). -/
def Transform2dByte (s : State) (a : Nat) : Prop :=
  Ctx.row.HasByte (s.length .row) a ∨ Ctx.col.HasByte (s.length .col) a ∨
    Buf.trRe.HasByte (s.length .col * s.length .row) a ∨ Buf.trIm.HasByte (s.length .col * s.length .row) a ∨
    Buf.mrRe.HasByte (s.length .col * s.length .row) a ∨ Buf.mrIm.HasByte (s.length .col * s.length .row) a

/-- The bytes PLAN2D_CREATE zeroes (45_transform2d.md R263). -/
def Create2dByte (b : Build) (a : Nat) : Prop :=
  Ctx.row.HasByte b.maxLen a ∨ Ctx.col.HasByte b.maxLen a ∨
    Buf.trRe.HasByte b.matMax a ∨ Buf.trIm.HasByte b.matMax a ∨ Buf.mrRe.HasByte b.matMax a ∨ Buf.mrIm.HasByte b.matMax a

/-- A state whose 2D plan is in order: what TRANSFORM2D executes normally on. -/
def Ready2d (s : State) : Prop :=
  s.build.legal = true ∧ s.v2d = true ∧ (s.plan .row).Sound s.build ∧ (s.plan .col).Sound s.build ∧ s.Sound2d

/-- A state in which context c holds a plan: what the 1D transforms execute normally on. -/
def Ready (s : State) (c : Ctx) : Prop := s.build.legal = true ∧ (s.plan c).valid = true ∧ (s.plan c).Sound s.build

/-- floor(sqrt(a² + b² mod 2^32)) as a result word (44_isqrt.md R242, R246). -/
def rootOfSquares (a b : Int) : Word := BitVec.ofNat 32 (((a * a + b * b) % 2 ^ 32).toNat.sqrt)

/-- The commands that write RES0 and RES1 (10_state.md R43, R44). -/
def WritesResults : Instr → Bool
  | .result _ | .mag _ | .nmag _ | .isqrt | .result2d => true
  | .nop | .planCreate _ | .planDestroy _ | .loadReal _ | .loadCplx _ | .run _ _ | .transform _ _ _ => false
  | .plan2dCreate | .plan2dDestroy | .transform2d _ | .reserved _ => false

/-- The contexts a command may change (10_state.md R62). -/
def contextsOf : Instr → List Ctx
  | .planCreate c | .planDestroy c | .loadReal c | .loadCplx c | .run c _ | .transform c _ _ => [ctxOf c]
  | .plan2dCreate | .plan2dDestroy | .transform2d _ => [.row, .col]
  | .nop | .result _ | .mag _ | .nmag _ | .isqrt | .result2d | .reserved _ => []

end Sys2Proof.Spec

open Sys2Proof Sys2Proof.Machine Sys2Proof.Spec

/-! ## Command words -/

/-- 95_test_vectors.md V-ENC and 30_encoding.md R122: some words written out from the encoding, through the decoder of the
opcode table's numbering. -/
def Obligations.CommandWordsDecode : Prop :=
  decodeTableWord 32 0b000000000000000000000001_0001_0101 = some (.run .p1 .inverse) ∧
  decodeTableWord 32 0b000000000000000000000001_0010_0110 = some (.transform .p1 .forward .complex) ∧
  decodeTableWord 32 0b000000000000000000000000_0001_1101 = some (.transform2d .inverse) ∧
  decodeTableWord 32 0b000000000000000000000001_0000_0111 = some (.result .p1) ∧
  decodeTableWord 32 0x0000000A = some .isqrt ∧ decodeTableWord 32 0x00000000 = some .nop ∧
  decodeTableWord 32 0x0000011D = some (.reserved 0x11D) ∧ decodeTableWord 32 0x00000025 = some (.reserved 0x25) ∧
  decodeTableWord 32 0x80000000 = some (.reserved 0x80000000) ∧ decodeTableWord 32 0x0000000F = some (.reserved 0xF)

/-- 30_encoding.md R122: the table of the 33 legal words, and that there are no others. -/
def Obligations.LegalWordsAreTheTable : Prop :=
  legalWords.length = 33 ∧ (∀ e ∈ legalWords, decodeWord e.1 = e.2) ∧
    ∀ w : Word, legalWord w = true ↔ w ∈ legalWords.map Prod.fst

/-- 30_encoding.md R111, R121: every well-formed command, with every field at every value, is read back from its bytes,
and the bytes after it are left. -/
def Obligations.DecodeOfEncodeIsTheCommand : Prop :=
  ∀ (i : Instr) (rest : List Byte), wellFormed i = true → decode (encode i ++ rest) = .ok (i, rest)

/-- 30_encoding.md R124: every 32-bit word decodes, to one well-formed command whose word it is. -/
def Obligations.EncodeOfDecodeIsTheWord : Prop :=
  ∀ w : Word, wellFormed (decodeWord w) = true ∧ encodeWord (decodeWord w) = w

/-! ## Steps -/

/-- 46_control.md R297: where it is the sequencer's turn, the step is the meaning of the command that L_CMD decodes to. When
that turn comes is the model's schedule (notes/assumptions/2.md). The last clause is about the model's own way of placing a
command, `withFetchWord` as `placeCommand`: an acceptance with no host step before completion, whatever was in flight before
(notes/assumptions/7.md, a DESIGN CHOICE). -/
def Obligations.StepRunsTheCommandInFlight : Prop :=
  (∀ (s : State) (i : Instr), SeqTurn s → decode s.commandBytes = .ok (i, []) → step s = exec i s) ∧
  (∀ (s : State) (i : Instr), SeqTurn s → wellFormed i = true → s.lCmd = encodeWord i → step s = exec i s) ∧
  (∀ (s : State) (i : Instr), wellFormed i = true →
    step (s.withFetchWord 32 (encodeWord i).toNat) = exec i (s.placeCommand (encodeWord i)))

/-- 46_control.md R292: otherwise the step serves the host's next operation, and with none left and no command in flight
the block keeps all state (60_exceptions.md R323). An access at BLOCK_BASE + a is the access at address a of the map
(20_memory.md R83), whatever BLOCK_BASE is; that the sum wraps is the model's choice (notes/assumptions/9.md). Which agent
moves, the queue and the record of answers are the model's (notes/assumptions/2.md, 3.md, 4.md). -/
def Obligations.StepServesTheHost : Prop :=
  (∀ (s : State) (op : HostOp) (rest : List HostOp), ¬SeqTurn s → s.hostOps = op :: rest →
    step s = .next (hostStep op s)) ∧
  (∀ (s : State) (a v : Word) (size : AccessSize),
    hostStep (.write (s.build.blockBase + a) size v) s = answered (hostWrite a size v (hostTurn s)) ∧
    hostStep (.read (s.build.blockBase + a) size) s = answered (hostRead a size (hostTurn s))) ∧
  (∀ s : State, s.busy = false → s.hostOps = [] → step s = .next s)

/-- No step of any state ends in a fault or a refusal (30_encoding.md R124, 60_exceptions.md R300, R312: errors of commands
and of accesses are reported and the block goes on). -/
def Obligations.NoStepStops : Prop := ∀ s : State, Completes (step s)

/-- 46_control.md R297 for all commands: each completes, with BUSY 0 and DONE 1, and none touches the registers that only
the host writes, the latches, LASTCMD, OVR, BERR, IE or the host side of the port. -/
def Obligations.EveryCommandCompletes : Prop :=
  ∀ (i : Instr) (s : State), ∃ t, exec i s = .next t ∧ t.busy = false ∧ t.done = true ∧
    t.build = s.build ∧ t.ie = s.ie ∧ t.ovr = s.ovr ∧ t.berr = s.berr ∧ t.arg0 = s.arg0 ∧ t.arg1 = s.arg1 ∧
    t.lastCmd = s.lastCmd ∧ t.lCmd = s.lCmd ∧ t.lArg0 = s.lArg0 ∧ t.lArg1 = s.lArg1 ∧
    t.wait = s.wait ∧ t.latencies = s.latencies ∧ t.hostOps = s.hostOps ∧ t.replies = s.replies

/-- 60_exceptions.md R302: a command that raises an error makes none of its writes; from before its acceptance on, only
those of acceptance and of completion are made. -/
def Obligations.FailedCommandsHaveNoEffect : Prop :=
  (∀ (i : Instr) (s t : State), exec i s = .next t → t.err ≠ .ok →
    t = { s with busy := false, done := true, err := t.err }) ∧
  (∀ (w : Word) (s t : State), exec (decodeWord w) (s.accept w) = .next t → t.err ≠ .ok →
    block t = block { s with
      lCmd := w, lArg0 := s.arg0, lArg1 := s.arg1, lastCmd := w, busy := false, done := true, err := t.err })

/-- 70_reset_and_hazards.md R354, R341: BUSY falls within one step more than the host steps the schedule puts before the
completion (`wait`, the model's own, notes/assumptions/2.md); and unless a reset input is among those host steps, the step
that clears it completes the command: it is the command in L_CMD, on the operands latched and on the contexts and the data
memories as they were. -/
def Obligations.AcceptedCommandFinishes : Prop :=
  (∀ s : State, s.busy = true →
    ∃ k t, 0 < k ∧ k ≤ s.wait + 1 ∧ Sys2Proof.core.run k s = .next t ∧ t.busy = false) ∧
  (∀ s : State, s.busy = true → (∀ cells, HostOp.reset cells ∉ s.hostOps.take s.wait) →
    ∃ k u t, k ≤ s.wait ∧ Sys2Proof.core.run k s = .next u ∧
      (u.busy = true ∧ u.build = s.build ∧ u.lCmd = s.lCmd ∧ u.lArg0 = s.lArg0 ∧ u.lArg1 = s.lArg1 ∧
        (∀ c, u.plan c = s.plan c) ∧ u.v2d = s.v2d ∧ u.mem = s.mem ∧ u.res0 = s.res0 ∧ u.res1 = s.res1) ∧
      exec (decodeWord s.lCmd) u = .next t ∧ Sys2Proof.core.run (k + 1) s = .next t ∧ t.busy = false ∧ t.done = true)

/-- 46_control.md R295, R297, 20_memory.md R83: a CMD write to an idle block, then SeqStep. The latency is taken as 0, one
legal schedule (46_control.md R298); the queue and the record of answers are the model's (notes/assumptions/2.md, 3.md,
4.md). -/
def Obligations.CommandRunsFromTheBus : Prop :=
  ∀ (s : State) (w : Word) (rest : List HostOp), s.busy = false →
    s.hostOps = .write (s.build.blockBase + 0x010) .word w :: rest → s.latencies.headD 0 = 0 →
    Sys2Proof.core.run 2 s = exec (decodeWord w)
      { s with
        lCmd := w, lArg0 := s.arg0, lArg1 := s.arg1, lastCmd := w, busy := true, done := false, err := .ok,
        wait := 0, latencies := s.latencies.tail, hostOps := rest, replies := .ack :: s.replies }

/-- 46_control.md R298, 70_reset_and_hazards.md R347: a host that writes CMD and then polls BUSY finds the block as the
command leaves it, whatever the latency. The latencies are an input of the model (notes/assumptions/2.md); the queue and its
WAIT entry are the model's host (notes/assumptions/3.md). -/
def Obligations.PollingIsScheduleIndependent : Prop :=
  ∀ (s u : State) (w : Word) (rest : List HostOp), s.busy = false →
    s.hostOps = .write (s.build.blockBase + 0x010) .word w :: .wait :: rest → exec (decodeWord w) (s.accept w) = .next u →
    ∃ k t, Sys2Proof.core.run k s = .next t ∧ t.hostOps = rest ∧ block t = block u

/-! ## The slave port -/

/-- 60_exceptions.md R313 with R312: the causes of a bus error, all with one response and one effect, for writes and reads
alike, and the data lines of the read 0 (20_memory.md R89); every other access is served, and a read that is served changes
nothing and has the word of its place on the data lines (46_control.md R294). -/
def Obligations.BusErrorsHaveThreeCauses : Prop :=
  ∀ (addr v : Word) (size : AccessSize) (s : State), s.build.legal = true →
    (BadAccess addr size s → hostWrite addr size v s = ({ s with berr := true }, .busError) ∧
      hostRead addr size s = ({ s with berr := true }, .busError)) ∧
    (¬BadAccess addr size s → (hostWrite addr size v s).2 = .ack ∧ ∃ x, hostRead addr size s = (s, .data x)) ∧
    (BadAccess addr size s → (hostRead addr size s).2.dataLines = 0) ∧
    (∀ l, Mapped s.build l → l.addr = addr.toNat → ¬BadAccess addr size s →
      hostRead addr size s = (s, .data (s.readLoc l)) ∧ (hostRead addr size s).2.dataLines = s.readLoc l)

/-- 20_memory.md R81: every word of every row is at its address, and every aligned address that names a place is the
address of that place inside its row; so no two places share an address and the rest is unmapped. The bases and the counts
of the windows are the literals of the table, and every place but the registers is in one. -/
def Obligations.AddressMapIsTheTable : Prop :=
  ∀ b : Build, b.legal = true →
    (∀ l : Loc, Mapped b l → locate b l.addr = some l) ∧
    (∀ (a : Nat) (l : Loc), a % 4 = 0 → locate b a = some l → Mapped b l ∧ l.addr = a) ∧
    (∀ e ∈ windowTable b, ∀ i, (e.1 i).addr = e.2.1 + 4 * i ∧ (Mapped b (e.1 i) ↔ i < e.2.2) ∧
      (i < e.2.2 → locate b (e.2.1 + 4 * i) = some (e.1 i))) ∧
    (∀ l : Loc, (∃ r, l = .csr r) ∨ ∃ e ∈ windowTable b, ∃ i, l = e.1 i)

/-- 20_memory.md R82: the registers and their offsets, and nothing else below 0x0010_0000. -/
def Obligations.RegisterOffsetsAreExact : Prop :=
  ∀ b : Build, b.legal = true →
    locate b 0x000 = some (.csr .id) ∧ locate b 0x004 = some (.csr .cfg) ∧ locate b 0x008 = some (.csr .ctrl) ∧
    locate b 0x00C = some (.csr .status) ∧ locate b 0x010 = some (.csr .cmd) ∧ locate b 0x014 = some (.csr .arg0) ∧
    locate b 0x018 = some (.csr .arg1) ∧ locate b 0x01C = some (.csr .res0) ∧ locate b 0x020 = some (.csr .res1) ∧
    locate b 0x024 = some (.csr .lastCmd) ∧ locate b 0x040 = some (.csr (.ctxInfo .p0)) ∧
    locate b 0x044 = some (.csr (.ctxInfo .p1)) ∧ locate b 0x048 = some (.csr (.ctxInfo .row)) ∧
    locate b 0x04C = some (.csr (.ctxInfo .col)) ∧ locate b 0x050 = some (.csr .p2dInfo) ∧
    ∀ a < 0x00100000, a % 4 = 0 → (0x028 ≤ a ∧ a < 0x040) ∨ 0x054 ≤ a → locate b a = none

/-- 46_control.md R294, 10_state.md R31-R47: what each register reads as, as a number; and the numbers of the error codes in
STATUS.ERR (60_exceptions.md R301). -/
def Obligations.RegistersReadAsTheirFields : Prop :=
  ∀ s : State, s.build.legal = true →
    (∀ r : Csr, hostRead (BitVec.ofNat 32 r.addr) .word s = (s, .data (s.readCsr r))) ∧
    s.readCsr .id = 0x4C464654 ∧
    (s.readCsr .cfg).toNat =
      s.build.log2MaxLen + 2 ^ 8 * s.build.fracBits + 2 ^ 16 * s.build.log2MatMax + 2 ^ 24 ∧
    (s.readCsr .ctrl).toNat = s.ie.toNat ∧
    (s.readCsr .status).toNat = s.busy.toNat + 2 * s.done.toNat + 4 * s.ovr.toNat + 8 * s.berr.toNat +
      2 ^ 8 * s.err.number.toNat ∧
    (ErrCode.ok.number = 0 ∧ ErrCode.notPow2.number = 1 ∧ ErrCode.tooLarge.number = 2 ∧ ErrCode.noPlan.number = 3 ∧
      ErrCode.index.number = 4 ∧ ErrCode.illegal.number = 5) ∧
    s.readCsr .cmd = 0 ∧ s.readCsr .arg0 = s.arg0 ∧ s.readCsr .arg1 = s.arg1 ∧ s.readCsr .res0 = s.res0 ∧
    s.readCsr .res1 = s.res1 ∧ s.readCsr .lastCmd = s.lastCmd ∧
    (∀ c, (s.readCsr (.ctxInfo c)).toNat =
      (s.plan c).length.toNat + 2 ^ 16 * (s.plan c).steps.toNat + 2 ^ 31 * (s.plan c).valid.toNat) ∧
    (s.readCsr .p2dInfo).toNat = s.v2d.toNat

/-- 46_control.md R295: Accept. `wait` and `latencies` are the model's schedule (notes/assumptions/2.md). -/
def Obligations.CmdWriteAccepts : Prop :=
  ∀ (w : Word) (s : State), s.busy = false →
    hostWrite 0x010 .word w s =
      ({ s with
          lCmd := w, lArg0 := s.arg0, lArg1 := s.arg1, lastCmd := w, busy := true, done := false, err := .ok,
          wait := s.latencies.headD 0, latencies := s.latencies.tail }, .ack)

/-- 46_control.md R296: a CMD write while BUSY changes nothing but OVR and is no bus error. -/
def Obligations.CmdWriteWhileBusyOverruns : Prop :=
  ∀ (w : Word) (s : State), s.busy = true → hostWrite 0x010 .word w s = ({ s with ovr := true }, .ack)

/-- 46_control.md R293: the writes of CTRL, STATUS, ARG0 and ARG1, busy or not. -/
def Obligations.RegisterWrites : Prop :=
  ∀ (v : Word) (s : State),
    hostWrite 0x008 .word v s = ({ s with ie := v.getLsbD 0 }, .ack) ∧
    hostWrite 0x00C .word v s =
      ({ s with
          done := s.done && !v.getLsbD 1, ovr := s.ovr && !v.getLsbD 2, berr := s.berr && !v.getLsbD 3 }, .ack) ∧
    hostWrite 0x014 .word v s = ({ s with arg0 := v }, .ack) ∧
    hostWrite 0x018 .word v s = ({ s with arg1 := v }, .ack)

/-- 20_memory.md R91: writes to the read-only registers and to the table windows are ignored without a bus error, and CMD
reads 0. -/
def Obligations.ReadOnlyWritesAreIgnored : Prop :=
  ∀ (v : Word) (s : State), s.build.legal = true →
    (∀ r : Csr, (r = .id ∨ r = .cfg ∨ r = .res0 ∨ r = .res1 ∨ r = .lastCmd ∨ (∃ c, r = .ctxInfo c) ∨ r = .p2dInfo) →
      hostWrite (BitVec.ofNat 32 r.addr) .word v s = (s, .ack)) ∧
    (∀ l : Loc, s.busy = false → Mapped s.build l →
      ((∃ c i, l = .brt c i) ∨ (∃ c i, l = .twr c i) ∨ ∃ c i, l = .twi c i) →
      hostWrite (BitVec.ofNat 32 l.addr) .word v s = (s, .ack)) ∧
    hostRead 0x010 .word s = (s, .data 0)

/-- 20_memory.md R92, R93, R96, R97: a window word reads as the data memory holds it, whatever the plan; one written is read
back, every other word of every data memory stays, and
nothing but the data memories changes. -/
def Obligations.WindowReadsWhatWasWritten : Prop :=
  ∀ (b : Buf) (i : Nat) (v : Word) (s : State), s.build.legal = true → s.busy = false → i < b.count s.build →
    hostRead (BitVec.ofNat 32 (b.addr i)) .word s = (s, .data (s.get b i)) ∧
    ∃ m', hostWrite (BitVec.ofNat 32 (b.addr i)) .word v s = ({ s with mem := m' }, .ack) ∧
      hostRead (BitVec.ofNat 32 (b.addr i)) .word { s with mem := m' } = ({ s with mem := m' }, .data v) ∧
      (∀ (b' : Buf) (j : Nat), j < b'.count s.build → ¬(b' = b ∧ j = i) → m'.get b' j = s.get b' j) ∧
      ∀ a, (a < b.addr i ∨ b.addr i + 4 ≤ a) → m'.read8 a = s.mem.read8 a

/-- 20_memory.md R84: bits [8k+7:8k] of the word at address a are the byte at a + k. -/
def Obligations.WordsAreLittleEndian : Prop :=
  ∀ (m : Memory) (a : Nat) (v : Word) (k : Nat), k < 4 →
    (m.read32 a).extractLsb' (8 * k) 8 = m.read8 (a + k) ∧
    (m.write32 a v).read8 (a + k) = v.extractLsb' (8 * k) 8

/-- 20_memory.md R94, R95: what the table windows read as. -/
def Obligations.TableWindowsRead : Prop :=
  ∀ (c : Ctx) (i : Nat) (s : State), s.build.legal = true → s.busy = false →
    (i < s.build.maxLen → hostRead (BitVec.ofNat 32 (Loc.brt c i).addr) .word s =
      (s, .data (if (s.plan c).valid = true ∧ i < s.length c then zext16 (bitrev i (s.steps c)) else 0))) ∧
    (i < s.build.maxLen / 2 → hostRead (BitVec.ofNat 32 (Loc.twr c i).addr) .word s =
      (s, .data (if (s.plan c).valid = true ∧ i < s.length c / 2 then
        BitVec.ofInt 32 (twiddle s.build.fracBits (s.length c) i).1 else 0))) ∧
    (i < s.build.maxLen / 2 → hostRead (BitVec.ofNat 32 (Loc.twi c i).addr) .word s =
      (s, .data (if (s.plan c).valid = true ∧ i < s.length c / 2 then
        BitVec.ofInt 32 (twiddle s.build.fracBits (s.length c) i).2 else 0)))

/-- 60_exceptions.md R314: the interrupt output is up after every completion with IE = 1, with an error or without, falls
at the next acceptance and at a DONE clear, and no bus error moves it (R312). -/
def Obligations.InterruptFollowsCompletion : Prop :=
  (∀ s : State, s.irq = (s.ie && s.done)) ∧
  (∀ (i : Instr) (s t : State), exec i s = .next t → t.irq = s.ie) ∧
  (∀ (w : Word) (s : State), s.busy = false → (hostWrite 0x010 .word w s).1.irq = false) ∧
  (∀ (v : Word) (s : State), v.getLsbD 1 = true → (hostWrite 0x00C .word v s).1.irq = false) ∧
  (∀ (v : Word) (s : State), (hostWrite 0x008 .word v s).1.irq = (v.getLsbD 0 && s.done)) ∧
  (∀ (addr v : Word) (size : AccessSize) (s : State), (hostWrite addr size v s).2 = .busError →
    (hostWrite addr size v s).1.irq = s.irq) ∧
  (∀ (addr : Word) (size : AccessSize) (s : State), (hostRead addr size s).2 = .busError →
    (hostRead addr size s).1.irq = s.irq)

/-! ## Reset -/

/-- 70_reset_and_hazards.md R340: the state after reset of any build and any contents of the data memories. -/
def Obligations.ResetState : Prop :=
  (∀ (b : Build) (m : Memory) (r : Csr), (State.afterReset b m).readCsr r =
    if r = .id then 0x4C464654 else if r = .cfg then cfgWord b else 0) ∧
  cfgWord Build.default = 0x0110080F ∧
  (∀ (b : Build) (m : Memory), (State.afterReset b m).lCmd = 0 ∧ (State.afterReset b m).lArg0 = 0 ∧
    (State.afterReset b m).lArg1 = 0 ∧ (State.afterReset b m).irq = false ∧
    (∀ c, ((State.afterReset b m).plan c).valid = false) ∧ (State.afterReset b m).mem = m) ∧
  State.reset = State.afterReset Build.default []

/-- 70_reset_and_hazards.md R342: which commands need a plan after reset. -/
def Obligations.CommandsRightAfterReset : Prop :=
  ∀ (b : Build) (m : Memory) (i : Instr) (t : State),
    exec i ((State.afterReset b m).placeCommand (encodeWord i)) = .next t →
    ((∃ c, i = .planDestroy c) ∨ (∃ c, i = .loadReal c) ∨ (∃ c, i = .loadCplx c) ∨ (∃ c d, i = .run c d) ∨
      (∃ c d k, i = .transform c d k) ∨ (∃ c, i = .result c) ∨ (∃ c, i = .mag c) ∨ (∃ c, i = .nmag c) ∨
      i = .plan2dDestroy ∨ (∃ d, i = .transform2d d) ∨ i = .result2d → t.err = .noPlan) ∧
    (i = .isqrt ∨ i = .nop → t.err = .ok)

/-- 70_reset_and_hazards.md R341, R340: the reset input abandons a command in flight; what the data memories then hold is
an input of the model (notes/assumptions/8.md). -/
def Obligations.ResetInputAbandonsTheCommand : Prop :=
  ∀ (cells : List Host.Cell) (s : State), ∃ m',
    hostStep (.reset cells) s =
      { State.afterReset s.build m' with
        latencies := s.latencies, hostOps := s.hostOps.tail, replies := s.replies } ∧
    m'.wf = true ∧ ∀ c ∈ m', isDataByte s.build c.1 = true

/-! ## The invariant -/

/-- The state after reset is sound. -/
def Obligations.ResetIsSound : Prop :=
  State.reset.Sound ∧
    ∀ (b : Build) (m : Memory), b.legal = true → m.wf = true → (∀ c ∈ m, isDataByte b c.1 = true) →
      (State.afterReset b m).Sound

/-- 10_state.md R51, R57, R36, R39, 20_memory.md R105: every step keeps every context and the 2D plan sound, the memory
canonical and inside the data memories, DONE and ERR clear while a command is in flight, and LASTCMD the word in L_CMD. -/
def Obligations.EveryStepKeepsSoundness : Prop := ∀ s t : State, s.Sound → step s = .next t → t.Sound

/-! ## Command errors -/

/-- 30_encoding.md R123, 60_exceptions.md R307: a word that is not one of the 33 completes with ILLEGAL and changes nothing
else, whatever the plans are; and so the reserved row's command does. -/
def Obligations.IllegalWordsComplete : Prop :=
  (∀ s : State, SeqTurn s → s.lCmd ∉ legalWords.map Prod.fst →
    step s = .next { s with busy := false, done := true, err := .illegal }) ∧
  (∀ (w : Word) (s : State), exec (.reserved w) s = .next { s with busy := false, done := true, err := .illegal })

/-- 60_exceptions.md R305: NO_PLAN, before any other check of the command. -/
def Obligations.NoPlanErrors : Prop :=
  (∀ (c : HostCtx) (d : Direction) (k : InputKind) (s : State), (s.plan (ctxOf c)).valid = false →
    ∀ i ∈ [Instr.planDestroy c, .loadReal c, .loadCplx c, .run c d, .transform c d k, .result c, .mag c, .nmag c],
      exec i s = .next { s with busy := false, done := true, err := .noPlan }) ∧
  (∀ (d : Direction) (s : State), s.v2d = false → ∀ i ∈ [Instr.plan2dDestroy, .transform2d d, .result2d],
    exec i s = .next { s with busy := false, done := true, err := .noPlan })

/-- 60_exceptions.md R306: INDEX, on the full 32 bits of the operands. -/
def Obligations.IndexErrors : Prop :=
  (∀ (c : HostCtx) (s : State), (s.plan (ctxOf c)).valid = true → s.lArg0.toNat ≥ (s.plan (ctxOf c)).length.toNat →
    ∀ i ∈ [Instr.result c, .mag c, .nmag c],
      exec i s = .next { s with busy := false, done := true, err := .index }) ∧
  (∀ s : State, s.v2d = true →
    s.lArg0.toNat ≥ s.planC.length.toNat ∨ s.lArg1.toNat ≥ s.planR.length.toNat →
      exec .result2d s = .next { s with busy := false, done := true, err := .index })

/-- 60_exceptions.md R303: NOT_POW2, on the low 16 bits of the operands. -/
def Obligations.NotPow2Errors : Prop :=
  (∀ (c : HostCtx) (s : State), (∀ k, s.lArg0.toNat % 2 ^ 16 ≠ 2 ^ k) →
    exec (.planCreate c) s = .next { s with busy := false, done := true, err := .notPow2 }) ∧
  (∀ s : State, (∀ k, s.lArg1.toNat % 2 ^ 16 ≠ 2 ^ k) ∨ (∀ k, s.lArg0.toNat % 2 ^ 16 ≠ 2 ^ k) →
    exec .plan2dCreate s = .next { s with busy := false, done := true, err := .notPow2 })

/-- 60_exceptions.md R304: TOO_LARGE, for a power of two above MAXLEN or a matrix above MATMAX; never for PLAN_CREATE in
the default build. -/
def Obligations.TooLargeErrors : Prop :=
  (∀ (c : HostCtx) (k : Nat) (s : State), s.lArg0.toNat % 2 ^ 16 = 2 ^ k → 2 ^ k > s.build.maxLen →
    exec (.planCreate c) s = .next { s with busy := false, done := true, err := .tooLarge }) ∧
  (∀ (j k : Nat) (s : State), s.lArg0.toNat % 2 ^ 16 = 2 ^ j → s.lArg1.toNat % 2 ^ 16 = 2 ^ k →
    2 ^ j > s.build.maxLen ∨ 2 ^ k > s.build.maxLen ∨ 2 ^ j * 2 ^ k > s.build.matMax →
    exec .plan2dCreate s = .next { s with busy := false, done := true, err := .tooLarge }) ∧
  (∀ (c : HostCtx) (s t : State), s.build = Build.default → exec (.planCreate c) s = .next t → t.err ≠ .tooLarge)

/-! ## What each command does -/

/-- 46_control.md R290: NOP. -/
def Obligations.NopOnlyCompletes : Prop :=
  ∀ s : State, exec .nop s = .next { s with busy := false, done := true, err := .ok }

/-- 41_plan.md R161: PLAN_CREATE of a length 2^k up to MAXLEN: the context's fields, its buffers zeroed over MAXLEN
elements, every other byte and every other field as before. -/
def Obligations.PlanCreateMakesAPlan : Prop :=
  ∀ (c : HostCtx) (k : Nat) (s : State), s.build.legal = true → s.lArg0.toNat % 2 ^ 16 = 2 ^ k →
    2 ^ k ≤ s.build.maxLen →
    ∃ m', exec (.planCreate c) s =
        .next { s.setPlan (ctxOf c) { valid := true, length := BitVec.ofNat 16 (2 ^ k), steps := BitVec.ofNat 4 k } with
          mem := m', busy := false, done := true, err := .ok } ∧
      (∀ i < s.build.maxLen, m'.pair (ctxOf c) i = (0, 0)) ∧
      ∀ a, ¬(ctxOf c).HasByte s.build.maxLen a → m'.read8 a = s.mem.read8 a

/-- 41_plan.md R168, R169: PLAN_DESTROY clears the context's fields and keeps its buffers. -/
def Obligations.PlanDestroyClearsThePlan : Prop :=
  ∀ (c : HostCtx) (s : State),
    ((s.plan (ctxOf c)).valid = true → exec (.planDestroy c) s =
      .next { s.setPlan (ctxOf c) { valid := false, length := 0, steps := 0 } with
        busy := false, done := true, err := .ok }) ∧
    ((s.plan (ctxOf c)).valid = false → exec (.planDestroy c) s =
      .next { s with busy := false, done := true, err := .noPlan })

/-- 43_butterfly.md R201, R202: the loads gather the scaled-in samples in bit-reversed order; every byte outside the
context's first LENGTH elements and every field but the completion ones is as before. -/
def Obligations.LoadsGatherBitReversed : Prop :=
  ∀ (c : HostCtx) (s : State), Ready s (ctxOf c) →
    ∀ e ∈ [(Instr.loadReal c, InputKind.real), (.loadCplx c, .complex)],
      ∃ m', exec e.1 s = .next { s with mem := m', busy := false, done := true, err := .ok } ∧
        (∀ i < s.length (ctxOf c), m'.pair (ctxOf c) i = loaded s e.2 (s.steps (ctxOf c)) i) ∧
        ∀ a, ¬(ctxOf c).HasByte (s.length (ctxOf c)) a → m'.read8 a = s.mem.read8 a

/-- 43_butterfly.md R210-R215: RUN leaves at each element what the passes, as functions of the values before each, give;
every byte outside the context's first LENGTH elements and every field but the completion ones is as before. -/
def Obligations.RunComputesThePasses : Prop :=
  ∀ (c : HostCtx) (d : Direction) (s : State), Ready s (ctxOf c) →
    ∃ m', exec (.run c d) s = .next { s with mem := m', busy := false, done := true, err := .ok } ∧
      (∀ i < s.length (ctxOf c), m'.pair (ctxOf c) i =
        transformed s.build.fracBits (s.length (ctxOf c)) (s.steps (ctxOf c)) (inverted d) (s.mem.pair (ctxOf c)) i) ∧
      ∀ a, ¬(ctxOf c).HasByte (s.length (ctxOf c)) a → m'.read8 a = s.mem.read8 a

/-- 43_butterfly.md R216: TRANSFORM leaves the passes of the loaded samples; the inputs and every other byte stay. -/
def Obligations.TransformComputesThePassesOfTheSamples : Prop :=
  ∀ (c : HostCtx) (d : Direction) (k : InputKind) (s : State), Ready s (ctxOf c) →
    ∃ m', exec (.transform c d k) s = .next { s with mem := m', busy := false, done := true, err := .ok } ∧
      (∀ i < s.length (ctxOf c), m'.pair (ctxOf c) i =
        transformed s.build.fracBits (s.length (ctxOf c)) (s.steps (ctxOf c)) (inverted d)
          (loaded s k (s.steps (ctxOf c))) i) ∧
      ∀ a, ¬(ctxOf c).HasByte (s.length (ctxOf c)) a → m'.read8 a = s.mem.read8 a

/-- 43_butterfly.md R216, corner cases: TRANSFORM equals the load of its kind followed by RUN in its direction. -/
def Obligations.TransformIsLoadThenRun : Prop :=
  ∀ (c : HostCtx) (d : Direction) (s t : State),
    (exec (.loadReal c) s = .next t → exec (.run c d) t = exec (.transform c d .real) s) ∧
    (exec (.loadCplx c) s = .next t → exec (.run c d) t = exec (.transform c d .complex) s)

/-- 43_butterfly.md R218: a plan of length 1 stores the scaled sample, in both directions. -/
def Obligations.LengthOneTransformStoresTheSample : Prop :=
  ∀ (c : HostCtx) (d : Direction) (k : InputKind) (s : State), Ready s (ctxOf c) → s.length (ctxOf c) = 1 →
    ∃ m', exec (.transform c d k) s = .next { s with mem := m', busy := false, done := true, err := .ok } ∧
      m'.pair (ctxOf c) 0 = loaded s k 0 0 ∧
      ∀ a, ¬(ctxOf c).HasByte 1 a → m'.read8 a = s.mem.read8 a

/-- 40_fixed_point.md R145: RESULT. -/
def Obligations.ResultScalesOut : Prop :=
  ∀ (c : HostCtx) (s : State), (s.plan (ctxOf c)).valid = true →
    s.lArg0.toNat < (s.plan (ctxOf c)).length.toNat →
    exec (.result c) s = .next { s with
      res0 := BitVec.ofInt 32 ((s.get (.re (ctxOf c)) s.lArg0.toNat).toInt / 2 ^ s.build.fracBits)
      res1 := BitVec.ofInt 32 ((s.get (.im (ctxOf c)) s.lArg0.toNat).toInt / 2 ^ s.build.fracBits)
      busy := false, done := true, err := .ok }

/-- 44_isqrt.md R244-R246: MAG and NMAG, the root as the true floor of the square root. -/
def Obligations.MagnitudesAreRootsOfSquares : Prop :=
  ∀ (c : HostCtx) (s : State), (s.plan (ctxOf c)).valid = true →
    s.lArg0.toNat < (s.plan (ctxOf c)).length.toNat →
    ∀ e ∈ [(Instr.mag c, s.build.fracBits), (.nmag c, (s.plan (ctxOf c)).steps.toNat + s.build.fracBits)],
      exec e.1 s = .next { s with
        res0 := rootOfSquares ((s.get (.re (ctxOf c)) s.lArg0.toNat).toInt / 2 ^ e.2)
          ((s.get (.im (ctxOf c)) s.lArg0.toNat).toInt / 2 ^ e.2)
        res1 := 0, busy := false, done := true, err := .ok }

/-- 44_isqrt.md R242: the sixteen iterations give floor(sqrt(x)) on the whole 32-bit domain. -/
def Obligations.IterationsGiveTheFloorOfTheRoot : Prop := ∀ x < 2 ^ 32, isqrt x = x.sqrt

/-- 44_isqrt.md R243: ISQRT. -/
def Obligations.IsqrtCommandGivesTheRoot : Prop :=
  ∀ s : State, exec .isqrt s = .next { s with
    res0 := BitVec.ofNat 32 s.lArg0.toNat.sqrt, res1 := 0, busy := false, done := true, err := .ok }

/-- 10_state.md R43, R44: RES0 and RES1 change only by the successful result commands. -/
def Obligations.OnlyResultCommandsWriteResults : Prop :=
  ∀ (i : Instr) (s t : State), exec i s = .next t → WritesResults i = false ∨ t.err ≠ .ok →
    t.res0 = s.res0 ∧ t.res1 = s.res1

/-- 45_transform2d.md R261, R263: PLAN2D_CREATE of 2^j rows and 2^k columns within the capacity: both private plans, V2D,
every word of their buffers and of the four matrices zero, every other byte and field as before. -/
def Obligations.Plan2dCreateMakesAPlan : Prop :=
  ∀ (j k : Nat) (s : State), s.build.legal = true → s.lArg0.toNat % 2 ^ 16 = 2 ^ j → s.lArg1.toNat % 2 ^ 16 = 2 ^ k →
    2 ^ j ≤ s.build.maxLen → 2 ^ k ≤ s.build.maxLen → 2 ^ j * 2 ^ k ≤ s.build.matMax →
    ∃ m', exec .plan2dCreate s = .next { s with
        planR := { valid := true, length := BitVec.ofNat 16 (2 ^ k), steps := BitVec.ofNat 4 k }
        planC := { valid := true, length := BitVec.ofNat 16 (2 ^ j), steps := BitVec.ofNat 4 j }
        v2d := true, mem := m', busy := false, done := true, err := .ok } ∧
      (∀ c ∈ [Ctx.row, Ctx.col], ∀ i < s.build.maxLen, m'.pair c i = (0, 0)) ∧
      (∀ b ∈ [Buf.trRe, .trIm, .mrRe, .mrIm], ∀ i < s.build.matMax, m'.get b i = 0) ∧
      ∀ a, ¬Create2dByte s.build a → m'.read8 a = s.mem.read8 a

/-- 45_transform2d.md R264: PLAN2D_DESTROY clears V2D and both private plans and keeps every word. -/
def Obligations.Plan2dDestroyClearsThePlan : Prop :=
  ∀ s : State,
    (s.v2d = true → exec .plan2dDestroy s = .next { s with
      planR := { valid := false, length := 0, steps := 0 }, planC := { valid := false, length := 0, steps := 0 }
      v2d := false, busy := false, done := true, err := .ok }) ∧
    (s.v2d = false → exec .plan2dDestroy s = .next { s with busy := false, done := true, err := .noPlan })

/-- 45_transform2d.md R270-R274: TRANSFORM2D leaves in MR the column transforms of the row transforms, in TR the permuted
transpose of the row transforms, in R and C the last row and column (R275), and every other byte and field as before. -/
def Obligations.Transform2dIsRowsThenColumns : Prop :=
  ∀ (d : Direction) (s : State), Ready2d s →
    ∃ m', exec (.transform2d d) s = .next { s with mem := m', busy := false, done := true, err := .ok } ∧
      (∀ j < s.length .col, ∀ i < s.length .row,
        (m'.get .mrRe (j * s.length .row + i), m'.get .mrIm (j * s.length .row + i)) = colTransform s d i j) ∧
      (∀ i < s.length .col, ∀ j < s.length .row,
        (m'.get .trRe (j * s.length .col + bitrev i (s.steps .col)),
          m'.get .trIm (j * s.length .col + bitrev i (s.steps .col))) = rowTransform s d i j) ∧
      (∀ j < s.length .row, m'.pair .row j = rowTransform s d (s.length .col - 1) j) ∧
      (∀ j < s.length .col, m'.pair .col j = colTransform s d (s.length .row - 1) j) ∧
      ∀ a, ¬Transform2dByte s a → m'.read8 a = s.mem.read8 a

/-- 45_transform2d.md R270, corner cases: the result depends only on MAT_IN and the plan, not on earlier TR, MR, R or C
contents. -/
def Obligations.Transform2dDependsOnlyOnItsInput : Prop :=
  ∀ (d : Direction) (s t s' t' : State), Ready2d s → Ready2d t → s.build = t.build → s.planR = t.planR →
    s.planC = t.planC → (∀ i < s.length .col * s.length .row, s.get .matIn i = t.get .matIn i) →
    exec (.transform2d d) s = .next s' → exec (.transform2d d) t = .next t' →
    (∀ b ∈ [Buf.trRe, .trIm, .mrRe, .mrIm], ∀ i < s.length .col * s.length .row, s'.get b i = t'.get b i) ∧
    (∀ i < s.length .row, s'.mem.pair .row i = t'.mem.pair .row i) ∧
    (∀ i < s.length .col, s'.mem.pair .col i = t'.mem.pair .col i)

/-- 45_transform2d.md R277: RESULT2D. -/
def Obligations.Result2dScalesOut : Prop :=
  ∀ s : State, s.v2d = true → s.lArg0.toNat < s.planC.length.toNat → s.lArg1.toNat < s.planR.length.toNat →
    exec .result2d s = .next { s with
      res0 := BitVec.ofInt 32
        ((s.get .mrRe (s.lArg0.toNat * s.planR.length.toNat + s.lArg1.toNat)).toInt / 2 ^ s.build.fracBits)
      res1 := BitVec.ofInt 32
        ((s.get .mrIm (s.lArg0.toNat * s.planR.length.toNat + s.lArg1.toNat)).toInt / 2 ^ s.build.fracBits)
      busy := false, done := true, err := .ok }

/-- 10_state.md R62: a command changes no context but its own, neither the fields nor the buffers; only the 2D commands
change V2D. -/
def Obligations.OtherContextsAreUntouched : Prop :=
  ∀ (i : Instr) (s t : State), s.Sound → exec i s = .next t →
    (∀ c, c ∉ contextsOf i → t.plan c = s.plan c ∧
      ∀ a, c.HasByte s.build.maxLen a → t.mem.read8 a = s.mem.read8 a) ∧
    (i ≠ .plan2dCreate → i ≠ .plan2dDestroy → t.v2d = s.v2d)

/-- 10_state.md R53, R54: only the host writes IN_RE, IN_IM and MAT_IN. -/
def Obligations.CommandsOnlyReadTheirInputs : Prop :=
  ∀ (i : Instr) (s t : State), s.Sound → exec i s = .next t →
    ∀ b ∈ [Buf.inRe, .inIm, .matIn], ∀ a, b.HasByte (b.count s.build) a → t.mem.read8 a = s.mem.read8 a

/-! ## The units -/

/-- 41_plan.md R170, R171: bit t of bitrev(i, b) is bit b - 1 - t of i, nothing above; so it is a permutation of [0, 2^b)
and its own inverse. -/
def Obligations.BitReversalReversesBits : Prop :=
  (∀ i b t, (bitrev i b).testBit t = (decide (t < b) && i.testBit (b - 1 - t))) ∧
  (∀ i b, bitrev i b < 2 ^ b) ∧ (∀ b, ∀ i < 2 ^ b, bitrev (bitrev i b) b = i) ∧
  (List.range 8).map (bitrev · 3) = [0, 4, 2, 6, 1, 5, 3, 7]

/-- 41_plan.md R160: isPow2 on 16-bit integers. -/
def Obligations.IsPow2OnLengths : Prop :=
  ∀ x < 2 ^ 16, isPow2 x = true ↔ ∃ k ≤ 15, x = 2 ^ k

/-- 40_fixed_point.md R143: the range of scale-out, and that it undoes scale-in on the samples scale-in keeps. -/
def Obligations.ScaleOutUndoesScaleIn : Prop :=
  ∀ (f : Nat) (x : Word), 1 ≤ f → f ≤ 16 →
    (scaleOut f x = Int.floor ((x.toInt : ℚ) / 2 ^ f) ∧ -2 ^ (31 - f) ≤ scaleOut f x ∧ scaleOut f x ≤ 2 ^ (31 - f) - 1) ∧
    (-2 ^ (31 - f) ≤ x.toInt → x.toInt < 2 ^ (31 - f) → scaleOut f (scaleIn f x) = x.toInt)

/-- 40_fixed_point.md R144: the multiply-shift floors the exact product, and stays within 2^31. -/
def Obligations.MulShiftFloorsTheExactProduct : Prop :=
  (∀ (f : Nat) (b : Word) (w : Int), 1 ≤ f → f ≤ 16 → |w| ≤ 2 ^ f →
    |b.toInt * w| ≤ 2 ^ 47 ∧ mulShift f b.toInt w * 2 ^ f ≤ b.toInt * w ∧
      b.toInt * w < (mulShift f b.toInt w + 1) * 2 ^ f ∧ |mulShift f b.toInt w| ≤ 2 ^ 31) ∧
  mulShift 8 (-1) 181 = -1 ∧ mulShift 8 1 181 = 0

/-- 42_twiddle_rom.md R190, R192, R194 for F = 8: 8193 entries, non-increasing from 256 to 0, the spot values, and every
entry the rounded cosine of R190's formula (41_plan.md R176: no entry lies halfway). The run-length form in which the model
holds them is its own (notes/assumptions/6.md). -/
def Obligations.RomFallsFromOneToZero : Prop :=
  romRuns.sum = 8193 ∧ (∀ m < 8192, romEntry 8 (m + 1) ≤ romEntry 8 m) ∧
  (∀ m ≤ 8192, 0 ≤ romEntry 8 m ∧ romEntry 8 m ≤ 256) ∧
  romEntry 8 0 = 256 ∧ romEntry 8 1024 = 251 ∧ romEntry 8 2048 = 237 ∧ romEntry 8 4096 = 181 ∧
  romEntry 8 4658 = 160 ∧ romEntry 8 6144 = 98 ∧ romEntry 8 8191 = 0 ∧ romEntry 8 8192 = 0 ∧
  ∀ m ≤ 8192, romEntry 8 m = round (Real.cos (2 * Real.pi * m / 32768) * 2 ^ 8)

/-- 41_plan.md R172, R174, R175. For every length and every legal F: the first twiddle, the quarter turn, the symmetry of
the second half, and every component within one half and 2^-40 of the cosine or the negated sine that it rounds; for F = 8
every twiddle is the rounded pair of R172 itself. The entries for F other than 8 are computed, and the distance 2^-40 is the
model's (notes/assumptions/5.md). -/
def Obligations.TwiddlesAreSymmetric : Prop :=
  (∀ f e : Nat, 1 ≤ f → f ≤ 16 → 1 ≤ e → e ≤ 15 →
    twiddle f (2 ^ e) 0 = (2 ^ f, 0) ∧ (2 ≤ e → twiddle f (2 ^ e) (2 ^ e / 4) = (0, -2 ^ f)) ∧
    ∀ k, 0 < k → k < 2 ^ e / 2 → twiddle f (2 ^ e) (2 ^ e / 2 - k) =
      (-(twiddle f (2 ^ e) k).1, (twiddle f (2 ^ e) k).2)) ∧
  (∀ e k : Nat, 1 ≤ e → e ≤ 15 → k < 2 ^ e / 2 → twiddle 8 (2 ^ e) k =
    (round (Real.cos (2 * Real.pi * k / 2 ^ e) * 2 ^ 8), round (-Real.sin (2 * Real.pi * k / 2 ^ e) * 2 ^ 8))) ∧
  (∀ f e k : Nat, 1 ≤ f → f ≤ 16 → 1 ≤ e → e ≤ 15 → k < 2 ^ e / 2 →
    |((twiddle f (2 ^ e) k).1 : ℝ) - Real.cos (2 * Real.pi * k / 2 ^ e) * 2 ^ f| ≤ 1 / 2 + 1 / 2 ^ 40 ∧
    |((twiddle f (2 ^ e) k).2 : ℝ) - -Real.sin (2 * Real.pi * k / 2 ^ e) * 2 ^ f| ≤ 1 / 2 + 1 / 2 ^ 40)
end

