-- ==== Sys2Proof/Laws/Memory.lean ====
section
/-! SUPPORT. The laws of memory: every operation keeps the canonical form, and what a byte or word reads as after each. -/

namespace Sys2Proof.Machine

open Sys2Proof

/-! ## Bytes -/

@[simp] theorem Memory.read8_nil (a : Nat) : Memory.read8 [] a = Memory.unlisted a := rfl

theorem Memory.read8_cons (c : Host.Cell) (m : Memory) (a : Nat) :
    Memory.read8 (c :: m) a = if c.1 = a then c.2 else Memory.read8 m a := rfl

theorem Memory.read8_insertByte (m : Memory) (a : Nat) (v : Byte) (b : Nat) :
    (m.insertByte a v).read8 b = if a = b then v else m.read8 b := by
  induction m with
  | nil => simp [Memory.insertByte, Memory.read8_cons]
  | cons c m ih =>
    obtain ⟨d, w⟩ := c
    simp only [Memory.insertByte]
    split_ifs with h1 h2 <;> simp only [Memory.read8_cons, ih] <;> split_ifs <;> simp_all

theorem Memory.read8_filter (m : Memory) (keep : Nat → Bool) (b : Nat) :
    Memory.read8 (m.filter (fun cell => keep cell.1)) b = if keep b then m.read8 b else Memory.unlisted b := by
  induction m with
  | nil => simp
  | cons c m ih =>
    obtain ⟨d, w⟩ := c
    by_cases hk : keep d = true
    · rw [List.filter_cons_of_pos (by simpa using hk), Memory.read8_cons, Memory.read8_cons, ih]
      by_cases hd : d = b
      · subst hd; simp [hk]
      · simp [hd]
    · rw [List.filter_cons_of_neg (by simpa using hk), ih, Memory.read8_cons]
      by_cases hd : d = b
      · subst hd; simp [hk]
      · simp [hd]

/-- Read after write of one byte. -/
theorem Memory.read8_write8 (m : Memory) (a : Nat) (v : Byte) (b : Nat) :
    (m.write8 a v).read8 b = if a = b then v else m.read8 b := by
  unfold Memory.write8
  by_cases hv : v = Memory.unlisted a
  · rw [if_pos hv, Memory.read8_filter m (fun x => x != a)]
    by_cases hb : a = b
    · subst hb; simp [hv]
    · simp [hb, Ne.symm hb]
  · rw [if_neg hv, Memory.read8_insertByte]

/-- What a zeroed range reads as. -/
theorem Memory.read8_zeroRange (m : Memory) (lo hi b : Nat) :
    (m.zeroRange lo hi).read8 b = if lo ≤ b ∧ b < hi then 0 else m.read8 b := by
  unfold Memory.zeroRange
  rw [Memory.read8_filter m (fun x => !(decide (lo ≤ x) && decide (x < hi)))]
  by_cases h : lo ≤ b ∧ b < hi
  · simp [h.1, h.2, Memory.unlisted]
  · rcases not_and_or.mp h with h | h <;> simp [h]

/-! ## The canonical form -/

theorem Memory.wf_cons (a : Nat) (v : Byte) (m : Memory) :
    Memory.wf ((a, v) :: m) = true ↔ v ≠ Memory.unlisted a ∧ (∀ c ∈ m, a < c.1) ∧ m.wf = true := by
  simp [Memory.wf, and_assoc]

theorem Memory.wf_filter (m : Memory) (keep : Host.Cell → Bool) (h : m.wf = true) :
    Memory.wf (m.filter keep) = true := by
  induction m with
  | nil => rfl
  | cons c m ih =>
    obtain ⟨a, v⟩ := c
    obtain ⟨h1, h2, h3⟩ := (Memory.wf_cons a v m).mp h
    by_cases hk : keep (a, v) = true
    · rw [List.filter_cons_of_pos hk]
      exact (Memory.wf_cons _ _ _).mpr ⟨h1, fun c hc => h2 c (List.mem_of_mem_filter hc), ih h3⟩
    · rw [List.filter_cons_of_neg hk]
      exact ih h3

theorem Memory.mem_insertByte (m : Memory) (a : Nat) (v : Byte) (c : Host.Cell) (h : c ∈ m.insertByte a v) :
    c = (a, v) ∨ c ∈ m := by
  induction m with
  | nil => simpa [Memory.insertByte] using h
  | cons d m ih =>
    obtain ⟨b, w⟩ := d
    simp only [Memory.insertByte] at h
    split_ifs at h with h1 h2
    · simpa using h
    · rcases List.mem_cons.mp h with h | h <;> simp [h]
    · rcases List.mem_cons.mp h with h | h
      · simp [h]
      · rcases ih h with h | h <;> simp [h]

theorem Memory.wf_insertByte (m : Memory) (a : Nat) (v : Byte) (hv : v ≠ Memory.unlisted a) (h : m.wf = true) :
    (m.insertByte a v).wf = true := by
  induction m with
  | nil => simp [Memory.insertByte, Memory.wf, hv]
  | cons d m ih =>
    obtain ⟨b, w⟩ := d
    obtain ⟨h1, h2, h3⟩ := (Memory.wf_cons b w m).mp h
    simp only [Memory.insertByte]
    split_ifs with g1 g2
    · refine (Memory.wf_cons _ _ _).mpr ⟨hv, fun c hc => ?_, h⟩
      rcases List.mem_cons.mp hc with hc | hc
      · simpa [hc] using g1
      · exact lt_trans g1 (h2 c hc)
    · subst g2; exact (Memory.wf_cons _ _ _).mpr ⟨hv, h2, h3⟩
    · refine (Memory.wf_cons _ _ _).mpr ⟨h1, fun c hc => ?_, ih h3⟩
      rcases Memory.mem_insertByte m a v c hc with hc | hc
      · subst hc; simp only; omega
      · exact h2 c hc

/-- A store keeps the canonical form. -/
theorem Memory.wf_write8 (m : Memory) (a : Nat) (v : Byte) (h : m.wf = true) : (m.write8 a v).wf = true := by
  unfold Memory.write8
  split_ifs with hv
  · exact Memory.wf_filter m _ h
  · exact Memory.wf_insertByte m a v hv h

theorem Memory.wf_zeroRange (m : Memory) (lo hi : Nat) (h : m.wf = true) : (m.zeroRange lo hi).wf = true :=
  Memory.wf_filter m _ h

theorem Memory.wf_write32 (m : Memory) (a : Nat) (v : Word) (h : m.wf = true) : (m.write32 a v).wf = true :=
  Memory.wf_write8 _ _ _ (Memory.wf_write8 _ _ _ (Memory.wf_write8 _ _ _ (Memory.wf_write8 _ _ _ h)))

theorem Memory.wf_set (m : Memory) (b : Buf) (i : Nat) (v : Word) (h : m.wf = true) : (m.set b i v).wf = true :=
  Memory.wf_write32 _ _ _ h

theorem Memory.wf_zero (m : Memory) (b : Buf) (n : Nat) (h : m.wf = true) : (m.zero b n).wf = true :=
  Memory.wf_zeroRange _ _ _ h

theorem Memory.wf_ofCells (b : Build) (cells : List Host.Cell) : (Memory.ofCells b cells).wf = true := by
  unfold Memory.ofCells
  suffices h : ∀ m : Memory, m.wf = true →
      Memory.wf (cells.foldl (fun m cell => if isDataByte b cell.1 then m.write8 cell.1 cell.2 else m) m) = true from
    h [] rfl
  induction cells with
  | nil => intro m hm; exact hm
  | cons c cells ih =>
    intro m hm
    apply ih
    dsimp only
    split_ifs
    · exact Memory.wf_write8 _ _ _ hm
    · exact hm

/-- Reset memory is in canonical form. -/
theorem Memory.wf_reset : State.reset.mem.wf = true := rfl

/-! ## Two canonical memories that read alike are equal -/

theorem Memory.read8_of_lt (m : Memory) (a : Nat) (h : ∀ c ∈ m, a < c.1) : m.read8 a = Memory.unlisted a := by
  induction m with
  | nil => rfl
  | cons c m ih =>
    have hc := h c (by simp)
    rw [Memory.read8_cons, if_neg (by omega), ih fun d hd => h d (by simp [hd])]

/-- The canonical form is canonical: it is determined by what every address reads as. -/
theorem Memory.ext_of_read8 (m n : Memory) (hm : m.wf = true) (hn : n.wf = true)
    (h : ∀ a, m.read8 a = n.read8 a) : m = n := by
  induction m generalizing n with
  | nil =>
    cases n with
    | nil => rfl
    | cons d n =>
      obtain ⟨b, w⟩ := d
      have := h b
      rw [Memory.read8_nil, Memory.read8_cons, if_pos rfl] at this
      exact absurd this.symm ((Memory.wf_cons b w n).mp hn).1
  | cons c m ih =>
    obtain ⟨a, v⟩ := c
    obtain ⟨h1, h2, h3⟩ := (Memory.wf_cons a v m).mp hm
    cases n with
    | nil =>
      have := h a
      rw [Memory.read8_nil, Memory.read8_cons, if_pos rfl] at this
      exact absurd this h1
    | cons d n =>
      obtain ⟨b, w⟩ := d
      obtain ⟨g1, g2, g3⟩ := (Memory.wf_cons b w n).mp hn
      have hab : a = b := by
        by_contra hne
        rcases lt_or_gt_of_ne hne with hlt | hlt
        · have := h a
          rw [Memory.read8_cons, if_pos rfl, Memory.read8_cons, if_neg (by simpa using Ne.symm hne),
            Memory.read8_of_lt n a fun c hc => lt_trans hlt (g2 c hc)] at this
          exact h1 this
        · have := h b
          rw [Memory.read8_cons, if_neg (by simpa using hne), Memory.read8_cons, if_pos rfl,
            Memory.read8_of_lt m b fun c hc => lt_trans hlt (h2 c hc)] at this
          exact g1 this.symm
      subst hab
      have hv := h a
      rw [Memory.read8_cons, if_pos rfl, Memory.read8_cons, if_pos rfl] at hv
      simp only at hv
      subst hv
      congr 1
      apply ih n h3 g3
      intro x
      have hx := h x
      rw [Memory.read8_cons, Memory.read8_cons] at hx
      by_cases hax : a = x
      · subst hax
        rw [Memory.read8_of_lt m a h2, Memory.read8_of_lt n a g2]
      · simpa [hax] using hx

/-! ## Words -/

theorem wordOfBytes_extract (v : Word) :
    wordOfBytes (v.extractLsb' 0 8) (v.extractLsb' 8 8) (v.extractLsb' 16 8) (v.extractLsb' 24 8) = v := by
  apply BitVec.eq_of_getLsbD_eq
  intro i hi
  simp only [wordOfBytes, BitVec.getLsbD_append, BitVec.getLsbD_extractLsb']
  by_cases h1 : i < 8
  · simp [h1]
  by_cases h2 : i < 16
  · simp [h1, show i - 8 < 8 by omega, show 8 + (i - 8) = i by omega]
  by_cases h3 : i < 24
  · simp [h1, show ¬ i - 8 < 8 by omega, show i - 8 - 8 < 8 by omega, show 16 + (i - 8 - 8) = i by omega]
  · simp [h1, show ¬ i - 8 < 8 by omega, show ¬ i - 8 - 8 < 8 by omega, show i - 8 - 8 - 8 < 8 by omega,
      show 24 + (i - 8 - 8 - 8) = i by omega]

/-- A byte of a stored word, and every byte outside it. -/
theorem Memory.read8_write32 (m : Memory) (a : Nat) (v : Word) (b : Nat) :
    (m.write32 a v).read8 b =
      if b = a then v.extractLsb' 0 8 else if b = a + 1 then v.extractLsb' 8 8
      else if b = a + 2 then v.extractLsb' 16 8 else if b = a + 3 then v.extractLsb' 24 8 else m.read8 b := by
  simp only [Memory.write32, Memory.read8_write8]
  split_ifs <;> first | rfl | omega

theorem Memory.read8_write32_of_outside (m : Memory) (a : Nat) (v : Word) (b : Nat) (h : b < a ∨ a + 4 ≤ b) :
    (m.write32 a v).read8 b = m.read8 b := by
  rw [Memory.read8_write32]
  split_ifs <;> first | rfl | omega

/-- Read after write of one word at the same address. -/
theorem Memory.read32_write32_same (m : Memory) (a : Nat) (v : Word) : (m.write32 a v).read32 a = v := by
  simp only [Memory.read32, Memory.read8_write32]
  simpa using wordOfBytes_extract v

/-- A word read elsewhere is as before. -/
theorem Memory.read32_write32_of_disjoint (m : Memory) (a : Nat) (v : Word) (b : Nat) (h : b + 4 ≤ a ∨ a + 4 ≤ b) :
    (m.write32 a v).read32 b = m.read32 b := by
  simp only [Memory.read32]
  rw [Memory.read8_write32_of_outside, Memory.read8_write32_of_outside, Memory.read8_write32_of_outside,
    Memory.read8_write32_of_outside] <;> omega

/-- A word depends only on its four bytes. -/
theorem Memory.read32_congr (m n : Memory) (a : Nat) (h : ∀ k < 4, m.read8 (a + k) = n.read8 (a + k)) :
    m.read32 a = n.read32 a := by
  simp only [Memory.read32]
  rw [← h 1 (by omega), ← h 2 (by omega), ← h 3 (by omega)]
  have := h 0 (by omega)
  simp only [Nat.add_zero] at this
  rw [this]

end Sys2Proof.Machine
end

