-- ==== Sys2Proof/Laws/AddressMap.lean ====
section
/-! SUPPORT. The data memories do not overlap, so elements behave like independent arrays of words; and what a legal
build's sizes are bounded by. -/

namespace Sys2Proof.Machine

open Sys2Proof

/-- How many elements a data memory has room for in the map, whatever the build. -/
def Buf.room : Buf → Nat
  | .re _ | .im _ | .inRe | .inIm => 32768
  | .matIn | .trRe | .trIm | .mrRe | .mrIm => 4194304

theorem Buf.mem_all (b : Buf) : b ∈ Buf.all := by
  cases b <;> (try rename_i c; cases c) <;> decide

theorem Ctx.mem_all (c : Ctx) : c ∈ Ctx.all := by cases c <;> decide

theorem Buf.windows_separated :
    ∀ b ∈ Buf.all, ∀ b' ∈ Buf.all, b ≠ b' →
      b.base + 4 * b.room ≤ b'.base ∨ b'.base + 4 * b'.room ≤ b.base := by decide +kernel

/-- Two different elements do not share a byte. -/
theorem Buf.addr_disjoint {b b' : Buf} {i j : Nat} (hi : i < b.room) (hj : j < b'.room) (h : ¬(b = b' ∧ i = j)) :
    b.addr i + 4 ≤ b'.addr j ∨ b'.addr j + 4 ≤ b.addr i := by
  unfold Buf.addr
  by_cases hb : b = b'
  · subst hb
    have : i ≠ j := fun hij => h ⟨rfl, hij⟩
    omega
  · rcases Buf.windows_separated b b.mem_all b' b'.mem_all hb with h | h <;> omega

/-- Element after store: independent arrays of words. -/
theorem Memory.get_set (m : Memory) {b b' : Buf} {i j : Nat} (v : Word) (hi : i < b.room) (hj : j < b'.room) :
    (m.set b i v).get b' j = if b = b' ∧ i = j then v else m.get b' j := by
  unfold Memory.get Memory.set
  split_ifs with h
  · obtain ⟨rfl, rfl⟩ := h
    exact Memory.read32_write32_same _ _ _
  · apply Memory.read32_write32_of_disjoint
    have := Buf.addr_disjoint hi hj h
    omega

/-- A byte outside a stored element is as before. -/
theorem Memory.read8_set_of_outside (m : Memory) (b : Buf) (i : Nat) (v : Word) (a : Nat)
    (h : a < b.addr i ∨ b.addr i + 4 ≤ a) : (m.set b i v).read8 a = m.read8 a :=
  Memory.read8_write32_of_outside _ _ _ _ h

/-- What an element reads as after a buffer was zeroed. -/
theorem Memory.get_zero (m : Memory) {b b' : Buf} {n j : Nat} (hn : n ≤ b.room) (hj : j < b'.room) :
    (m.zero b n).get b' j = if b = b' ∧ j < n then 0 else m.get b' j := by
  unfold Memory.get Memory.zero
  split_ifs with h
  · obtain ⟨rfl, hj⟩ := h
    have : ∀ k < 4, (m.zeroRange (b.addr 0) (b.addr n)).read8 (b.addr j + k) = 0 := by
      intro k hk
      rw [Memory.read8_zeroRange, if_pos]
      unfold Buf.addr
      omega
    have h0 := this 0 (by omega)
    have h1 := this 1 (by omega)
    have h2 := this 2 (by omega)
    have h3 := this 3 (by omega)
    rw [Nat.add_zero] at h0
    simp only [Memory.read32, h0, h1, h2, h3]
    rfl
  · apply Memory.read32_congr
    intro k hk
    rw [Memory.read8_zeroRange, if_neg]
    unfold Buf.addr
    by_cases hb : b = b'
    · subst hb
      have : ¬ j < n := fun hlt => h ⟨rfl, hlt⟩
      omega
    · rcases Buf.windows_separated b b.mem_all b' b'.mem_all hb with h | h <;> omega

theorem Memory.read8_zero_of_outside (m : Memory) (b : Buf) (n : Nat) (a : Nat)
    (h : a < b.addr 0 ∨ b.addr n ≤ a) : (m.zero b n).read8 a = m.read8 a := by
  unfold Memory.zero
  rw [Memory.read8_zeroRange, if_neg (by omega)]

/-! ## Legal builds -/

theorem Build.legal_bounds {b : Build} (h : b.legal = true) :
    (1 ≤ b.fracBits ∧ b.fracBits ≤ 16) ∧ (1 ≤ b.log2MaxLen ∧ b.log2MaxLen ≤ 15) ∧
      2 ≤ b.log2MatMax ∧ b.log2MatMax ≤ 22 := by
  simp only [Build.legal, Bool.and_eq_true, decide_eq_true_eq] at h
  omega

theorem Build.maxLen_le {b : Build} (h : b.legal = true) : b.maxLen ≤ 32768 :=
  Nat.pow_le_pow_right (n := 2) (by omega) (Build.legal_bounds h).2.1.2

theorem Build.matMax_le {b : Build} (h : b.legal = true) : b.matMax ≤ 4194304 :=
  Nat.pow_le_pow_right (n := 2) (by omega) (Build.legal_bounds h).2.2.2

/-- A legal build's windows fit the map. -/
theorem Buf.count_le_room {b : Build} (h : b.legal = true) (m : Buf) : m.count b ≤ m.room := by
  have h1 := Build.maxLen_le h
  have h2 := Build.matMax_le h
  cases m <;> simpa [Buf.count, Buf.room]

end Sys2Proof.Machine
end

