-- ==== Sys2Proof/Laws/State.lean ====
section
/-! SUPPORT. One lemma per field per named update of State, so that no later proof unfolds a record update. -/

namespace Sys2Proof.Machine

open Sys2Proof

/-! ### Plans -/

theorem State.setPlan_plan (s : State) (c d : Ctx) (p : Plan) :
    (s.setPlan c p).plan d = if c = d then p else s.plan d := by
  cases c <;> cases d <;> rfl

@[simp] theorem State.setPlan_plan_same (s : State) (c : Ctx) (p : Plan) : (s.setPlan c p).plan c = p := by
  cases c <;> rfl

@[simp] theorem State.withMem_plan (s : State) (m : Memory) (c : Ctx) : (s.withMem m).plan c = s.plan c := by
  cases c <;> rfl

@[simp] theorem State.complete_plan (s : State) (code : ErrCode) (c : Ctx) : (s.complete code).plan c = s.plan c := by
  cases c <;> rfl

@[simp] theorem State.withResults_plan (s : State) (r0 r1 : Word) (c : Ctx) :
    (s.withResults r0 r1).plan c = s.plan c := by
  cases c <;> rfl

@[simp] theorem State.accept_plan (s : State) (w : Word) (c : Ctx) : (s.accept w).plan c = s.plan c := by
  cases c <;> rfl

/-! ### withMem -/

@[simp] theorem State.withMem_build (s : State) (m : Memory) : (s.withMem m).build = s.build := rfl
@[simp] theorem State.withMem_ie (s : State) (m : Memory) : (s.withMem m).ie = s.ie := rfl
@[simp] theorem State.withMem_busy (s : State) (m : Memory) : (s.withMem m).busy = s.busy := rfl
@[simp] theorem State.withMem_done (s : State) (m : Memory) : (s.withMem m).done = s.done := rfl
@[simp] theorem State.withMem_ovr (s : State) (m : Memory) : (s.withMem m).ovr = s.ovr := rfl
@[simp] theorem State.withMem_berr (s : State) (m : Memory) : (s.withMem m).berr = s.berr := rfl
@[simp] theorem State.withMem_err (s : State) (m : Memory) : (s.withMem m).err = s.err := rfl
@[simp] theorem State.withMem_arg0 (s : State) (m : Memory) : (s.withMem m).arg0 = s.arg0 := rfl
@[simp] theorem State.withMem_arg1 (s : State) (m : Memory) : (s.withMem m).arg1 = s.arg1 := rfl
@[simp] theorem State.withMem_res0 (s : State) (m : Memory) : (s.withMem m).res0 = s.res0 := rfl
@[simp] theorem State.withMem_res1 (s : State) (m : Memory) : (s.withMem m).res1 = s.res1 := rfl
@[simp] theorem State.withMem_lastCmd (s : State) (m : Memory) : (s.withMem m).lastCmd = s.lastCmd := rfl
@[simp] theorem State.withMem_lCmd (s : State) (m : Memory) : (s.withMem m).lCmd = s.lCmd := rfl
@[simp] theorem State.withMem_lArg0 (s : State) (m : Memory) : (s.withMem m).lArg0 = s.lArg0 := rfl
@[simp] theorem State.withMem_lArg1 (s : State) (m : Memory) : (s.withMem m).lArg1 = s.lArg1 := rfl
@[simp] theorem State.withMem_planP0 (s : State) (m : Memory) : (s.withMem m).planP0 = s.planP0 := rfl
@[simp] theorem State.withMem_planP1 (s : State) (m : Memory) : (s.withMem m).planP1 = s.planP1 := rfl
@[simp] theorem State.withMem_planR (s : State) (m : Memory) : (s.withMem m).planR = s.planR := rfl
@[simp] theorem State.withMem_planC (s : State) (m : Memory) : (s.withMem m).planC = s.planC := rfl
@[simp] theorem State.withMem_v2d (s : State) (m : Memory) : (s.withMem m).v2d = s.v2d := rfl
@[simp] theorem State.withMem_mem (s : State) (m : Memory) : (s.withMem m).mem = m := rfl
@[simp] theorem State.withMem_wait (s : State) (m : Memory) : (s.withMem m).wait = s.wait := rfl
@[simp] theorem State.withMem_latencies (s : State) (m : Memory) : (s.withMem m).latencies = s.latencies := rfl
@[simp] theorem State.withMem_hostOps (s : State) (m : Memory) : (s.withMem m).hostOps = s.hostOps := rfl
@[simp] theorem State.withMem_replies (s : State) (m : Memory) : (s.withMem m).replies = s.replies := rfl

/-! ### withResults -/

@[simp] theorem State.withResults_build (s : State) (r0 r1 : Word) : (s.withResults r0 r1).build = s.build := rfl
@[simp] theorem State.withResults_ie (s : State) (r0 r1 : Word) : (s.withResults r0 r1).ie = s.ie := rfl
@[simp] theorem State.withResults_busy (s : State) (r0 r1 : Word) : (s.withResults r0 r1).busy = s.busy := rfl
@[simp] theorem State.withResults_done (s : State) (r0 r1 : Word) : (s.withResults r0 r1).done = s.done := rfl
@[simp] theorem State.withResults_ovr (s : State) (r0 r1 : Word) : (s.withResults r0 r1).ovr = s.ovr := rfl
@[simp] theorem State.withResults_berr (s : State) (r0 r1 : Word) : (s.withResults r0 r1).berr = s.berr := rfl
@[simp] theorem State.withResults_err (s : State) (r0 r1 : Word) : (s.withResults r0 r1).err = s.err := rfl
@[simp] theorem State.withResults_arg0 (s : State) (r0 r1 : Word) : (s.withResults r0 r1).arg0 = s.arg0 := rfl
@[simp] theorem State.withResults_arg1 (s : State) (r0 r1 : Word) : (s.withResults r0 r1).arg1 = s.arg1 := rfl
@[simp] theorem State.withResults_res0 (s : State) (r0 r1 : Word) : (s.withResults r0 r1).res0 = r0 := rfl
@[simp] theorem State.withResults_res1 (s : State) (r0 r1 : Word) : (s.withResults r0 r1).res1 = r1 := rfl
@[simp] theorem State.withResults_lastCmd (s : State) (r0 r1 : Word) : (s.withResults r0 r1).lastCmd = s.lastCmd := rfl
@[simp] theorem State.withResults_lCmd (s : State) (r0 r1 : Word) : (s.withResults r0 r1).lCmd = s.lCmd := rfl
@[simp] theorem State.withResults_lArg0 (s : State) (r0 r1 : Word) : (s.withResults r0 r1).lArg0 = s.lArg0 := rfl
@[simp] theorem State.withResults_lArg1 (s : State) (r0 r1 : Word) : (s.withResults r0 r1).lArg1 = s.lArg1 := rfl
@[simp] theorem State.withResults_planP0 (s : State) (r0 r1 : Word) : (s.withResults r0 r1).planP0 = s.planP0 := rfl
@[simp] theorem State.withResults_planP1 (s : State) (r0 r1 : Word) : (s.withResults r0 r1).planP1 = s.planP1 := rfl
@[simp] theorem State.withResults_planR (s : State) (r0 r1 : Word) : (s.withResults r0 r1).planR = s.planR := rfl
@[simp] theorem State.withResults_planC (s : State) (r0 r1 : Word) : (s.withResults r0 r1).planC = s.planC := rfl
@[simp] theorem State.withResults_v2d (s : State) (r0 r1 : Word) : (s.withResults r0 r1).v2d = s.v2d := rfl
@[simp] theorem State.withResults_mem (s : State) (r0 r1 : Word) : (s.withResults r0 r1).mem = s.mem := rfl
@[simp] theorem State.withResults_wait (s : State) (r0 r1 : Word) : (s.withResults r0 r1).wait = s.wait := rfl
@[simp] theorem State.withResults_latencies (s : State) (r0 r1 : Word) : (s.withResults r0 r1).latencies = s.latencies := rfl
@[simp] theorem State.withResults_hostOps (s : State) (r0 r1 : Word) : (s.withResults r0 r1).hostOps = s.hostOps := rfl
@[simp] theorem State.withResults_replies (s : State) (r0 r1 : Word) : (s.withResults r0 r1).replies = s.replies := rfl

/-! ### complete -/

@[simp] theorem State.complete_build (s : State) (code : ErrCode) : (s.complete code).build = s.build := rfl
@[simp] theorem State.complete_ie (s : State) (code : ErrCode) : (s.complete code).ie = s.ie := rfl
@[simp] theorem State.complete_busy (s : State) (code : ErrCode) : (s.complete code).busy = false := rfl
@[simp] theorem State.complete_done (s : State) (code : ErrCode) : (s.complete code).done = true := rfl
@[simp] theorem State.complete_ovr (s : State) (code : ErrCode) : (s.complete code).ovr = s.ovr := rfl
@[simp] theorem State.complete_berr (s : State) (code : ErrCode) : (s.complete code).berr = s.berr := rfl
@[simp] theorem State.complete_err (s : State) (code : ErrCode) : (s.complete code).err = code := rfl
@[simp] theorem State.complete_arg0 (s : State) (code : ErrCode) : (s.complete code).arg0 = s.arg0 := rfl
@[simp] theorem State.complete_arg1 (s : State) (code : ErrCode) : (s.complete code).arg1 = s.arg1 := rfl
@[simp] theorem State.complete_res0 (s : State) (code : ErrCode) : (s.complete code).res0 = s.res0 := rfl
@[simp] theorem State.complete_res1 (s : State) (code : ErrCode) : (s.complete code).res1 = s.res1 := rfl
@[simp] theorem State.complete_lastCmd (s : State) (code : ErrCode) : (s.complete code).lastCmd = s.lastCmd := rfl
@[simp] theorem State.complete_lCmd (s : State) (code : ErrCode) : (s.complete code).lCmd = s.lCmd := rfl
@[simp] theorem State.complete_lArg0 (s : State) (code : ErrCode) : (s.complete code).lArg0 = s.lArg0 := rfl
@[simp] theorem State.complete_lArg1 (s : State) (code : ErrCode) : (s.complete code).lArg1 = s.lArg1 := rfl
@[simp] theorem State.complete_planP0 (s : State) (code : ErrCode) : (s.complete code).planP0 = s.planP0 := rfl
@[simp] theorem State.complete_planP1 (s : State) (code : ErrCode) : (s.complete code).planP1 = s.planP1 := rfl
@[simp] theorem State.complete_planR (s : State) (code : ErrCode) : (s.complete code).planR = s.planR := rfl
@[simp] theorem State.complete_planC (s : State) (code : ErrCode) : (s.complete code).planC = s.planC := rfl
@[simp] theorem State.complete_v2d (s : State) (code : ErrCode) : (s.complete code).v2d = s.v2d := rfl
@[simp] theorem State.complete_mem (s : State) (code : ErrCode) : (s.complete code).mem = s.mem := rfl
@[simp] theorem State.complete_wait (s : State) (code : ErrCode) : (s.complete code).wait = s.wait := rfl
@[simp] theorem State.complete_latencies (s : State) (code : ErrCode) : (s.complete code).latencies = s.latencies := rfl
@[simp] theorem State.complete_hostOps (s : State) (code : ErrCode) : (s.complete code).hostOps = s.hostOps := rfl
@[simp] theorem State.complete_replies (s : State) (code : ErrCode) : (s.complete code).replies = s.replies := rfl

/-! ### accept -/

@[simp] theorem State.accept_build (s : State) (w : Word) : (s.accept w).build = s.build := rfl
@[simp] theorem State.accept_ie (s : State) (w : Word) : (s.accept w).ie = s.ie := rfl
@[simp] theorem State.accept_busy (s : State) (w : Word) : (s.accept w).busy = true := rfl
@[simp] theorem State.accept_done (s : State) (w : Word) : (s.accept w).done = false := rfl
@[simp] theorem State.accept_ovr (s : State) (w : Word) : (s.accept w).ovr = s.ovr := rfl
@[simp] theorem State.accept_berr (s : State) (w : Word) : (s.accept w).berr = s.berr := rfl
@[simp] theorem State.accept_err (s : State) (w : Word) : (s.accept w).err = .ok := rfl
@[simp] theorem State.accept_arg0 (s : State) (w : Word) : (s.accept w).arg0 = s.arg0 := rfl
@[simp] theorem State.accept_arg1 (s : State) (w : Word) : (s.accept w).arg1 = s.arg1 := rfl
@[simp] theorem State.accept_res0 (s : State) (w : Word) : (s.accept w).res0 = s.res0 := rfl
@[simp] theorem State.accept_res1 (s : State) (w : Word) : (s.accept w).res1 = s.res1 := rfl
@[simp] theorem State.accept_lastCmd (s : State) (w : Word) : (s.accept w).lastCmd = w := rfl
@[simp] theorem State.accept_lCmd (s : State) (w : Word) : (s.accept w).lCmd = w := rfl
@[simp] theorem State.accept_lArg0 (s : State) (w : Word) : (s.accept w).lArg0 = s.arg0 := rfl
@[simp] theorem State.accept_lArg1 (s : State) (w : Word) : (s.accept w).lArg1 = s.arg1 := rfl
@[simp] theorem State.accept_planP0 (s : State) (w : Word) : (s.accept w).planP0 = s.planP0 := rfl
@[simp] theorem State.accept_planP1 (s : State) (w : Word) : (s.accept w).planP1 = s.planP1 := rfl
@[simp] theorem State.accept_planR (s : State) (w : Word) : (s.accept w).planR = s.planR := rfl
@[simp] theorem State.accept_planC (s : State) (w : Word) : (s.accept w).planC = s.planC := rfl
@[simp] theorem State.accept_v2d (s : State) (w : Word) : (s.accept w).v2d = s.v2d := rfl
@[simp] theorem State.accept_mem (s : State) (w : Word) : (s.accept w).mem = s.mem := rfl
@[simp] theorem State.accept_wait (s : State) (w : Word) : (s.accept w).wait = s.latencies.headD 0 := rfl
@[simp] theorem State.accept_latencies (s : State) (w : Word) : (s.accept w).latencies = s.latencies.tail := rfl
@[simp] theorem State.accept_hostOps (s : State) (w : Word) : (s.accept w).hostOps = s.hostOps := rfl
@[simp] theorem State.accept_replies (s : State) (w : Word) : (s.accept w).replies = s.replies := rfl

/-! ### markBusError -/

@[simp] theorem State.markBusError_build (s : State) : (s.markBusError).build = s.build := rfl
@[simp] theorem State.markBusError_ie (s : State) : (s.markBusError).ie = s.ie := rfl
@[simp] theorem State.markBusError_busy (s : State) : (s.markBusError).busy = s.busy := rfl
@[simp] theorem State.markBusError_done (s : State) : (s.markBusError).done = s.done := rfl
@[simp] theorem State.markBusError_ovr (s : State) : (s.markBusError).ovr = s.ovr := rfl
@[simp] theorem State.markBusError_berr (s : State) : (s.markBusError).berr = true := rfl
@[simp] theorem State.markBusError_err (s : State) : (s.markBusError).err = s.err := rfl
@[simp] theorem State.markBusError_arg0 (s : State) : (s.markBusError).arg0 = s.arg0 := rfl
@[simp] theorem State.markBusError_arg1 (s : State) : (s.markBusError).arg1 = s.arg1 := rfl
@[simp] theorem State.markBusError_res0 (s : State) : (s.markBusError).res0 = s.res0 := rfl
@[simp] theorem State.markBusError_res1 (s : State) : (s.markBusError).res1 = s.res1 := rfl
@[simp] theorem State.markBusError_lastCmd (s : State) : (s.markBusError).lastCmd = s.lastCmd := rfl
@[simp] theorem State.markBusError_lCmd (s : State) : (s.markBusError).lCmd = s.lCmd := rfl
@[simp] theorem State.markBusError_lArg0 (s : State) : (s.markBusError).lArg0 = s.lArg0 := rfl
@[simp] theorem State.markBusError_lArg1 (s : State) : (s.markBusError).lArg1 = s.lArg1 := rfl
@[simp] theorem State.markBusError_planP0 (s : State) : (s.markBusError).planP0 = s.planP0 := rfl
@[simp] theorem State.markBusError_planP1 (s : State) : (s.markBusError).planP1 = s.planP1 := rfl
@[simp] theorem State.markBusError_planR (s : State) : (s.markBusError).planR = s.planR := rfl
@[simp] theorem State.markBusError_planC (s : State) : (s.markBusError).planC = s.planC := rfl
@[simp] theorem State.markBusError_v2d (s : State) : (s.markBusError).v2d = s.v2d := rfl
@[simp] theorem State.markBusError_mem (s : State) : (s.markBusError).mem = s.mem := rfl
@[simp] theorem State.markBusError_wait (s : State) : (s.markBusError).wait = s.wait := rfl
@[simp] theorem State.markBusError_latencies (s : State) : (s.markBusError).latencies = s.latencies := rfl
@[simp] theorem State.markBusError_hostOps (s : State) : (s.markBusError).hostOps = s.hostOps := rfl
@[simp] theorem State.markBusError_replies (s : State) : (s.markBusError).replies = s.replies := rfl

/-! ### markOverrun -/

@[simp] theorem State.markOverrun_build (s : State) : (s.markOverrun).build = s.build := rfl
@[simp] theorem State.markOverrun_ie (s : State) : (s.markOverrun).ie = s.ie := rfl
@[simp] theorem State.markOverrun_busy (s : State) : (s.markOverrun).busy = s.busy := rfl
@[simp] theorem State.markOverrun_done (s : State) : (s.markOverrun).done = s.done := rfl
@[simp] theorem State.markOverrun_ovr (s : State) : (s.markOverrun).ovr = true := rfl
@[simp] theorem State.markOverrun_berr (s : State) : (s.markOverrun).berr = s.berr := rfl
@[simp] theorem State.markOverrun_err (s : State) : (s.markOverrun).err = s.err := rfl
@[simp] theorem State.markOverrun_arg0 (s : State) : (s.markOverrun).arg0 = s.arg0 := rfl
@[simp] theorem State.markOverrun_arg1 (s : State) : (s.markOverrun).arg1 = s.arg1 := rfl
@[simp] theorem State.markOverrun_res0 (s : State) : (s.markOverrun).res0 = s.res0 := rfl
@[simp] theorem State.markOverrun_res1 (s : State) : (s.markOverrun).res1 = s.res1 := rfl
@[simp] theorem State.markOverrun_lastCmd (s : State) : (s.markOverrun).lastCmd = s.lastCmd := rfl
@[simp] theorem State.markOverrun_lCmd (s : State) : (s.markOverrun).lCmd = s.lCmd := rfl
@[simp] theorem State.markOverrun_lArg0 (s : State) : (s.markOverrun).lArg0 = s.lArg0 := rfl
@[simp] theorem State.markOverrun_lArg1 (s : State) : (s.markOverrun).lArg1 = s.lArg1 := rfl
@[simp] theorem State.markOverrun_planP0 (s : State) : (s.markOverrun).planP0 = s.planP0 := rfl
@[simp] theorem State.markOverrun_planP1 (s : State) : (s.markOverrun).planP1 = s.planP1 := rfl
@[simp] theorem State.markOverrun_planR (s : State) : (s.markOverrun).planR = s.planR := rfl
@[simp] theorem State.markOverrun_planC (s : State) : (s.markOverrun).planC = s.planC := rfl
@[simp] theorem State.markOverrun_v2d (s : State) : (s.markOverrun).v2d = s.v2d := rfl
@[simp] theorem State.markOverrun_mem (s : State) : (s.markOverrun).mem = s.mem := rfl
@[simp] theorem State.markOverrun_wait (s : State) : (s.markOverrun).wait = s.wait := rfl
@[simp] theorem State.markOverrun_latencies (s : State) : (s.markOverrun).latencies = s.latencies := rfl
@[simp] theorem State.markOverrun_hostOps (s : State) : (s.markOverrun).hostOps = s.hostOps := rfl
@[simp] theorem State.markOverrun_replies (s : State) : (s.markOverrun).replies = s.replies := rfl

/-! ### answer -/

@[simp] theorem State.answer_build (s : State) (r : Reply) : (s.answer r).build = s.build := rfl
@[simp] theorem State.answer_ie (s : State) (r : Reply) : (s.answer r).ie = s.ie := rfl
@[simp] theorem State.answer_busy (s : State) (r : Reply) : (s.answer r).busy = s.busy := rfl
@[simp] theorem State.answer_done (s : State) (r : Reply) : (s.answer r).done = s.done := rfl
@[simp] theorem State.answer_ovr (s : State) (r : Reply) : (s.answer r).ovr = s.ovr := rfl
@[simp] theorem State.answer_berr (s : State) (r : Reply) : (s.answer r).berr = s.berr := rfl
@[simp] theorem State.answer_err (s : State) (r : Reply) : (s.answer r).err = s.err := rfl
@[simp] theorem State.answer_arg0 (s : State) (r : Reply) : (s.answer r).arg0 = s.arg0 := rfl
@[simp] theorem State.answer_arg1 (s : State) (r : Reply) : (s.answer r).arg1 = s.arg1 := rfl
@[simp] theorem State.answer_res0 (s : State) (r : Reply) : (s.answer r).res0 = s.res0 := rfl
@[simp] theorem State.answer_res1 (s : State) (r : Reply) : (s.answer r).res1 = s.res1 := rfl
@[simp] theorem State.answer_lastCmd (s : State) (r : Reply) : (s.answer r).lastCmd = s.lastCmd := rfl
@[simp] theorem State.answer_lCmd (s : State) (r : Reply) : (s.answer r).lCmd = s.lCmd := rfl
@[simp] theorem State.answer_lArg0 (s : State) (r : Reply) : (s.answer r).lArg0 = s.lArg0 := rfl
@[simp] theorem State.answer_lArg1 (s : State) (r : Reply) : (s.answer r).lArg1 = s.lArg1 := rfl
@[simp] theorem State.answer_planP0 (s : State) (r : Reply) : (s.answer r).planP0 = s.planP0 := rfl
@[simp] theorem State.answer_planP1 (s : State) (r : Reply) : (s.answer r).planP1 = s.planP1 := rfl
@[simp] theorem State.answer_planR (s : State) (r : Reply) : (s.answer r).planR = s.planR := rfl
@[simp] theorem State.answer_planC (s : State) (r : Reply) : (s.answer r).planC = s.planC := rfl
@[simp] theorem State.answer_v2d (s : State) (r : Reply) : (s.answer r).v2d = s.v2d := rfl
@[simp] theorem State.answer_mem (s : State) (r : Reply) : (s.answer r).mem = s.mem := rfl
@[simp] theorem State.answer_wait (s : State) (r : Reply) : (s.answer r).wait = s.wait := rfl
@[simp] theorem State.answer_latencies (s : State) (r : Reply) : (s.answer r).latencies = s.latencies := rfl
@[simp] theorem State.answer_hostOps (s : State) (r : Reply) : (s.answer r).hostOps = s.hostOps := rfl
@[simp] theorem State.answer_replies (s : State) (r : Reply) : (s.answer r).replies = r :: s.replies := rfl

/-! ### dropOp -/

@[simp] theorem State.dropOp_build (s : State) : (s.dropOp).build = s.build := rfl
@[simp] theorem State.dropOp_ie (s : State) : (s.dropOp).ie = s.ie := rfl
@[simp] theorem State.dropOp_busy (s : State) : (s.dropOp).busy = s.busy := rfl
@[simp] theorem State.dropOp_done (s : State) : (s.dropOp).done = s.done := rfl
@[simp] theorem State.dropOp_ovr (s : State) : (s.dropOp).ovr = s.ovr := rfl
@[simp] theorem State.dropOp_berr (s : State) : (s.dropOp).berr = s.berr := rfl
@[simp] theorem State.dropOp_err (s : State) : (s.dropOp).err = s.err := rfl
@[simp] theorem State.dropOp_arg0 (s : State) : (s.dropOp).arg0 = s.arg0 := rfl
@[simp] theorem State.dropOp_arg1 (s : State) : (s.dropOp).arg1 = s.arg1 := rfl
@[simp] theorem State.dropOp_res0 (s : State) : (s.dropOp).res0 = s.res0 := rfl
@[simp] theorem State.dropOp_res1 (s : State) : (s.dropOp).res1 = s.res1 := rfl
@[simp] theorem State.dropOp_lastCmd (s : State) : (s.dropOp).lastCmd = s.lastCmd := rfl
@[simp] theorem State.dropOp_lCmd (s : State) : (s.dropOp).lCmd = s.lCmd := rfl
@[simp] theorem State.dropOp_lArg0 (s : State) : (s.dropOp).lArg0 = s.lArg0 := rfl
@[simp] theorem State.dropOp_lArg1 (s : State) : (s.dropOp).lArg1 = s.lArg1 := rfl
@[simp] theorem State.dropOp_planP0 (s : State) : (s.dropOp).planP0 = s.planP0 := rfl
@[simp] theorem State.dropOp_planP1 (s : State) : (s.dropOp).planP1 = s.planP1 := rfl
@[simp] theorem State.dropOp_planR (s : State) : (s.dropOp).planR = s.planR := rfl
@[simp] theorem State.dropOp_planC (s : State) : (s.dropOp).planC = s.planC := rfl
@[simp] theorem State.dropOp_v2d (s : State) : (s.dropOp).v2d = s.v2d := rfl
@[simp] theorem State.dropOp_mem (s : State) : (s.dropOp).mem = s.mem := rfl
@[simp] theorem State.dropOp_wait (s : State) : (s.dropOp).wait = s.wait := rfl
@[simp] theorem State.dropOp_latencies (s : State) : (s.dropOp).latencies = s.latencies := rfl
@[simp] theorem State.dropOp_hostOps (s : State) : (s.dropOp).hostOps = s.hostOps.tail := rfl
@[simp] theorem State.dropOp_replies (s : State) : (s.dropOp).replies = s.replies := rfl

/-! ### tick -/

@[simp] theorem State.tick_build (s : State) : (s.tick).build = s.build := rfl
@[simp] theorem State.tick_ie (s : State) : (s.tick).ie = s.ie := rfl
@[simp] theorem State.tick_busy (s : State) : (s.tick).busy = s.busy := rfl
@[simp] theorem State.tick_done (s : State) : (s.tick).done = s.done := rfl
@[simp] theorem State.tick_ovr (s : State) : (s.tick).ovr = s.ovr := rfl
@[simp] theorem State.tick_berr (s : State) : (s.tick).berr = s.berr := rfl
@[simp] theorem State.tick_err (s : State) : (s.tick).err = s.err := rfl
@[simp] theorem State.tick_arg0 (s : State) : (s.tick).arg0 = s.arg0 := rfl
@[simp] theorem State.tick_arg1 (s : State) : (s.tick).arg1 = s.arg1 := rfl
@[simp] theorem State.tick_res0 (s : State) : (s.tick).res0 = s.res0 := rfl
@[simp] theorem State.tick_res1 (s : State) : (s.tick).res1 = s.res1 := rfl
@[simp] theorem State.tick_lastCmd (s : State) : (s.tick).lastCmd = s.lastCmd := rfl
@[simp] theorem State.tick_lCmd (s : State) : (s.tick).lCmd = s.lCmd := rfl
@[simp] theorem State.tick_lArg0 (s : State) : (s.tick).lArg0 = s.lArg0 := rfl
@[simp] theorem State.tick_lArg1 (s : State) : (s.tick).lArg1 = s.lArg1 := rfl
@[simp] theorem State.tick_planP0 (s : State) : (s.tick).planP0 = s.planP0 := rfl
@[simp] theorem State.tick_planP1 (s : State) : (s.tick).planP1 = s.planP1 := rfl
@[simp] theorem State.tick_planR (s : State) : (s.tick).planR = s.planR := rfl
@[simp] theorem State.tick_planC (s : State) : (s.tick).planC = s.planC := rfl
@[simp] theorem State.tick_v2d (s : State) : (s.tick).v2d = s.v2d := rfl
@[simp] theorem State.tick_mem (s : State) : (s.tick).mem = s.mem := rfl
@[simp] theorem State.tick_wait (s : State) : (s.tick).wait = s.wait - 1 := rfl
@[simp] theorem State.tick_latencies (s : State) : (s.tick).latencies = s.latencies := rfl
@[simp] theorem State.tick_hostOps (s : State) : (s.tick).hostOps = s.hostOps := rfl
@[simp] theorem State.tick_replies (s : State) : (s.tick).replies = s.replies := rfl

/-! ### placeCommand -/

@[simp] theorem State.placeCommand_build (s : State) (w : Word) : (s.placeCommand w).build = s.build := rfl
@[simp] theorem State.placeCommand_ie (s : State) (w : Word) : (s.placeCommand w).ie = s.ie := rfl
@[simp] theorem State.placeCommand_busy (s : State) (w : Word) : (s.placeCommand w).busy = true := rfl
@[simp] theorem State.placeCommand_done (s : State) (w : Word) : (s.placeCommand w).done = false := rfl
@[simp] theorem State.placeCommand_ovr (s : State) (w : Word) : (s.placeCommand w).ovr = s.ovr := rfl
@[simp] theorem State.placeCommand_berr (s : State) (w : Word) : (s.placeCommand w).berr = s.berr := rfl
@[simp] theorem State.placeCommand_err (s : State) (w : Word) : (s.placeCommand w).err = .ok := rfl
@[simp] theorem State.placeCommand_arg0 (s : State) (w : Word) : (s.placeCommand w).arg0 = s.arg0 := rfl
@[simp] theorem State.placeCommand_arg1 (s : State) (w : Word) : (s.placeCommand w).arg1 = s.arg1 := rfl
@[simp] theorem State.placeCommand_res0 (s : State) (w : Word) : (s.placeCommand w).res0 = s.res0 := rfl
@[simp] theorem State.placeCommand_res1 (s : State) (w : Word) : (s.placeCommand w).res1 = s.res1 := rfl
@[simp] theorem State.placeCommand_lastCmd (s : State) (w : Word) : (s.placeCommand w).lastCmd = w := rfl
@[simp] theorem State.placeCommand_lCmd (s : State) (w : Word) : (s.placeCommand w).lCmd = w := rfl
@[simp] theorem State.placeCommand_lArg0 (s : State) (w : Word) : (s.placeCommand w).lArg0 = s.arg0 := rfl
@[simp] theorem State.placeCommand_lArg1 (s : State) (w : Word) : (s.placeCommand w).lArg1 = s.arg1 := rfl
@[simp] theorem State.placeCommand_planP0 (s : State) (w : Word) : (s.placeCommand w).planP0 = s.planP0 := rfl
@[simp] theorem State.placeCommand_planP1 (s : State) (w : Word) : (s.placeCommand w).planP1 = s.planP1 := rfl
@[simp] theorem State.placeCommand_planR (s : State) (w : Word) : (s.placeCommand w).planR = s.planR := rfl
@[simp] theorem State.placeCommand_planC (s : State) (w : Word) : (s.placeCommand w).planC = s.planC := rfl
@[simp] theorem State.placeCommand_v2d (s : State) (w : Word) : (s.placeCommand w).v2d = s.v2d := rfl
@[simp] theorem State.placeCommand_mem (s : State) (w : Word) : (s.placeCommand w).mem = s.mem := rfl
@[simp] theorem State.placeCommand_wait (s : State) (w : Word) : (s.placeCommand w).wait = 0 := rfl
@[simp] theorem State.placeCommand_latencies (s : State) (w : Word) : (s.placeCommand w).latencies = s.latencies.tail := rfl
@[simp] theorem State.placeCommand_hostOps (s : State) (w : Word) : (s.placeCommand w).hostOps = s.hostOps := rfl
@[simp] theorem State.placeCommand_replies (s : State) (w : Word) : (s.placeCommand w).replies = s.replies := rfl

/-! ### clearStatus -/

@[simp] theorem State.clearStatus_build (s : State) (v : Word) : (s.clearStatus v).build = s.build := rfl
@[simp] theorem State.clearStatus_ie (s : State) (v : Word) : (s.clearStatus v).ie = s.ie := rfl
@[simp] theorem State.clearStatus_busy (s : State) (v : Word) : (s.clearStatus v).busy = s.busy := rfl
@[simp] theorem State.clearStatus_done (s : State) (v : Word) : (s.clearStatus v).done = (if v.getLsbD 1 then false else s.done) := rfl
@[simp] theorem State.clearStatus_ovr (s : State) (v : Word) : (s.clearStatus v).ovr = (if v.getLsbD 2 then false else s.ovr) := rfl
@[simp] theorem State.clearStatus_berr (s : State) (v : Word) : (s.clearStatus v).berr = (if v.getLsbD 3 then false else s.berr) := rfl
@[simp] theorem State.clearStatus_err (s : State) (v : Word) : (s.clearStatus v).err = s.err := rfl
@[simp] theorem State.clearStatus_arg0 (s : State) (v : Word) : (s.clearStatus v).arg0 = s.arg0 := rfl
@[simp] theorem State.clearStatus_arg1 (s : State) (v : Word) : (s.clearStatus v).arg1 = s.arg1 := rfl
@[simp] theorem State.clearStatus_res0 (s : State) (v : Word) : (s.clearStatus v).res0 = s.res0 := rfl
@[simp] theorem State.clearStatus_res1 (s : State) (v : Word) : (s.clearStatus v).res1 = s.res1 := rfl
@[simp] theorem State.clearStatus_lastCmd (s : State) (v : Word) : (s.clearStatus v).lastCmd = s.lastCmd := rfl
@[simp] theorem State.clearStatus_lCmd (s : State) (v : Word) : (s.clearStatus v).lCmd = s.lCmd := rfl
@[simp] theorem State.clearStatus_lArg0 (s : State) (v : Word) : (s.clearStatus v).lArg0 = s.lArg0 := rfl
@[simp] theorem State.clearStatus_lArg1 (s : State) (v : Word) : (s.clearStatus v).lArg1 = s.lArg1 := rfl
@[simp] theorem State.clearStatus_planP0 (s : State) (v : Word) : (s.clearStatus v).planP0 = s.planP0 := rfl
@[simp] theorem State.clearStatus_planP1 (s : State) (v : Word) : (s.clearStatus v).planP1 = s.planP1 := rfl
@[simp] theorem State.clearStatus_planR (s : State) (v : Word) : (s.clearStatus v).planR = s.planR := rfl
@[simp] theorem State.clearStatus_planC (s : State) (v : Word) : (s.clearStatus v).planC = s.planC := rfl
@[simp] theorem State.clearStatus_v2d (s : State) (v : Word) : (s.clearStatus v).v2d = s.v2d := rfl
@[simp] theorem State.clearStatus_mem (s : State) (v : Word) : (s.clearStatus v).mem = s.mem := rfl
@[simp] theorem State.clearStatus_wait (s : State) (v : Word) : (s.clearStatus v).wait = s.wait := rfl
@[simp] theorem State.clearStatus_latencies (s : State) (v : Word) : (s.clearStatus v).latencies = s.latencies := rfl
@[simp] theorem State.clearStatus_hostOps (s : State) (v : Word) : (s.clearStatus v).hostOps = s.hostOps := rfl
@[simp] theorem State.clearStatus_replies (s : State) (v : Word) : (s.clearStatus v).replies = s.replies := rfl

/-! ### setPlan -/

@[simp] theorem State.setPlan_build (s : State) (c : Ctx) (p : Plan) : (s.setPlan c p).build = s.build := by
  cases c <;> rfl
@[simp] theorem State.setPlan_ie (s : State) (c : Ctx) (p : Plan) : (s.setPlan c p).ie = s.ie := by
  cases c <;> rfl
@[simp] theorem State.setPlan_busy (s : State) (c : Ctx) (p : Plan) : (s.setPlan c p).busy = s.busy := by
  cases c <;> rfl
@[simp] theorem State.setPlan_done (s : State) (c : Ctx) (p : Plan) : (s.setPlan c p).done = s.done := by
  cases c <;> rfl
@[simp] theorem State.setPlan_ovr (s : State) (c : Ctx) (p : Plan) : (s.setPlan c p).ovr = s.ovr := by
  cases c <;> rfl
@[simp] theorem State.setPlan_berr (s : State) (c : Ctx) (p : Plan) : (s.setPlan c p).berr = s.berr := by
  cases c <;> rfl
@[simp] theorem State.setPlan_err (s : State) (c : Ctx) (p : Plan) : (s.setPlan c p).err = s.err := by
  cases c <;> rfl
@[simp] theorem State.setPlan_arg0 (s : State) (c : Ctx) (p : Plan) : (s.setPlan c p).arg0 = s.arg0 := by
  cases c <;> rfl
@[simp] theorem State.setPlan_arg1 (s : State) (c : Ctx) (p : Plan) : (s.setPlan c p).arg1 = s.arg1 := by
  cases c <;> rfl
@[simp] theorem State.setPlan_res0 (s : State) (c : Ctx) (p : Plan) : (s.setPlan c p).res0 = s.res0 := by
  cases c <;> rfl
@[simp] theorem State.setPlan_res1 (s : State) (c : Ctx) (p : Plan) : (s.setPlan c p).res1 = s.res1 := by
  cases c <;> rfl
@[simp] theorem State.setPlan_lastCmd (s : State) (c : Ctx) (p : Plan) : (s.setPlan c p).lastCmd = s.lastCmd := by
  cases c <;> rfl
@[simp] theorem State.setPlan_lCmd (s : State) (c : Ctx) (p : Plan) : (s.setPlan c p).lCmd = s.lCmd := by
  cases c <;> rfl
@[simp] theorem State.setPlan_lArg0 (s : State) (c : Ctx) (p : Plan) : (s.setPlan c p).lArg0 = s.lArg0 := by
  cases c <;> rfl
@[simp] theorem State.setPlan_lArg1 (s : State) (c : Ctx) (p : Plan) : (s.setPlan c p).lArg1 = s.lArg1 := by
  cases c <;> rfl
@[simp] theorem State.setPlan_v2d (s : State) (c : Ctx) (p : Plan) : (s.setPlan c p).v2d = s.v2d := by
  cases c <;> rfl
@[simp] theorem State.setPlan_mem (s : State) (c : Ctx) (p : Plan) : (s.setPlan c p).mem = s.mem := by
  cases c <;> rfl
@[simp] theorem State.setPlan_wait (s : State) (c : Ctx) (p : Plan) : (s.setPlan c p).wait = s.wait := by
  cases c <;> rfl
@[simp] theorem State.setPlan_latencies (s : State) (c : Ctx) (p : Plan) : (s.setPlan c p).latencies = s.latencies := by
  cases c <;> rfl
@[simp] theorem State.setPlan_hostOps (s : State) (c : Ctx) (p : Plan) : (s.setPlan c p).hostOps = s.hostOps := by
  cases c <;> rfl
@[simp] theorem State.setPlan_replies (s : State) (c : Ctx) (p : Plan) : (s.setPlan c p).replies = s.replies := by
  cases c <;> rfl

end Sys2Proof.Machine
end

