-- ==== Sys2Proof/Laws/Writes.lean ====
section
/-! SUPPORT. Memories reached by storing or zeroing elements from a given set: said once, so that each engine function needs one
lemma (which elements it writes), from which its frame, the canonical form and the mapped addresses all follow. -/

namespace Sys2Proof.Machine

open Sys2Proof

/-- `m'` is reached from `m` by storing or zeroing elements (b, i) with `P b i` only. -/
inductive Memory.Writes (P : Buf → Nat → Prop) (m : Memory) : Memory → Prop
  | refl : Memory.Writes P m m
  | store {m' : Memory} (h : Memory.Writes P m m') (b : Buf) (i : Nat) (v : Word) (hp : P b i) :
      Memory.Writes P m (m'.set b i v)
  | zero {m' : Memory} (h : Memory.Writes P m m') (b : Buf) (n : Nat) (hp : ∀ i < n, P b i) :
      Memory.Writes P m (m'.zero b n)

namespace Memory.Writes

variable {P Q : Buf → Nat → Prop} {m m' m'' : Memory}

theorem trans (h : Memory.Writes P m m') (g : Memory.Writes P m' m'') : Memory.Writes P m m'' := by
  induction g with
  | refl => exact h
  | store _ b i v hp ih => exact ih.store b i v hp
  | zero _ b n hp ih => exact ih.zero b n hp

theorem mono (h : Memory.Writes P m m') (hpq : ∀ b i, P b i → Q b i) : Memory.Writes Q m m' := by
  induction h with
  | refl => exact .refl
  | store _ b i v hp ih => exact ih.store b i v (hpq b i hp)
  | zero _ b n hp ih => exact ih.zero b n fun i hi => hpq b i (hp i hi)

/-- A loop whose body stores only such elements. -/
theorem foldl {α : Type} (f : Memory → α → Memory) (l : List α)
    (h : ∀ x ∈ l, ∀ m : Memory, Memory.Writes P m (f m x)) (m : Memory) : Memory.Writes P m (l.foldl f m) := by
  induction l generalizing m with
  | nil => exact .refl
  | cons x l ih => exact (h x (by simp) m).trans (ih (fun y hy => h y (by simp [hy])) _)

/-- The canonical form is kept. -/
theorem wf (h : Memory.Writes P m m') (hm : m.wf = true) : m'.wf = true := by
  induction h with
  | refl => exact hm
  | store _ b i v _ ih => exact Memory.wf_set _ b i v ih
  | zero _ b n _ ih => exact Memory.wf_zero _ b n ih

/-- Bytes outside the stored elements are as before. -/
theorem read8 (h : Memory.Writes P m m') (a : Nat) (ha : ∀ b i, P b i → a < b.addr i ∨ b.addr i + 4 ≤ a) :
    m'.read8 a = m.read8 a := by
  induction h with
  | refl => rfl
  | store _ b i v hp ih => rw [Memory.read8_set_of_outside _ _ _ _ _ (ha b i hp), ih]
  | zero _ b n hp ih =>
    rw [Memory.read8_zero_of_outside, ih]
    by_contra hc
    have := ha b ((a - b.base) / 4) (hp _ (by unfold Buf.addr at hc; omega))
    unfold Buf.addr at hc this
    omega

/-- Elements outside the stored ones are as before. -/
theorem get (h : Memory.Writes P m m') (hroom : ∀ b i, P b i → i < b.room) {b : Buf} {i : Nat} (hi : i < b.room)
    (hp : ¬P b i) : m'.get b i = m.get b i := by
  induction h with
  | refl => rfl
  | store _ d j v hd ih =>
    rw [Memory.get_set _ _ (hroom d j hd) hi, if_neg, ih]
    rintro ⟨rfl, rfl⟩
    exact hp hd
  | zero _ d n hd ih =>
    rw [Memory.get_zero _ ?_ hi, if_neg, ih]
    · rintro ⟨rfl, hlt⟩
      exact hp (hd i hlt)
    · rcases Nat.eq_zero_or_pos n with rfl | hn
      · omega
      · have := hroom d (n - 1) (hd _ (by omega))
        omega

end Memory.Writes

/-! ## Listed addresses -/

theorem Memory.mem_write8 (m : Memory) (a : Nat) (v : Byte) (c : Host.Cell) (h : c ∈ m.write8 a v) :
    c.1 = a ∨ c ∈ m := by
  unfold Memory.write8 at h
  split_ifs at h
  · exact .inr (List.mem_of_mem_filter h)
  · rcases Memory.mem_insertByte m a v c h with h | h
    · exact .inl (by rw [h])
    · exact .inr h

theorem Memory.mem_set (m : Memory) (b : Buf) (i : Nat) (v : Word) (c : Host.Cell) (h : c ∈ m.set b i v) :
    (b.addr i ≤ c.1 ∧ c.1 < b.addr i + 4) ∨ c ∈ m := by
  unfold Memory.set Memory.write32 at h
  rcases Memory.mem_write8 _ _ _ _ h with h | h
  · left; omega
  rcases Memory.mem_write8 _ _ _ _ h with h | h
  · left; omega
  rcases Memory.mem_write8 _ _ _ _ h with h | h
  · left; omega
  rcases Memory.mem_write8 _ _ _ _ h with h | h
  · left; omega
  · exact .inr h

theorem isDataByte_of_elem (bd : Build) (b : Buf) (i a : Nat) (hi : i < b.count bd) (ha : b.addr i ≤ a)
    (ha' : a < b.addr i + 4) : isDataByte bd a = true := by
  unfold isDataByte dataWindows
  rw [List.any_eq_true]
  refine ⟨_, List.mem_map.mpr ⟨b, b.mem_all, rfl⟩, ?_⟩
  unfold Buf.addr at ha ha'
  simp only [Window.holds, Bool.and_eq_true, decide_eq_true_eq]
  omega

theorem Memory.mapped_zero {bd : Build} (m : Memory) (b : Buf) (n : Nat) (hm : ∀ c ∈ m, isDataByte bd c.1 = true) :
    ∀ c ∈ m.zero b n, isDataByte bd c.1 = true :=
  fun c hc => hm c (List.mem_of_mem_filter hc)

/-- Storing elements of the build's data memories lists no address outside them. -/
theorem Memory.Writes.mapped {P : Buf → Nat → Prop} {m m' : Memory} {bd : Build} (h : Memory.Writes P m m')
    (hp : ∀ b i, P b i → i < b.count bd) (hm : ∀ c ∈ m, isDataByte bd c.1 = true) :
    ∀ c ∈ m', isDataByte bd c.1 = true := by
  induction h with
  | refl => exact hm
  | store _ b i v hb ih =>
    intro c hc
    rcases Memory.mem_set _ _ _ _ _ hc with ⟨h1, h2⟩ | hc
    · exact isDataByte_of_elem bd b i c.1 (hp b i hb) h1 h2
    · exact ih c hc
  | zero _ b n _ ih => exact Memory.mapped_zero _ b n ih

theorem Memory.mapped_ofCells (bd : Build) (cells : List Host.Cell) :
    ∀ c ∈ Memory.ofCells bd cells, isDataByte bd c.1 = true := by
  unfold Memory.ofCells
  suffices h : ∀ m : Memory, (∀ c ∈ m, isDataByte bd c.1 = true) →
      ∀ c ∈ cells.foldl (fun m cell => if isDataByte bd cell.1 then m.write8 cell.1 cell.2 else m) m,
        isDataByte bd c.1 = true from h [] (by simp)
  induction cells with
  | nil => intro m hm; exact hm
  | cons x cells ih =>
    intro m hm
    apply ih
    dsimp only
    split_ifs with hx
    · intro c hc
      rcases Memory.mem_write8 _ _ _ _ hc with h | h
      · rw [h]; exact hx
      · exact hm c h
    · exact hm

end Sys2Proof.Machine
end

