-- ==== Sys2Proof/Laws/Engine.lean ====
section
/-! SUPPORT. The butterfly engine: which elements each of its functions stores, and what one butterfly, one block and one
pass do to the values of a context, seen as a function of the index. -/

namespace Sys2Proof.Machine

open Sys2Proof

/-- The elements of a context's two buffers below n. -/
def ctxElems (c : Ctx) (n : Nat) (b : Buf) (i : Nat) : Prop := (b = .re c ∨ b = .im c) ∧ i < n

theorem ctxElems_mono {c : Ctx} {n n' : Nat} (h : n ≤ n') (b : Buf) (i : Nat) (hb : ctxElems c n b i) :
    ctxElems c n' b i :=
  ⟨hb.1, lt_of_lt_of_le hb.2 h⟩

theorem ctxElems_room {c : Ctx} {n : Nat} (h : n ≤ 32768) (b : Buf) (i : Nat) (hb : ctxElems c n b i) : i < b.room := by
  obtain ⟨rfl | rfl, hi⟩ := hb <;> simp only [Buf.room] <;> omega

/-! ## Which elements are stored -/

theorem butterfly_writes (e : Engine) (p q : Nat) (wr wi : Int) (m : Memory) (n : Nat) (hp : p < n) (hq : q < n) :
    Memory.Writes (ctxElems e.ctx n) m (butterfly e p q wr wi m) := by
  unfold butterfly
  exact (((Memory.Writes.refl.store _ _ _ ⟨.inl rfl, hp⟩).store _ _ _ ⟨.inr rfl, hp⟩).store _ _ _ ⟨.inl rfl, hq⟩).store
    _ _ _ ⟨.inr rfl, hq⟩

theorem passBlock_writes (e : Engine) (s stride n : Nat) (count p ctr : Nat) (m : Memory) (h : p + count + s ≤ n) :
    Memory.Writes (ctxElems e.ctx n) m (passBlock e s stride count p ctr m).2 := by
  induction count generalizing p ctr m with
  | zero => exact .refl
  | succ count ih =>
    unfold passBlock
    exact (butterfly_writes e p (p + s) _ _ m n (by omega) (by omega)).trans (ih (p + 1) _ _ (by omega))

theorem passLoop_writes (e : Engine) (s stride groups : Nat) (hlen : e.len = 2 * s * groups) (bound g ctr : Nat)
    (m : Memory) :
    Memory.Writes (ctxElems e.ctx e.len) m (passLoop e s stride bound (2 * s * g) ctr m) := by
  induction bound generalizing g ctr m with
  | zero => exact .refl
  | succ bound ih =>
    unfold passLoop
    split_ifs with hj
    · have hg : g + 1 ≤ groups := by
        rw [hlen] at hj
        exact Nat.lt_of_mul_lt_mul_left hj
      have hroom : 2 * s * g + s + s ≤ e.len := by
        calc 2 * s * g + s + s = 2 * s * (g + 1) := by ring
          _ ≤ 2 * s * groups := Nat.mul_le_mul_left _ hg
          _ = e.len := hlen.symm
      have := ih (g + 1) (passBlock e s stride s (2 * s * g) ctr m).1 (passBlock e s stride s (2 * s * g) ctr m).2
      rw [show 2 * s * (g + 1) = 2 * s * g + 2 * s by ring] at this
      exact (passBlock_writes e s stride e.len s (2 * s * g) ctr m hroom).trans this
    · exact .refl

theorem passSteps_writes (e : Engine) (steps k stride : Nat) (hlen : e.len = 2 ^ (k + steps)) (m : Memory) :
    Memory.Writes (ctxElems e.ctx e.len) m (passSteps e steps (2 ^ k) stride m) := by
  induction steps generalizing k stride m with
  | zero => exact .refl
  | succ steps ih =>
    unfold passSteps
    have h1 : e.len = 2 * 2 ^ k * 2 ^ steps := by rw [hlen]; ring
    have := passLoop_writes e (2 ^ k) stride (2 ^ steps) h1 e.len 0 0 m
    refine this.trans ?_
    rw [show (2 ^ k) <<< 1 = 2 ^ (k + 1) by rw [Nat.shiftLeft_eq]; ring]
    exact ih (k + 1) (stride >>> 1) (by rw [hlen]; congr 1; omega) _

theorem normalise_writes (e : Engine) (m : Memory) : Memory.Writes (ctxElems e.ctx e.len) m (normalise e m) := by
  unfold normalise
  refine Memory.Writes.foldl _ _ (fun i hi m => ?_) m
  have hi : i < e.len := List.mem_range.mp hi
  exact (Memory.Writes.refl.store _ _ _ ⟨.inl rfl, hi⟩).store _ _ _ ⟨.inr rfl, hi⟩

/-- PASSES stores elements below LENGTH of its context's buffers, nothing else (20_memory.md R105). -/
theorem passes_writes (e : Engine) (hlen : e.len = 2 ^ e.steps) (m : Memory) :
    Memory.Writes (ctxElems e.ctx e.len) m (passes e m) := by
  have h := passSteps_writes e e.steps 0 (e.len >>> 1) (by simpa using hlen) m
  unfold passes
  simp only [pow_zero] at h
  dsimp only
  split_ifs
  · exact h.trans (normalise_writes e _)
  · exact h

/-- A load stores elements below LENGTH of its context's buffers, nothing else. -/
theorem loadSamples_writes (e : Engine) (re im : Memory → Nat → Word) (m : Memory) :
    Memory.Writes (ctxElems e.ctx e.len) m (loadSamples e re im m) := by
  unfold loadSamples
  refine Memory.Writes.foldl _ _ (fun i hi m => ?_) m
  have hi : i < e.len := List.mem_range.mp hi
  exact (Memory.Writes.refl.store _ _ _ ⟨.inl rfl, hi⟩).store _ _ _ ⟨.inr rfl, hi⟩

/-! ## Values -/

/-- The upper output of a butterfly (43_butterfly.md R211). -/
def upper (fracBits : Nat) (a b : Word × Word) (w : Int × Int) : Word × Word :=
  (s32 (a.1.toInt + mulShift fracBits b.1.toInt w.1 - mulShift fracBits b.2.toInt w.2),
    s32 (a.2.toInt + mulShift fracBits b.2.toInt w.1 + mulShift fracBits b.1.toInt w.2))

/-- The lower output of a butterfly (43_butterfly.md R211). -/
def lower (fracBits : Nat) (a b : Word × Word) (w : Int × Int) : Word × Word :=
  (s32 (a.1.toInt - mulShift fracBits b.1.toInt w.1 + mulShift fracBits b.2.toInt w.2),
    s32 (a.2.toInt - mulShift fracBits b.2.toInt w.1 - mulShift fracBits b.1.toInt w.2))

/-- One pair of stores of a context's element, seen as values. -/
theorem Memory.pair_set_set (m : Memory) (c : Ctx) {p i : Nat} (x y : Word) (hp : p < 32768) (hi : i < 32768) :
    ((m.set (.re c) p x).set (.im c) p y).pair c i = if i = p then (x, y) else m.pair c i := by
  unfold Memory.pair
  rw [Memory.get_set _ _ (b := .im c) (b' := .re c) hp hi, Memory.get_set _ _ (b := .im c) (b' := .im c) hp hi,
    Memory.get_set _ _ (b := .re c) (b' := .re c) hp hi, Memory.get_set _ _ (b := .re c) (b' := .im c) hp hi]
  by_cases h : i = p
  · subst h; simp
  · simp [h, Ne.symm h]

/-- One butterfly on the values of its context. -/
theorem pair_butterfly (e : Engine) {p q i : Nat} (wr wi : Int) (m : Memory) (hp : p < 32768) (hq : q < 32768)
    (hi : i < 32768) (hpq : p ≠ q) :
    (butterfly e p q wr wi m).pair e.ctx i =
      if i = p then upper e.frac (m.pair e.ctx p) (m.pair e.ctx q) (wr, wi)
      else if i = q then lower e.frac (m.pair e.ctx p) (m.pair e.ctx q) (wr, wi)
      else m.pair e.ctx i := by
  unfold butterfly
  simp only
  rw [Memory.pair_set_set _ _ _ _ hq hi, Memory.pair_set_set _ _ _ _ hp hi]
  by_cases h1 : i = p
  · subst h1; simp [hpq, upper, Memory.pair]
  · by_cases h2 : i = q
    · subst h2; simp [h1, lower, Memory.pair]
    · simp [h1, h2]

theorem passBlock_counter (e : Engine) (s stride count p ctr : Nat) (m : Memory) :
    (passBlock e s stride count p ctr m).1 = ctr + count * stride := by
  induction count generalizing p ctr m with
  | zero => simp [passBlock]
  | succ count ih => rw [passBlock, ih]; ring

/-- A block of consecutive pairs on the values of its context: pair number t = i - p uses the counter value
`ctr + t · stride`. -/
theorem pair_passBlock (e : Engine) (s stride count p ctr : Nat) (m : Memory) (hc : count ≤ s)
    (hroom : p + s + count ≤ 32768) (i : Nat) (hi : i < 32768) :
    (passBlock e s stride count p ctr m).2.pair e.ctx i =
      if p ≤ i ∧ i < p + count then
        upper e.frac (m.pair e.ctx i) (m.pair e.ctx (i + s)) (e.twiddleAt (ctr + (i - p) * stride))
      else if p + s ≤ i ∧ i < p + s + count then
        lower e.frac (m.pair e.ctx (i - s)) (m.pair e.ctx i) (e.twiddleAt (ctr + (i - s - p) * stride))
      else m.pair e.ctx i := by
  induction count generalizing p ctr m with
  | zero => simp only [passBlock]; split_ifs <;> first | rfl | omega
  | succ count ih =>
    have hb : ∀ k, k < 32768 → _ := fun k hk =>
      pair_butterfly e (p := p) (q := p + s) (i := k) (e.twiddleAt ctr).1 (e.twiddleAt ctr).2 m (by omega) (by omega) hk
        (by omega)
    rw [passBlock, ih (p + 1) (ctr + stride) _ (by omega) (by omega)]
    by_cases h1 : i = p
    · subst h1
      rw [if_neg (by omega), if_neg (by omega), if_pos (by omega), hb i hi, if_pos rfl]
      simp
    by_cases h2 : i = p + s
    · subst h2
      rw [if_neg (by omega), if_neg (by omega), if_neg (by omega), if_pos (by omega), hb _ hi, if_neg h1, if_pos rfl]
      simp
    by_cases h3 : p + 1 ≤ i ∧ i < p + 1 + count
    · rw [if_pos h3, if_pos (by omega), hb i hi, hb (i + s) (by omega), if_neg h1, if_neg h2, if_neg (by omega),
        if_neg (by omega)]
      congr 2
      obtain ⟨t, rfl⟩ := Nat.exists_eq_add_of_le h3.1
      rw [show p + 1 + t - (p + 1) = t by omega, show p + 1 + t - p = t + 1 by omega]
      ring
    by_cases h4 : p + 1 + s ≤ i ∧ i < p + 1 + s + count
    · rw [if_neg h3, if_pos h4, if_neg (by omega), if_pos (by omega), hb i hi, hb (i - s) (by omega), if_neg h1,
        if_neg h2, if_neg (by omega), if_neg (by omega)]
      congr 2
      obtain ⟨t, rfl⟩ := Nat.exists_eq_add_of_le h4.1
      rw [show p + 1 + s + t - s - (p + 1) = t by omega, show p + 1 + s + t - s - p = t + 1 by omega]
      ring
    · rw [if_neg h3, if_neg h4, if_neg (by omega), if_neg (by omega), hb i hi, if_neg h1, if_neg h2]

/-- What one pass with group spacing s leaves at index i, from the values before it: the pair of i is (p, p + s) with p in
group i / (2·s), and its counter value counts the pairs before it. -/
def passValue (e : Engine) (s stride : Nat) (x : Nat → Word × Word) (i : Nat) : Word × Word :=
  if i % (2 * s) < s then
    upper e.frac (x i) (x (i + s)) (e.twiddleAt (i / (2 * s) * (s * stride) + i % (2 * s) * stride))
  else
    lower e.frac (x (i - s)) (x i) (e.twiddleAt (i / (2 * s) * (s * stride) + (i % (2 * s) - s) * stride))

/-- The rest of a pass, from group g on, on the values of its context. -/
theorem pair_passLoop_from (e : Engine) (s stride groups : Nat) (hs : 0 < s) (hlen : e.len = 2 * s * groups)
    (hroom : e.len ≤ 32768) (bound g : Nat) (hb : groups ≤ g + bound) (m : Memory) (i : Nat) (hi : i < e.len) :
    (passLoop e s stride bound (2 * s * g) (g * (s * stride)) m).pair e.ctx i =
      if i < 2 * s * g then m.pair e.ctx i else passValue e s stride (m.pair e.ctx) i := by
  induction bound generalizing g m with
  | zero =>
    have : i < 2 * s * g := by
      rw [hlen] at hi
      exact lt_of_lt_of_le hi (Nat.mul_le_mul_left _ (by omega))
    rw [if_pos this]; rfl
  | succ bound ih =>
    unfold passLoop
    by_cases hj : 2 * s * g < e.len
    · rw [if_pos hj]
      dsimp only
      have hg : g + 1 ≤ groups := by rw [hlen] at hj; exact Nat.lt_of_mul_lt_mul_left hj
      have hend : 2 * s * (g + 1) ≤ e.len := by rw [hlen]; exact Nat.mul_le_mul_left _ hg
      have hexp : 2 * s * (g + 1) = 2 * s * g + 2 * s := by ring
      have hblk : ∀ k, k < 32768 → _ := fun k hk =>
        pair_passBlock e s stride s (2 * s * g) (g * (s * stride)) m le_rfl (by omega) k hk
      rw [passBlock_counter, show g * (s * stride) + s * stride = (g + 1) * (s * stride) by ring, ← hexp,
        ih (g + 1) (by omega)]
      by_cases h1 : i < 2 * s * g
      · rw [if_pos (by omega), if_pos h1, hblk i (by omega), if_neg (by omega), if_neg (by omega)]
      · by_cases h2 : i < 2 * s * (g + 1)
        · rw [if_pos h2, if_neg h1, hblk i (by omega)]
          have hdiv : i / (2 * s) = g := by
            rw [Nat.div_eq_iff (by omega)]
            constructor
            · rw [Nat.mul_comm]; omega
            · have : g * (2 * s) = 2 * s * g := by ring
              omega
          have hmod : i % (2 * s) = i - 2 * s * g := by
            have := Nat.div_add_mod i (2 * s)
            rw [hdiv] at this
            omega
          unfold passValue
          rw [hdiv, hmod]
          by_cases h3 : i < 2 * s * g + s
          · rw [if_pos (by omega), if_pos (by omega)]
          · rw [if_neg (by omega), if_pos (by omega), if_neg (by omega)]
            congr 3
            congr 1
            omega
        · rw [if_neg h2, if_neg h1]
          have hge : 2 * s * (g + 1) ≤ i := by omega
          have hbase : 2 * s ≤ i := by
            have : 2 * s * 1 ≤ 2 * s * (g + 1) := Nat.mul_le_mul_left _ (by omega)
            omega
          -- the values this group reads lie beyond the block just done
          have hdm := Nat.div_add_mod i (2 * s)
          have hgi : g + 1 ≤ i / (2 * s) := (Nat.le_div_iff_mul_le (by omega)).mpr (by rw [Nat.mul_comm]; exact hge)
          have hgm : 2 * s * (g + 1) ≤ 2 * s * (i / (2 * s)) := Nat.mul_le_mul_left _ hgi
          have hml : i % (2 * s) < 2 * s := Nat.mod_lt _ (by omega)
          have hil : i / (2 * s) < groups := by
            rw [Nat.div_lt_iff_lt_mul (by omega), Nat.mul_comm, ← hlen]; exact hi
          have hfull : 2 * s * (i / (2 * s)) + 2 * s ≤ e.len := by
            calc 2 * s * (i / (2 * s)) + 2 * s = 2 * s * (i / (2 * s) + 1) := by ring
              _ ≤ 2 * s * groups := Nat.mul_le_mul_left _ hil
              _ = e.len := hlen.symm
          have hsame : ∀ k, 2 * s * (g + 1) ≤ k → k < e.len →
              (passBlock e s stride s (2 * s * g) (g * (s * stride)) m).2.pair e.ctx k = m.pair e.ctx k := by
            intro k hk hk'
            rw [hblk k (by omega), if_neg (by omega), if_neg (by omega)]
          unfold passValue
          split_ifs with h3
          · rw [hsame i (by omega) hi, hsame (i + s) (by omega) (by omega)]
          · rw [hsame i (by omega) hi, hsame (i - s) (by omega) (by omega)]
    · rw [if_neg hj, if_pos (by omega)]

/-- One whole pass on the values of its context (43_butterfly.md R212, R215). -/
theorem pair_passLoop (e : Engine) (s stride groups : Nat) (hs : 0 < s) (hlen : e.len = 2 * s * groups)
    (hroom : e.len ≤ 32768) (m : Memory) (i : Nat) (hi : i < e.len) :
    (passLoop e s stride e.len 0 0 m).pair e.ctx i = passValue e s stride (m.pair e.ctx) i := by
  have hb : groups ≤ 0 + e.len := by
    rw [hlen, Nat.zero_add]
    calc groups = 1 * groups := (Nat.one_mul _).symm
      _ ≤ 2 * s * groups := Nat.mul_le_mul_right _ (by omega)
  have := pair_passLoop_from e s stride groups hs hlen hroom e.len 0 hb m i hi
  simpa using this

/-- A loop that stores a value of its own at each index: element i ends as the value computed for i, where no value
computed depends on the elements stored. -/
theorem pair_foldl_range (c : Ctx) (n : Nat) (hn : n ≤ 32768) (f : Memory → Nat → Word × Word) (m : Memory)
    (v : Nat → Word × Word)
    (hf : ∀ k < n, ∀ m' : Memory, Memory.Writes (ctxElems c k) m m' → f m' k = v k) (i : Nat) (hi : i < n) :
    ((List.range n).foldl (fun m k => (m.set (.re c) k (f m k).1).set (.im c) k (f m k).2) m).pair c i = v i := by
  have key : ∀ k ≤ n,
      Memory.Writes (ctxElems c k) m
          ((List.range k).foldl (fun m k => (m.set (.re c) k (f m k).1).set (.im c) k (f m k).2) m) ∧
        ∀ i < k, ((List.range k).foldl (fun m k => (m.set (.re c) k (f m k).1).set (.im c) k (f m k).2) m).pair c i =
          v i := by
    intro k hk
    induction k with
    | zero => exact ⟨.refl, fun i hi => absurd hi (by omega)⟩
    | succ k ih =>
      obtain ⟨hw, hv⟩ := ih (by omega)
      rw [List.range_succ, List.foldl_append]
      simp only [List.foldl_cons, List.foldl_nil]
      refine ⟨((hw.mono (ctxElems_mono (by omega))).store _ _ _ ⟨.inl rfl, by omega⟩).store _ _ _
        ⟨.inr rfl, by omega⟩, fun i hi => ?_⟩
      rw [Memory.pair_set_set _ _ _ _ (by omega) (by omega)]
      by_cases h : i = k
      · subst h
        rw [if_pos rfl, hf i (by omega) _ hw]
      · rw [if_neg h, hv i (by omega)]
  exact (key n le_rfl).2 i hi

end Sys2Proof.Machine
end

