-- ==== Sys2Proof/Laws/Passes.lean ====
section
/-! SUPPORT. PASSES and the loads on the values of a context: all passes, the final shift of the inverse direction, and
the gather of the samples. -/

namespace Sys2Proof.Machine

open Sys2Proof

/-- One pass reads only indices below the length. -/
theorem passValue_congr (e : Engine) (s stride groups : Nat) (hs : 0 < s) (hlen : e.len = 2 * s * groups)
    {x y : Nat → Word × Word} (h : ∀ k < e.len, x k = y k) {i : Nat} (hi : i < e.len) :
    passValue e s stride x i = passValue e s stride y i := by
  have hdm := Nat.div_add_mod i (2 * s)
  have hml : i % (2 * s) < 2 * s := Nat.mod_lt _ (by omega)
  have hil : i / (2 * s) < groups := by
    rw [Nat.div_lt_iff_lt_mul (by omega), Nat.mul_comm, ← hlen]; exact hi
  have hfull : 2 * s * (i / (2 * s)) + 2 * s ≤ e.len := by
    calc 2 * s * (i / (2 * s)) + 2 * s = 2 * s * (i / (2 * s) + 1) := by ring
      _ ≤ 2 * s * groups := Nat.mul_le_mul_left _ hil
      _ = e.len := hlen.symm
  unfold passValue
  split_ifs with h1
  · rw [h i hi, h (i + s) (by omega)]
  · rw [h i hi, h (i - s) (by omega)]

/-- All passes from group spacing s on, as a function of the values before them. -/
def passValues (e : Engine) : (steps s stride : Nat) → (Nat → Word × Word) → Nat → Word × Word
  | 0, _, _, x => x
  | steps + 1, s, stride, x => passValues e steps (2 * s) (stride >>> 1) (passValue e s stride x)

theorem passValues_congr (e : Engine) (steps k stride : Nat) (hlen : e.len = 2 ^ (k + steps))
    {x y : Nat → Word × Word} (h : ∀ j < e.len, x j = y j) {i : Nat} (hi : i < e.len) :
    passValues e steps (2 ^ k) stride x i = passValues e steps (2 ^ k) stride y i := by
  induction steps generalizing k stride x y with
  | zero => exact h i hi
  | succ steps ih =>
    simp only [passValues]
    rw [show 2 * 2 ^ k = 2 ^ (k + 1) by ring]
    refine ih (k + 1) (stride >>> 1) (by rw [hlen]; congr 1; omega) fun j hj => ?_
    exact passValue_congr e (2 ^ k) stride (2 ^ steps) (by positivity) (by rw [hlen]; ring) h hj

/-- The outer loop on the values of its context (43_butterfly.md R212). -/
theorem pair_passSteps (e : Engine) (steps k stride : Nat) (hlen : e.len = 2 ^ (k + steps)) (hroom : e.len ≤ 32768)
    (m : Memory) {i : Nat} (hi : i < e.len) :
    (passSteps e steps (2 ^ k) stride m).pair e.ctx i = passValues e steps (2 ^ k) stride (m.pair e.ctx) i := by
  induction steps generalizing k stride m with
  | zero => rfl
  | succ steps ih =>
    have hg : e.len = 2 * 2 ^ k * 2 ^ steps := by rw [hlen]; ring
    have hlen' : e.len = 2 ^ (k + 1 + steps) := by rw [hlen]; congr 1; omega
    simp only [passSteps, passValues]
    rw [show 2 ^ k <<< 1 = 2 ^ (k + 1) by rw [Nat.shiftLeft_eq]; ring, ih (k + 1) _ hlen',
      show 2 * 2 ^ k = 2 ^ (k + 1) by ring]
    refine passValues_congr e steps (k + 1) _ hlen' (fun j hj => ?_) hi
    exact pair_passLoop e (2 ^ k) stride (2 ^ steps) (by positivity) hg hroom m j hj

/-- The final shift on the values of its context (43_butterfly.md R214). -/
theorem pair_normalise (e : Engine) (hroom : e.len ≤ 32768) (m : Memory) {i : Nat} (hi : i < e.len) :
    (normalise e m).pair e.ctx i =
      (s32 (asr (m.pair e.ctx i).1.toInt e.steps), s32 (asr (m.pair e.ctx i).2.toInt e.steps)) := by
  refine pair_foldl_range e.ctx e.len hroom
    (fun m k => (s32 (asr (m.get (.re e.ctx) k).toInt e.steps), s32 (asr (m.get (.im e.ctx) k).toInt e.steps))) m
    (fun i => (s32 (asr (m.pair e.ctx i).1.toInt e.steps), s32 (asr (m.pair e.ctx i).2.toInt e.steps)))
    (fun k hk m' hw => ?_) i hi
  have hr : ∀ b j, ctxElems e.ctx k b j → j < b.room := ctxElems_room (by omega)
  have hk' : k < 32768 := by omega
  have h1 := hw.get hr (b := .re e.ctx) (i := k) hk' fun h => by have := h.2; omega
  have h2 := hw.get hr (b := .im e.ctx) (i := k) hk' fun h => by have := h.2; omega
  simp only [h1, h2]
  rfl

/-- What PASSES leaves at index i, as a function of the values before it (43_butterfly.md R212, R214). -/
def passesValue (e : Engine) (x : Nat → Word × Word) (i : Nat) : Word × Word :=
  let y := passValues e e.steps 1 (e.len >>> 1) x i
  if e.inverse then (s32 (asr y.1.toInt e.steps), s32 (asr y.2.toInt e.steps)) else y

theorem passesValue_congr (e : Engine) (hlen : e.len = 2 ^ e.steps) {x y : Nat → Word × Word}
    (h : ∀ j < e.len, x j = y j) {i : Nat} (hi : i < e.len) : passesValue e x i = passesValue e y i := by
  have := passValues_congr e e.steps 0 (e.len >>> 1) (by simpa using hlen) h hi
  rw [pow_zero] at this
  unfold passesValue
  rw [this]

/-- PASSES on the values of its context (43_butterfly.md R212, R214, R215). -/
theorem pair_passes (e : Engine) (hlen : e.len = 2 ^ e.steps) (hroom : e.len ≤ 32768) (m : Memory) {i : Nat}
    (hi : i < e.len) : (passes e m).pair e.ctx i = passesValue e (m.pair e.ctx) i := by
  have h := pair_passSteps e e.steps 0 (e.len >>> 1) (by simpa using hlen) hroom m hi
  rw [pow_zero] at h
  unfold passes passesValue
  dsimp only
  split_ifs with hv
  · rw [pair_normalise e hroom _ hi, h]
  · exact h

/-- A load on the values of its context, where the samples do not lie in the context's own buffers (43_butterfly.md R201,
R202). -/
theorem pair_loadSamples (e : Engine) (hroom : e.len ≤ 32768) (re im : Memory → Nat → Word) (m : Memory)
    (hre : ∀ m', Memory.Writes (ctxElems e.ctx e.len) m m' → ∀ i < e.len,
      re m' (bitrev i e.steps) = re m (bitrev i e.steps))
    (him : ∀ m', Memory.Writes (ctxElems e.ctx e.len) m m' → ∀ i < e.len,
      im m' (bitrev i e.steps) = im m (bitrev i e.steps)) {i : Nat} (hi : i < e.len) :
    (loadSamples e re im m).pair e.ctx i =
      (scaleIn e.frac (re m (bitrev i e.steps)), scaleIn e.frac (im m (bitrev i e.steps))) := by
  refine pair_foldl_range e.ctx e.len hroom
    (fun m k => (scaleIn e.frac (re m (bitrev k e.steps)), scaleIn e.frac (im m (bitrev k e.steps)))) m
    (fun i => (scaleIn e.frac (re m (bitrev i e.steps)), scaleIn e.frac (im m (bitrev i e.steps))))
    (fun k hk m' hw => ?_) i hi
  have hw' := hw.mono (ctxElems_mono (c := e.ctx) (show k ≤ e.len by omega))
  simp only [hre m' hw' k hk, him m' hw' k hk]

end Sys2Proof.Machine
end

