-- ==== Sys2Proof/Laws/Transform2d.lean ====
section
/-! SUPPORT. One row and one column of the 2D transform: which elements each stores, and what it leaves there. -/

namespace Sys2Proof.Machine

open Sys2Proof

/-- A bit reversal stays inside its width (41_plan.md R171). -/
theorem bitrev_bound (i b : Nat) : bitrev i b < 2 ^ b := by
  unfold bitrev
  refine List.foldlRecOn (motive := fun r => r < 2 ^ b) (List.range b) _ (by positivity) fun r hr t ht => ?_
  have ht : t < b := List.mem_range.mp ht
  split_ifs
  · exact Nat.or_lt_two_pow hr (by rw [Nat.one_shiftLeft]; exact Nat.pow_lt_pow_right (by norm_num) (by omega))
  · exact hr

/-- The first n elements of the two buffers of a matrix. -/
def matElems (re im : Buf) (n : Nat) (b : Buf) (i : Nat) : Prop := (b = re ∨ b = im) ∧ i < n

/-- A loop that stores a pair of values of its own at each of its own indices, where no value computed depends on the
elements stored: each index ends with the value computed for it. -/
theorem get_scatter (re im : Buf) (hne : re ≠ im) (n : Nat) (g : Nat → Nat)
    (hre : ∀ j < n, g j < re.room) (him : ∀ j < n, g j < im.room) (hinj : ∀ j < n, ∀ k < n, g j = g k → j = k)
    (f : Memory → Nat → Word × Word) (m : Memory) (v : Nat → Word × Word)
    (hf : ∀ k < n, ∀ m', Memory.Writes (fun b i => (b = re ∨ b = im) ∧ ∃ j < n, i = g j) m m' → f m' k = v k)
    {j : Nat} (hj : j < n) :
    (((List.range n).foldl (fun m j => (m.set re (g j) (f m j).1).set im (g j) (f m j).2) m).get re (g j),
      ((List.range n).foldl (fun m j => (m.set re (g j) (f m j).1).set im (g j) (f m j).2) m).get im (g j)) = v j := by
  have key : ∀ k ≤ n,
      Memory.Writes (fun b i => (b = re ∨ b = im) ∧ ∃ j < n, i = g j) m
          ((List.range k).foldl (fun m j => (m.set re (g j) (f m j).1).set im (g j) (f m j).2) m) ∧
        ∀ j < k,
          (((List.range k).foldl (fun m j => (m.set re (g j) (f m j).1).set im (g j) (f m j).2) m).get re (g j),
            ((List.range k).foldl (fun m j => (m.set re (g j) (f m j).1).set im (g j) (f m j).2) m).get im (g j)) =
            v j := by
    intro k hk
    induction k with
    | zero => exact ⟨.refl, fun j hj => absurd hj (by omega)⟩
    | succ k ih =>
      obtain ⟨hw, hv⟩ := ih (by omega)
      rw [List.range_succ, List.foldl_append]
      simp only [List.foldl_cons, List.foldl_nil]
      refine ⟨(hw.store _ _ _ ⟨.inl rfl, k, by omega, rfl⟩).store _ _ _ ⟨.inr rfl, k, by omega, rfl⟩, fun j hj => ?_⟩
      have hjn : j < n := by omega
      have hkn : k < n := by omega
      rw [Memory.get_set _ _ (him k hkn) (hre j hjn), Memory.get_set _ _ (him k hkn) (him j hjn),
        Memory.get_set _ _ (hre k hkn) (hre j hjn), Memory.get_set _ _ (hre k hkn) (him j hjn)]
      by_cases h : j = k
      · subst h
        simp [hne.symm, hf j hjn _ hw]
      · have hg : g k ≠ g j := fun hg => h (hinj k hkn j hjn hg).symm
        simp [hg, hv j (by omega)]
  exact (key n le_rfl).2 j hj

/-! ## Rows -/

/-- The elements of one column of a pair of matrices `width` words wide: entry `x` of each of the first n rows. -/
def stridedElems (re im : Buf) (n width x : Nat) (b : Buf) (i : Nat) : Prop :=
  (b = re ∨ b = im) ∧ ∃ j < n, i = j * width + x

/-- The elements a row may store: R's buffers below cols, and entry x of each of the cols rows of TR. -/
def rowElems (c : Ctx) (rows cols x : Nat) (b : Buf) (i : Nat) : Prop :=
  ctxElems c cols b i ∨ stridedElems .trRe .trIm cols rows x b i

theorem index_lt {j x rows cols : Nat} (hj : j < cols) (hx : x < rows) : j * rows + x < cols * rows := by
  calc j * rows + x < j * rows + rows := by omega
    _ = (j + 1) * rows := by ring
    _ ≤ cols * rows := Nat.mul_le_mul_right _ hj

/-- Row i of MAT_IN as the samples of a load, in the order of the load (45_transform2d.md R271). -/
def rowSamples (e : Engine) (m : Memory) (i k : Nat) : Word × Word :=
  (scaleIn e.frac (m.get .matIn (i * e.len + bitrev k e.steps)), scaleIn e.frac 0)

/-- An entry of a matrix is in one column only. -/
theorem index_inj {j j' x x' width : Nat} (hx : x < width) (hx' : x' < width) (h : j * width + x = j' * width + x') :
    j = j' ∧ x = x' := by
  have h1 := congrArg (· % width) h
  simp only [Nat.mul_add_mod_self_right, Nat.mod_eq_of_lt hx, Nat.mod_eq_of_lt hx'] at h1
  subst h1
  exact ⟨Nat.eq_of_mul_eq_mul_right (by omega : 0 < width) (Nat.add_right_cancel h), rfl⟩

theorem rowPass_writes (e : Engine) (rows colSteps : Nat) (hlen : e.len = 2 ^ e.steps) (m : Memory) (i : Nat) :
    Memory.Writes (rowElems e.ctx rows e.len (bitrev i colSteps)) m (rowPass e rows colSteps m i) := by
  unfold rowPass
  have hl := loadSamples_writes e (fun m k => m.get .matIn (i * e.len + k)) (fun _ _ => 0) m
  refine ((hl.trans (passes_writes e hlen _)).mono fun b i h => .inl h).trans ?_
  refine Memory.Writes.foldl _ _ (fun j hj m => ?_) _
  have hj : j < e.len := List.mem_range.mp hj
  exact (Memory.Writes.refl.store _ _ _ (.inr ⟨.inl rfl, j, hj, rfl⟩)).store _ _ _ (.inr ⟨.inr rfl, j, hj, rfl⟩)

/-- The memory of a row before its scatter. -/
theorem pair_rowLoad (e : Engine) (hlen : e.len = 2 ^ e.steps) (hroom : e.len ≤ 32768) (m : Memory) (i : Nat)
    (hmat : i * e.len + e.len ≤ 4194304) {j : Nat} (hj : j < e.len) :
    (passes e (loadSamples e (fun m k => m.get .matIn (i * e.len + k)) (fun _ _ => 0) m)).pair e.ctx j =
      passesValue e (rowSamples e m i) j := by
  rw [pair_passes e hlen hroom _ hj]
  refine passesValue_congr e hlen (fun k hk => ?_) hj
  have hb : bitrev k e.steps < e.len := hlen ▸ bitrev_bound k e.steps
  rw [pair_loadSamples e hroom _ _ _ (fun m' hw j hj => ?_) (fun _ _ _ _ => rfl) hk]
  · rfl
  · have hb : bitrev j e.steps < e.len := hlen ▸ bitrev_bound j e.steps
    refine hw.get (ctxElems_room hroom) ?_ (by rintro ⟨h | h, -⟩ <;> cases h)
    show _ < 4194304
    omega

/-- What row i leaves: element j of its transform in R and at TR[j·rows + bitrev(i, STEPS(C))] (45_transform2d.md
R271, R272). -/
theorem rowPass_values (e : Engine) (rows colSteps : Nat) (hlen : e.len = 2 ^ e.steps) (hroom : e.len ≤ 32768)
    (hrows : rows = 2 ^ colSteps) (hmat : e.len * rows ≤ 4194304) (m : Memory) (i : Nat) (hi : i < rows) {j : Nat}
    (hj : j < e.len) :
    ((rowPass e rows colSteps m i).get .trRe (j * rows + bitrev i colSteps),
        (rowPass e rows colSteps m i).get .trIm (j * rows + bitrev i colSteps)) = passesValue e (rowSamples e m i) j ∧
      (rowPass e rows colSteps m i).pair e.ctx j = passesValue e (rowSamples e m i) j := by
  have hx : bitrev i colSteps < rows := hrows ▸ bitrev_bound i colSteps
  have hin : i * e.len + e.len ≤ 4194304 := by
    calc i * e.len + e.len = (i + 1) * e.len := by ring
      _ ≤ rows * e.len := Nat.mul_le_mul_right _ hi
      _ ≤ 4194304 := by rw [Nat.mul_comm]; exact hmat
  have hidx : ∀ j < e.len, j * rows + bitrev i colSteps < 4194304 := fun j hj =>
    lt_of_lt_of_le (index_lt hj hx) hmat
  have hrows0 : 0 < rows := by omega
  have hinj : ∀ j < e.len, ∀ k < e.len, j * rows + bitrev i colSteps = k * rows + bitrev i colSteps → j = k :=
    fun j _ k _ h => Nat.eq_of_mul_eq_mul_right hrows0 (by omega)
  have hw : ∀ m m' : Memory, Memory.Writes (fun b x => (b = .trRe ∨ b = .trIm) ∧ ∃ j < e.len, x = j * rows +
      bitrev i colSteps) m m' → ∀ k < e.len, m'.pair e.ctx k = m.pair e.ctx k := by
    intro m m' hw k hk
    have hr : ∀ b x, ((b = Buf.trRe ∨ b = .trIm) ∧ ∃ j < e.len, x = j * rows + bitrev i colSteps) → x < b.room := by
      rintro b x ⟨rfl | rfl, j, hj, rfl⟩ <;> exact hidx j hj
    unfold Memory.pair
    rw [hw.get hr (b := .re e.ctx) (show k < 32768 by omega) (by rintro ⟨h | h, -⟩ <;> cases h),
      hw.get hr (b := .im e.ctx) (show k < 32768 by omega) (by rintro ⟨h | h, -⟩ <;> cases h)]
  unfold rowPass
  dsimp only
  constructor
  · refine get_scatter .trRe .trIm (by decide) e.len (fun j => j * rows + bitrev i colSteps) hidx hidx hinj
      (fun m j => m.pair e.ctx j) _ (passesValue e (rowSamples e m i)) (fun k hk m' h => ?_) hj
    rw [hw _ _ h k hk, pair_rowLoad e hlen hroom m i hin hk]
  · rw [hw _ _ (Memory.Writes.foldl _ _ (fun j hj m => ?_) _) j hj, pair_rowLoad e hlen hroom m i hin hj]
    have hj : j < e.len := List.mem_range.mp hj
    exact (Memory.Writes.refl.store _ _ _ ⟨.inl rfl, j, hj, rfl⟩).store _ _ _ ⟨.inr rfl, j, hj, rfl⟩

/-! ## Columns -/

/-- The elements a column may store: C's buffers below rows, and entry x of each of the rows of MR. -/
def colElems (c : Ctx) (rows cols x : Nat) (b : Buf) (i : Nat) : Prop :=
  ctxElems c rows b i ∨ stridedElems .mrRe .mrIm rows cols x b i

/-- Row i of TR, which context C is loaded with (45_transform2d.md R273). -/
def colSamples (e : Engine) (m : Memory) (i k : Nat) : Word × Word :=
  (m.get .trRe (i * e.len + k), m.get .trIm (i * e.len + k))

theorem colLoad_writes (e : Engine) (i : Nat) (m : Memory) :
    Memory.Writes (ctxElems e.ctx e.len) m ((List.range e.len).foldl
      (fun m j =>
        (m.set (.re e.ctx) j (m.get .trRe (i * e.len + j))).set (.im e.ctx) j (m.get .trIm (i * e.len + j))) m) := by
  refine Memory.Writes.foldl _ _ (fun j hj m => ?_) m
  have hj : j < e.len := List.mem_range.mp hj
  exact (Memory.Writes.refl.store _ _ _ ⟨.inl rfl, hj⟩).store _ _ _ ⟨.inr rfl, hj⟩

theorem colPass_writes (e : Engine) (cols : Nat) (hlen : e.len = 2 ^ e.steps) (m : Memory) (i : Nat) :
    Memory.Writes (colElems e.ctx e.len cols i) m (colPass e cols m i) := by
  unfold colPass
  refine (((colLoad_writes e i m).trans (passes_writes e hlen _)).mono fun b i h => .inl h).trans ?_
  refine Memory.Writes.foldl _ _ (fun j hj m => ?_) _
  have hj : j < e.len := List.mem_range.mp hj
  exact (Memory.Writes.refl.store _ _ _ (.inr ⟨.inl rfl, j, hj, rfl⟩)).store _ _ _ (.inr ⟨.inr rfl, j, hj, rfl⟩)

/-- The memory of a column before its scatter. -/
theorem pair_colLoad (e : Engine) (hlen : e.len = 2 ^ e.steps) (hroom : e.len ≤ 32768) (m : Memory) (i : Nat)
    (hmat : i * e.len + e.len ≤ 4194304) {j : Nat} (hj : j < e.len) :
    (passes e ((List.range e.len).foldl
      (fun m j =>
        (m.set (.re e.ctx) j (m.get .trRe (i * e.len + j))).set (.im e.ctx) j (m.get .trIm (i * e.len + j)))
      m)).pair e.ctx j = passesValue e (colSamples e m i) j := by
  rw [pair_passes e hlen hroom _ hj]
  refine passesValue_congr e hlen (fun k hk => ?_) hj
  refine pair_foldl_range e.ctx e.len hroom (colSamples e · i) m (colSamples e m i) (fun k hk m' hw => ?_) k hk
  have hr : ∀ b x, ctxElems e.ctx k b x → x < b.room := ctxElems_room (by omega)
  unfold colSamples
  rw [hw.get hr (b := .trRe) (show _ < 4194304 by omega) (by rintro ⟨h | h, -⟩ <;> cases h),
    hw.get hr (b := .trIm) (show _ < 4194304 by omega) (by rintro ⟨h | h, -⟩ <;> cases h)]

/-- What column i leaves: element j of its transform in C and at MR[j·cols + i] (45_transform2d.md R273, R274). -/
theorem colPass_values (e : Engine) (cols : Nat) (hlen : e.len = 2 ^ e.steps) (hroom : e.len ≤ 32768)
    (hmat : e.len * cols ≤ 4194304) (m : Memory) (i : Nat) (hi : i < cols) {j : Nat} (hj : j < e.len) :
    ((colPass e cols m i).get .mrRe (j * cols + i), (colPass e cols m i).get .mrIm (j * cols + i)) =
        passesValue e (colSamples e m i) j ∧
      (colPass e cols m i).pair e.ctx j = passesValue e (colSamples e m i) j := by
  have hin : i * e.len + e.len ≤ 4194304 := by
    calc i * e.len + e.len = (i + 1) * e.len := by ring
      _ ≤ cols * e.len := Nat.mul_le_mul_right _ hi
      _ ≤ 4194304 := by rw [Nat.mul_comm]; exact hmat
  have hidx : ∀ j < e.len, j * cols + i < 4194304 := fun j hj => lt_of_lt_of_le (index_lt hj hi) hmat
  have hcols0 : 0 < cols := by omega
  have hinj : ∀ j < e.len, ∀ k < e.len, j * cols + i = k * cols + i → j = k :=
    fun j _ k _ h => Nat.eq_of_mul_eq_mul_right hcols0 (by omega)
  have hw : ∀ m m' : Memory, Memory.Writes (fun b x => (b = .mrRe ∨ b = .mrIm) ∧ ∃ j < e.len, x = j * cols + i) m m' →
      ∀ k < e.len, m'.pair e.ctx k = m.pair e.ctx k := by
    intro m m' hw k hk
    have hr : ∀ b x, ((b = Buf.mrRe ∨ b = .mrIm) ∧ ∃ j < e.len, x = j * cols + i) → x < b.room := by
      rintro b x ⟨rfl | rfl, j, hj, rfl⟩ <;> exact hidx j hj
    unfold Memory.pair
    rw [hw.get hr (b := .re e.ctx) (show k < 32768 by omega) (by rintro ⟨h | h, -⟩ <;> cases h),
      hw.get hr (b := .im e.ctx) (show k < 32768 by omega) (by rintro ⟨h | h, -⟩ <;> cases h)]
  unfold colPass
  dsimp only
  constructor
  · refine get_scatter .mrRe .mrIm (by decide) e.len (fun j => j * cols + i) hidx hidx hinj
      (fun m j => m.pair e.ctx j) _ (passesValue e (colSamples e m i)) (fun k hk m' h => ?_) hj
    rw [hw _ _ h k hk, pair_colLoad e hlen hroom m i hin hk]
  · rw [hw _ _ (Memory.Writes.foldl _ _ (fun j hj m => ?_) _) j hj, pair_colLoad e hlen hroom m i hin hj]
    have hj : j < e.len := List.mem_range.mp hj
    exact (Memory.Writes.refl.store _ _ _ ⟨.inl rfl, j, hj, rfl⟩).store _ _ _ ⟨.inr rfl, j, hj, rfl⟩

/-! ## The whole transform -/

/-- The elements TRANSFORM2D may store (10_state.md R62). -/
def transform2dElems (rows cols : Nat) (b : Buf) (i : Nat) : Prop :=
  ctxElems .row cols b i ∨ ctxElems .col rows b i ∨ matElems .trRe .trIm (cols * rows) b i ∨
    matElems .mrRe .mrIm (rows * cols) b i

theorem stridedElems_mat {re im : Buf} {n width x : Nat} (hx : x < width) (b : Buf) (i : Nat)
    (h : stridedElems re im n width x b i) : matElems re im (n * width) b i := by
  obtain ⟨hb, j, hj, rfl⟩ := h
  exact ⟨hb, index_lt hj hx⟩

theorem transform2d_writes (s : State) (dir : Direction) (hr : s.cols = 2 ^ s.steps .row)
    (hc : s.rows = 2 ^ s.steps .col) :
    Memory.Writes (transform2dElems s.rows s.cols) s.mem (s.transform2d dir) := by
  unfold State.transform2d
  refine Memory.Writes.trans (m' := (List.range s.rows).foldl
    (rowPass (s.engine .row dir) s.rows (s.steps .col)) s.mem) ?_ ?_
  · refine Memory.Writes.foldl _ _ (fun i _ m => ?_) _
    refine (rowPass_writes (s.engine .row dir) s.rows (s.steps .col) hr m i).mono fun b j h => ?_
    rcases h with h | h
    · exact .inl h
    · exact .inr (.inr (.inl (stridedElems_mat (hc ▸ bitrev_bound i (s.steps .col)) b j h)))
  · refine Memory.Writes.foldl _ _ (fun i hi m => ?_) _
    refine (colPass_writes (s.engine .col dir) s.cols hc m i).mono fun b j h => ?_
    rcases h with h | h
    · exact .inr (.inl h)
    · exact .inr (.inr (.inr (stridedElems_mat (List.mem_range.mp hi) b j h)))

end Sys2Proof.Machine
end

