-- ==== Sys2Proof/Laws/CommandMemory.lean ====
section
/-! SUPPORT. Which elements of the data memories each command may write, said once for all commands (10_state.md R62,
20_memory.md R105). -/

namespace Sys2Proof.Machine

open Sys2Proof

/-- The elements a command may write, by its own rule. -/
def commandElems (i : Instr) (s : State) (b : Buf) (k : Nat) : Prop :=
  match i with
  | .planCreate c => ctxElems (ctxOf c) s.build.maxLen b k
  | .loadReal c | .loadCplx c | .run c _ | .transform c _ _ => ctxElems (ctxOf c) (s.length (ctxOf c)) b k
  | .plan2dCreate =>
    ctxElems .row s.build.maxLen b k ∨ ctxElems .col s.build.maxLen b k ∨ matElems .trRe .trIm s.build.matMax b k ∨
      matElems .mrRe .mrIm s.build.matMax b k
  | .transform2d _ => transform2dElems s.rows s.cols b k
  | .nop | .planDestroy _ | .result _ | .mag _ | .nmag _ | .isqrt | .plan2dDestroy | .result2d | .reserved _ => False

theorem createPlan_writes (s : State) (c : Ctx) (n : Nat) :
    Memory.Writes (ctxElems c s.build.maxLen) s.mem (s.createPlan c n).mem := by
  have h : (s.createPlan c n).mem = (s.mem.zero (.re c) s.build.maxLen).zero (.im c) s.build.maxLen := by
    cases c <;> rfl
  rw [h]
  exact (Memory.Writes.refl.zero _ _ fun i hi => ⟨.inl rfl, hi⟩).zero _ _ fun i hi => ⟨.inr rfl, hi⟩

theorem createPlan2d_writes (s : State) (rows cols : Nat) :
    Memory.Writes (commandElems .plan2dCreate s) s.mem (s.createPlan2d rows cols).mem := by
  have h1 := (createPlan_writes s .row cols).mono (Q := commandElems .plan2dCreate s) fun b i h => .inl h
  have h2 := (createPlan_writes (s.createPlan .row cols) .col rows).mono (Q := commandElems .plan2dCreate s)
    fun b i h => .inr (.inl h)
  have hm : ∀ i < s.build.matMax, ∀ b : Buf, b = .trRe ∨ b = .trIm → commandElems .plan2dCreate s b i :=
    fun i hi b hb => .inr (.inr (.inl ⟨hb, hi⟩))
  have hm' : ∀ i < s.build.matMax, ∀ b : Buf, b = .mrRe ∨ b = .mrIm → commandElems .plan2dCreate s b i :=
    fun i hi b hb => .inr (.inr (.inr ⟨hb, hi⟩))
  exact ((((h1.trans h2).zero .trRe s.build.matMax fun i hi => hm i hi _ (.inl rfl)).zero .trIm s.build.matMax
    fun i hi => hm i hi _ (.inr rfl)).zero .mrRe s.build.matMax fun i hi => hm' i hi _ (.inl rfl)).zero
    .mrIm s.build.matMax fun i hi => hm' i hi _ (.inr rfl)

/-- A valid context of a sound plan has a length that is the power of two of its steps. -/
theorem State.length_eq {s : State} {c : Ctx} (hp : (s.plan c).Sound s.build) (hv : (s.plan c).valid = true) :
    s.length c = 2 ^ s.steps c ∧ s.length c ≤ s.build.maxLen := by
  unfold Plan.Sound at hp
  rw [if_pos hv] at hp
  exact hp

theorem loadInputs_writes (s : State) (c : Ctx) (dir : Direction) (kind : InputKind) (m : Memory) :
    Memory.Writes (ctxElems c (s.length c)) m (loadInputs (s.engine c dir) kind m) :=
  loadSamples_writes (s.engine c dir) _ _ m

/-- A command writes elements of `commandElems` only. -/
theorem exec_writes (i : Instr) (s t : State) (hp : ∀ c, (s.plan c).Sound s.build) (h2 : s.Sound2d)
    (h : exec i s = .next t) : Memory.Writes (commandElems i s) s.mem t.mem := by
  have hpass : ∀ (c : Ctx) (d : Direction) (m : Memory), (s.plan c).valid = true →
      Memory.Writes (ctxElems c (s.length c)) m (passes (s.engine c d) m) := fun c d m hv =>
    passes_writes (s.engine c d) (State.length_eq (hp c) hv).1 m
  cases i
  case nop => cases h; exact .refl
  case isqrt => cases h; exact .refl
  case reserved => cases h; exact .refl
  case planCreate c =>
    simp only [exec, execPlanCreate] at h
    split_ifs at h <;> cases h
    · exact .refl
    · exact .refl
    · rw [State.complete_mem]; exact createPlan_writes s (ctxOf c) s.lengthArg
  case planDestroy c =>
    simp only [exec, execPlanDestroy] at h
    split_ifs at h <;> cases h
    · exact .refl
    · rw [State.complete_mem, State.setPlan_mem]; exact .refl
  case loadReal c =>
    simp only [exec, execLoadReal] at h
    split_ifs at h <;> cases h
    · exact .refl
    · rw [State.complete_mem, State.withMem_mem]; exact loadInputs_writes s (ctxOf c) .forward .real s.mem
  case loadCplx c =>
    simp only [exec, execLoadCplx] at h
    split_ifs at h <;> cases h
    · exact .refl
    · rw [State.complete_mem, State.withMem_mem]; exact loadInputs_writes s (ctxOf c) .forward .complex s.mem
  case run c d =>
    simp only [exec, execRun] at h
    split_ifs at h with hv <;> cases h
    · exact .refl
    · rw [State.complete_mem, State.withMem_mem]; exact hpass (ctxOf c) d s.mem (by simpa using hv)
  case transform c d k =>
    simp only [exec, execTransform] at h
    split_ifs at h with hv <;> cases h
    · exact .refl
    · rw [State.complete_mem, State.withMem_mem]
      exact (loadInputs_writes s (ctxOf c) d k s.mem).trans (hpass (ctxOf c) d _ (by simpa using hv))
  case result c =>
    simp only [exec, execResult] at h
    split_ifs at h <;> cases h <;> exact .refl
  case mag c =>
    simp only [exec, execMag] at h
    split_ifs at h <;> cases h <;> exact .refl
  case nmag c =>
    simp only [exec, execNmag] at h
    split_ifs at h <;> cases h <;> exact .refl
  case plan2dCreate =>
    simp only [exec, execPlan2dCreate] at h
    split_ifs at h <;> cases h
    · exact .refl
    · exact .refl
    · exact .refl
    · exact .refl
    · rw [State.complete_mem]; exact createPlan2d_writes s s.rowsArg s.colsArg
  case plan2dDestroy =>
    simp only [exec, execPlan2dDestroy] at h
    split_ifs at h <;> cases h <;> exact .refl
  case transform2d d =>
    simp only [exec, execTransform2d] at h
    split_ifs at h with hv <;> cases h
    · exact .refl
    · unfold State.Sound2d at h2
      rw [if_pos (by simpa using hv)] at h2
      rw [State.complete_mem, State.withMem_mem]
      exact transform2d_writes s d (State.length_eq (hp .row) h2.1).1 (State.length_eq (hp .col) h2.2.1).1
  case result2d =>
    simp only [exec, execResult2d] at h
    split_ifs at h <;> cases h <;> exact .refl

/-- Every element a command may write belongs to the build's data memories (20_memory.md R105). -/
theorem commandElems_count (i : Instr) (s : State) (hp : ∀ c, (s.plan c).Sound s.build) (h2 : s.Sound2d)
    (b : Buf) (k : Nat) (h : commandElems i s b k) : k < b.count s.build := by
  have hctx : ∀ (c : Ctx) (n : Nat), n ≤ s.build.maxLen → ctxElems c n b k → k < b.count s.build := by
    rintro c n hn ⟨rfl | rfl, hk⟩ <;> exact lt_of_lt_of_le hk hn
  have hmat : ∀ n, n ≤ s.build.matMax → (matElems .trRe .trIm n b k ∨ matElems .mrRe .mrIm n b k) →
      k < b.count s.build := by
    rintro n hn (⟨rfl | rfl, hk⟩ | ⟨rfl | rfl, hk⟩) <;> exact lt_of_lt_of_le hk hn
  have hlen : ∀ c, s.length c ≤ s.build.maxLen := by
    intro c
    by_cases hv : (s.plan c).valid = true
    · exact (State.length_eq (hp c) hv).2
    · have := hp c
      unfold Plan.Sound at this
      rw [if_neg hv] at this
      show (s.plan c).length.toNat ≤ _
      rw [this.1]
      exact Nat.zero_le _
  have hprod : s.cols * s.rows ≤ s.build.matMax := by
    unfold State.Sound2d at h2
    split_ifs at h2
    · exact h2.2.2
    · have := hp .row
      unfold Plan.Sound at this
      rw [if_neg (by rw [show s.plan .row = s.planR from rfl, h2.1]; decide)] at this
      show (s.plan .row).length.toNat * _ ≤ _
      rw [this.1]
      simp
  cases i <;> simp only [commandElems] at h
  case planCreate c => exact hctx _ _ le_rfl h
  case loadReal c => exact hctx _ _ (hlen _) h
  case loadCplx c => exact hctx _ _ (hlen _) h
  case run c d => exact hctx _ _ (hlen _) h
  case transform c d k => exact hctx _ _ (hlen _) h
  case plan2dCreate =>
    rcases h with h | h | h
    · exact hctx _ _ le_rfl h
    · exact hctx _ _ le_rfl h
    · exact hmat _ le_rfl h
  case transform2d d =>
    rcases h with h | h | h | h
    · exact hctx _ _ (hlen .row) h
    · exact hctx _ _ (hlen .col) h
    · exact hmat _ hprod (.inl h)
    · exact hmat _ (by rw [Nat.mul_comm]; exact hprod) (.inr h)

end Sys2Proof.Machine
end

