-- ==== Sys2Proof/Laws/Commands.lean ====
section
/-! SUPPORT. Everything a command can do to the registers, said once: it ends with an error code and nothing but the
completion writes, or with no error and changes of the plans, V2D, the results and the memory only. -/

namespace Sys2Proof.Machine

open Sys2Proof

/-- `t` is `s` but for what commands write: the contexts, V2D, RES0, RES1 and the data memories. -/
def CommandWrites (s t : State) : Prop :=
  t = { s with
    planP0 := t.planP0, planP1 := t.planP1, planR := t.planR, planC := t.planC, v2d := t.v2d
    res0 := t.res0, res1 := t.res1, mem := t.mem }

theorem CommandWrites.refl (s : State) : CommandWrites s s := rfl

theorem CommandWrites.setPlan (s : State) (c : Ctx) (p : Plan) : CommandWrites s (s.setPlan c p) := by
  cases c <;> rfl

theorem CommandWrites.createPlan (s : State) (c : Ctx) (n : Nat) : CommandWrites s (s.createPlan c n) := by
  cases c <;> rfl

theorem CommandWrites.withMem (s : State) (m : Memory) : CommandWrites s (s.withMem m) := rfl

theorem CommandWrites.withResults (s : State) (r0 r1 : Word) : CommandWrites s (s.withResults r0 r1) := rfl

theorem CommandWrites.trans {s t u : State} (h : CommandWrites s t) (g : CommandWrites t u) : CommandWrites s u := by
  unfold CommandWrites at *
  rw [g, h]

theorem CommandWrites.withV2d (s : State) (v : Bool) : CommandWrites s { s with v2d := v } := rfl

theorem CommandWrites.createPlan2d (s : State) (rows cols : Nat) : CommandWrites s (s.createPlan2d rows cols) :=
  (((CommandWrites.createPlan s .row cols).trans (.createPlan _ .col rows)).trans (.withMem _ _)).trans (.withV2d _ true)

/-- The two ends of a command. -/
theorem exec_cases (i : Instr) (s : State) :
    (∃ code, code ≠ .ok ∧ exec i s = raiseCmdError code s) ∨
      ∃ s', CommandWrites s s' ∧ exec i s = commit s' := by
  cases i
  case nop => exact .inr ⟨s, rfl, rfl⟩
  case planCreate c =>
    simp only [exec, execPlanCreate]
    split_ifs
    · exact .inl ⟨_, by decide, rfl⟩
    · exact .inl ⟨_, by decide, rfl⟩
    · exact .inr ⟨_, .createPlan s _ _, rfl⟩
  case planDestroy c =>
    simp only [exec, execPlanDestroy]
    split_ifs
    · exact .inl ⟨_, by decide, rfl⟩
    · exact .inr ⟨_, .setPlan s _ _, rfl⟩
  case loadReal c =>
    simp only [exec, execLoadReal]
    split_ifs
    · exact .inl ⟨_, by decide, rfl⟩
    · exact .inr ⟨_, .withMem s _, rfl⟩
  case loadCplx c =>
    simp only [exec, execLoadCplx]
    split_ifs
    · exact .inl ⟨_, by decide, rfl⟩
    · exact .inr ⟨_, .withMem s _, rfl⟩
  case run c d =>
    simp only [exec, execRun]
    split_ifs
    · exact .inl ⟨_, by decide, rfl⟩
    · exact .inr ⟨_, .withMem s _, rfl⟩
  case transform c d k =>
    simp only [exec, execTransform]
    split_ifs
    · exact .inl ⟨_, by decide, rfl⟩
    · exact .inr ⟨_, .withMem s _, rfl⟩
  case result c =>
    simp only [exec, execResult]
    split_ifs
    · exact .inl ⟨_, by decide, rfl⟩
    · exact .inl ⟨_, by decide, rfl⟩
    · exact .inr ⟨_, .withResults s _ _, rfl⟩
  case mag c =>
    simp only [exec, execMag]
    split_ifs
    · exact .inl ⟨_, by decide, rfl⟩
    · exact .inl ⟨_, by decide, rfl⟩
    · exact .inr ⟨_, .withResults s _ _, rfl⟩
  case nmag c =>
    simp only [exec, execNmag]
    split_ifs
    · exact .inl ⟨_, by decide, rfl⟩
    · exact .inl ⟨_, by decide, rfl⟩
    · exact .inr ⟨_, .withResults s _ _, rfl⟩
  case isqrt => exact .inr ⟨_, .withResults s _ _, rfl⟩
  case plan2dCreate =>
    simp only [exec, execPlan2dCreate]
    split_ifs
    · exact .inl ⟨_, by decide, rfl⟩
    · exact .inl ⟨_, by decide, rfl⟩
    · exact .inl ⟨_, by decide, rfl⟩
    · exact .inl ⟨_, by decide, rfl⟩
    · exact .inr ⟨_, .createPlan2d s _ _, rfl⟩
  case plan2dDestroy =>
    simp only [exec, execPlan2dDestroy]
    split_ifs
    · exact .inl ⟨_, by decide, rfl⟩
    · exact .inr ⟨_, ((CommandWrites.setPlan s .row _).trans (.setPlan _ .col _)).trans (.withV2d _ false), rfl⟩
  case transform2d d =>
    simp only [exec, execTransform2d]
    split_ifs
    · exact .inl ⟨_, by decide, rfl⟩
    · exact .inr ⟨_, .withMem s _, rfl⟩
  case result2d =>
    simp only [exec, execResult2d]
    split_ifs
    · exact .inl ⟨_, by decide, rfl⟩
    · exact .inl ⟨_, by decide, rfl⟩
    · exact .inr ⟨_, .withResults s _ _, rfl⟩
  case reserved w => exact .inl ⟨_, by decide, rfl⟩

/-! ## What each command does when it succeeds -/

/-- The checks a command has passed when it ends without an error, and the state it then leaves before completion. -/
def CommandEffect (i : Instr) (s s' : State) : Prop :=
  match i with
  | .nop => s' = s
  | .planCreate c =>
    isPow2 s.lengthArg = true ∧ s.lengthArg ≤ s.build.maxLen ∧ s' = s.createPlan (ctxOf c) s.lengthArg
  | .planDestroy c => (s.plan (ctxOf c)).valid = true ∧ s' = s.setPlan (ctxOf c) .none
  | .loadReal c =>
    (s.plan (ctxOf c)).valid = true ∧ s' = s.withMem (loadInputs (s.engine (ctxOf c) .forward) .real s.mem)
  | .loadCplx c =>
    (s.plan (ctxOf c)).valid = true ∧ s' = s.withMem (loadInputs (s.engine (ctxOf c) .forward) .complex s.mem)
  | .run c d => (s.plan (ctxOf c)).valid = true ∧ s' = s.withMem (passes (s.engine (ctxOf c) d) s.mem)
  | .transform c d k =>
    (s.plan (ctxOf c)).valid = true ∧
      s' = s.withMem (passes (s.engine (ctxOf c) d) (loadInputs (s.engine (ctxOf c) d) k s.mem))
  | .result c =>
    (s.plan (ctxOf c)).valid = true ∧ s.indexArg < s.length (ctxOf c) ∧
      s' = s.withResults (s32 (scaleOut s.build.fracBits (s.get (.re (ctxOf c)) s.indexArg)))
        (s32 (scaleOut s.build.fracBits (s.get (.im (ctxOf c)) s.indexArg)))
  | .mag c =>
    (s.plan (ctxOf c)).valid = true ∧ s.indexArg < s.length (ctxOf c) ∧
      s' = s.withResults (s.magnitudeAt (ctxOf c) s.build.fracBits) 0
  | .nmag c =>
    (s.plan (ctxOf c)).valid = true ∧ s.indexArg < s.length (ctxOf c) ∧
      s' = s.withResults (s.magnitudeAt (ctxOf c) (s.steps (ctxOf c) + s.build.fracBits)) 0
  | .isqrt => s' = s.withResults (zext16 (isqrt s.rootArg)) 0
  | .plan2dCreate =>
    isPow2 s.colsArg = true ∧ isPow2 s.rowsArg = true ∧ s.colsArg ≤ s.build.maxLen ∧ s.rowsArg ≤ s.build.maxLen ∧
      s.rowsArg * s.colsArg ≤ s.build.matMax ∧ s' = s.createPlan2d s.rowsArg s.colsArg
  | .plan2dDestroy => s.v2d = true ∧ s' = { (s.setPlan .row .none).setPlan .col .none with v2d := false }
  | .transform2d d => s.v2d = true ∧ s' = s.withMem (s.transform2d d)
  | .result2d =>
    s.v2d = true ∧ s.rowArg < s.rows ∧ s.colArg < s.cols ∧
      s' = s.withResults (s32 (scaleOut s.build.fracBits (s.get .mrRe (s.rowArg * s.cols + s.colArg))))
        (s32 (scaleOut s.build.fracBits (s.get .mrIm (s.rowArg * s.cols + s.colArg))))
  | .reserved _ => False

theorem next_inj {s t : State} (h : (Host.Outcome.next s : Host.Outcome State Fault Refusal) = .next t) : s = t := by
  injection h

/-- The outcome of a command, said once: an error code and nothing but the completion writes, or its effect. -/
theorem exec_effect (i : Instr) (s t : State) (h : exec i s = .next t) :
    (∃ code, code ≠ .ok ∧ t = s.complete code) ∨ ∃ s', CommandEffect i s s' ∧ t = s'.complete .ok := by
  cases i
  case nop => exact .inr ⟨s, rfl, (next_inj h).symm⟩
  case isqrt => exact .inr ⟨_, rfl, (next_inj h).symm⟩
  case reserved => exact .inl ⟨_, by decide, (next_inj h).symm⟩
  case planCreate c =>
    simp only [exec, execPlanCreate] at h
    split_ifs at h with h1 h2
    · exact .inl ⟨_, by decide, (next_inj h).symm⟩
    · exact .inl ⟨_, by decide, (next_inj h).symm⟩
    · exact .inr ⟨_, ⟨by simpa using h1, by omega, rfl⟩, (next_inj h).symm⟩
  case planDestroy c =>
    simp only [exec, execPlanDestroy] at h
    split_ifs at h with h1
    · exact .inl ⟨_, by decide, (next_inj h).symm⟩
    · exact .inr ⟨_, ⟨by simpa using h1, rfl⟩, (next_inj h).symm⟩
  case loadReal c =>
    simp only [exec, execLoadReal] at h
    split_ifs at h with h1
    · exact .inl ⟨_, by decide, (next_inj h).symm⟩
    · exact .inr ⟨_, ⟨by simpa using h1, rfl⟩, (next_inj h).symm⟩
  case loadCplx c =>
    simp only [exec, execLoadCplx] at h
    split_ifs at h with h1
    · exact .inl ⟨_, by decide, (next_inj h).symm⟩
    · exact .inr ⟨_, ⟨by simpa using h1, rfl⟩, (next_inj h).symm⟩
  case run c d =>
    simp only [exec, execRun] at h
    split_ifs at h with h1
    · exact .inl ⟨_, by decide, (next_inj h).symm⟩
    · exact .inr ⟨_, ⟨by simpa using h1, rfl⟩, (next_inj h).symm⟩
  case transform c d k =>
    simp only [exec, execTransform] at h
    split_ifs at h with h1
    · exact .inl ⟨_, by decide, (next_inj h).symm⟩
    · exact .inr ⟨_, ⟨by simpa using h1, rfl⟩, (next_inj h).symm⟩
  case result c =>
    simp only [exec, execResult] at h
    split_ifs at h with h1 h2
    · exact .inl ⟨_, by decide, (next_inj h).symm⟩
    · exact .inl ⟨_, by decide, (next_inj h).symm⟩
    · exact .inr ⟨_, ⟨by simpa using h1, by omega, rfl⟩, (next_inj h).symm⟩
  case mag c =>
    simp only [exec, execMag] at h
    split_ifs at h with h1 h2
    · exact .inl ⟨_, by decide, (next_inj h).symm⟩
    · exact .inl ⟨_, by decide, (next_inj h).symm⟩
    · exact .inr ⟨_, ⟨by simpa using h1, by omega, rfl⟩, (next_inj h).symm⟩
  case nmag c =>
    simp only [exec, execNmag] at h
    split_ifs at h with h1 h2
    · exact .inl ⟨_, by decide, (next_inj h).symm⟩
    · exact .inl ⟨_, by decide, (next_inj h).symm⟩
    · exact .inr ⟨_, ⟨by simpa using h1, by omega, rfl⟩, (next_inj h).symm⟩
  case plan2dCreate =>
    simp only [exec, execPlan2dCreate] at h
    split_ifs at h with h1 h2 h3 h4
    · exact .inl ⟨_, by decide, (next_inj h).symm⟩
    · exact .inl ⟨_, by decide, (next_inj h).symm⟩
    · exact .inl ⟨_, by decide, (next_inj h).symm⟩
    · exact .inl ⟨_, by decide, (next_inj h).symm⟩
    · exact .inr ⟨_, ⟨by simpa using h1, by simpa using h2, by omega, by omega, by omega, rfl⟩, (next_inj h).symm⟩
  case plan2dDestroy =>
    simp only [exec, execPlan2dDestroy] at h
    split_ifs at h with h1
    · exact .inl ⟨_, by decide, (next_inj h).symm⟩
    · exact .inr ⟨_, ⟨by simpa using h1, rfl⟩, (next_inj h).symm⟩
  case transform2d d =>
    simp only [exec, execTransform2d] at h
    split_ifs at h with h1
    · exact .inl ⟨_, by decide, (next_inj h).symm⟩
    · exact .inr ⟨_, ⟨by simpa using h1, rfl⟩, (next_inj h).symm⟩
  case result2d =>
    simp only [exec, execResult2d] at h
    split_ifs at h with h1 h2
    · exact .inl ⟨_, by decide, (next_inj h).symm⟩
    · exact .inl ⟨_, by decide, (next_inj h).symm⟩
    · exact .inr ⟨_, ⟨by simpa using h1, by omega, by omega, rfl⟩, (next_inj h).symm⟩

/-! ### The fields of a created plan -/

theorem createPlan_plan (s : State) (c d : Ctx) (n : Nat) :
    (s.createPlan c n).plan d = if c = d then Plan.ofLength n else s.plan d := by
  unfold State.createPlan
  rw [State.withMem_plan, State.setPlan_plan]

@[simp] theorem createPlan_build (s : State) (c : Ctx) (n : Nat) : (s.createPlan c n).build = s.build := by
  simp [State.createPlan]
@[simp] theorem createPlan_ie (s : State) (c : Ctx) (n : Nat) : (s.createPlan c n).ie = s.ie := by
  simp [State.createPlan]
@[simp] theorem createPlan_busy (s : State) (c : Ctx) (n : Nat) : (s.createPlan c n).busy = s.busy := by
  simp [State.createPlan]
@[simp] theorem createPlan_done (s : State) (c : Ctx) (n : Nat) : (s.createPlan c n).done = s.done := by
  simp [State.createPlan]
@[simp] theorem createPlan_ovr (s : State) (c : Ctx) (n : Nat) : (s.createPlan c n).ovr = s.ovr := by
  simp [State.createPlan]
@[simp] theorem createPlan_berr (s : State) (c : Ctx) (n : Nat) : (s.createPlan c n).berr = s.berr := by
  simp [State.createPlan]
@[simp] theorem createPlan_err (s : State) (c : Ctx) (n : Nat) : (s.createPlan c n).err = s.err := by
  simp [State.createPlan]
@[simp] theorem createPlan_arg0 (s : State) (c : Ctx) (n : Nat) : (s.createPlan c n).arg0 = s.arg0 := by
  simp [State.createPlan]
@[simp] theorem createPlan_arg1 (s : State) (c : Ctx) (n : Nat) : (s.createPlan c n).arg1 = s.arg1 := by
  simp [State.createPlan]
@[simp] theorem createPlan_res0 (s : State) (c : Ctx) (n : Nat) : (s.createPlan c n).res0 = s.res0 := by
  simp [State.createPlan]
@[simp] theorem createPlan_res1 (s : State) (c : Ctx) (n : Nat) : (s.createPlan c n).res1 = s.res1 := by
  simp [State.createPlan]
@[simp] theorem createPlan_lastCmd (s : State) (c : Ctx) (n : Nat) : (s.createPlan c n).lastCmd = s.lastCmd := by
  simp [State.createPlan]
@[simp] theorem createPlan_lCmd (s : State) (c : Ctx) (n : Nat) : (s.createPlan c n).lCmd = s.lCmd := by
  simp [State.createPlan]
@[simp] theorem createPlan_lArg0 (s : State) (c : Ctx) (n : Nat) : (s.createPlan c n).lArg0 = s.lArg0 := by
  simp [State.createPlan]
@[simp] theorem createPlan_lArg1 (s : State) (c : Ctx) (n : Nat) : (s.createPlan c n).lArg1 = s.lArg1 := by
  simp [State.createPlan]
@[simp] theorem createPlan_v2d (s : State) (c : Ctx) (n : Nat) : (s.createPlan c n).v2d = s.v2d := by
  simp [State.createPlan]
@[simp] theorem createPlan_wait (s : State) (c : Ctx) (n : Nat) : (s.createPlan c n).wait = s.wait := by
  simp [State.createPlan]
@[simp] theorem createPlan_latencies (s : State) (c : Ctx) (n : Nat) : (s.createPlan c n).latencies = s.latencies := by
  simp [State.createPlan]
@[simp] theorem createPlan_hostOps (s : State) (c : Ctx) (n : Nat) : (s.createPlan c n).hostOps = s.hostOps := by
  simp [State.createPlan]
@[simp] theorem createPlan_replies (s : State) (c : Ctx) (n : Nat) : (s.createPlan c n).replies = s.replies := by
  simp [State.createPlan]

theorem createPlan_mem (s : State) (c : Ctx) (n : Nat) :
    (s.createPlan c n).mem = (s.mem.zero (.re c) s.build.maxLen).zero (.im c) s.build.maxLen := by
  simp [State.createPlan]

theorem createPlan2d_plan (s : State) (rows cols : Nat) (d : Ctx) :
    (s.createPlan2d rows cols).plan d =
      if d = .row then Plan.ofLength cols else if d = .col then Plan.ofLength rows else s.plan d := by
  have h : ∀ (u : State) (m : Memory), State.plan { u.withMem m with v2d := true } d = u.plan d := by
    intro u m; cases d <;> rfl
  unfold State.createPlan2d
  simp only
  rw [h, createPlan_plan, createPlan_plan]
  cases d <;> rfl

@[simp] theorem createPlan2d_build (s : State) (rows cols : Nat) : (s.createPlan2d rows cols).build = s.build := by
  simp [State.createPlan2d]
@[simp] theorem createPlan2d_ie (s : State) (rows cols : Nat) : (s.createPlan2d rows cols).ie = s.ie := by
  simp [State.createPlan2d]
@[simp] theorem createPlan2d_busy (s : State) (rows cols : Nat) : (s.createPlan2d rows cols).busy = s.busy := by
  simp [State.createPlan2d]
@[simp] theorem createPlan2d_done (s : State) (rows cols : Nat) : (s.createPlan2d rows cols).done = s.done := by
  simp [State.createPlan2d]
@[simp] theorem createPlan2d_ovr (s : State) (rows cols : Nat) : (s.createPlan2d rows cols).ovr = s.ovr := by
  simp [State.createPlan2d]
@[simp] theorem createPlan2d_berr (s : State) (rows cols : Nat) : (s.createPlan2d rows cols).berr = s.berr := by
  simp [State.createPlan2d]
@[simp] theorem createPlan2d_err (s : State) (rows cols : Nat) : (s.createPlan2d rows cols).err = s.err := by
  simp [State.createPlan2d]
@[simp] theorem createPlan2d_arg0 (s : State) (rows cols : Nat) : (s.createPlan2d rows cols).arg0 = s.arg0 := by
  simp [State.createPlan2d]
@[simp] theorem createPlan2d_arg1 (s : State) (rows cols : Nat) : (s.createPlan2d rows cols).arg1 = s.arg1 := by
  simp [State.createPlan2d]
@[simp] theorem createPlan2d_res0 (s : State) (rows cols : Nat) : (s.createPlan2d rows cols).res0 = s.res0 := by
  simp [State.createPlan2d]
@[simp] theorem createPlan2d_res1 (s : State) (rows cols : Nat) : (s.createPlan2d rows cols).res1 = s.res1 := by
  simp [State.createPlan2d]
@[simp] theorem createPlan2d_lastCmd (s : State) (rows cols : Nat) : (s.createPlan2d rows cols).lastCmd = s.lastCmd := by
  simp [State.createPlan2d]
@[simp] theorem createPlan2d_lCmd (s : State) (rows cols : Nat) : (s.createPlan2d rows cols).lCmd = s.lCmd := by
  simp [State.createPlan2d]
@[simp] theorem createPlan2d_lArg0 (s : State) (rows cols : Nat) : (s.createPlan2d rows cols).lArg0 = s.lArg0 := by
  simp [State.createPlan2d]
@[simp] theorem createPlan2d_lArg1 (s : State) (rows cols : Nat) : (s.createPlan2d rows cols).lArg1 = s.lArg1 := by
  simp [State.createPlan2d]
@[simp] theorem createPlan2d_v2d (s : State) (rows cols : Nat) : (s.createPlan2d rows cols).v2d = true := by
  simp [State.createPlan2d]
@[simp] theorem createPlan2d_wait (s : State) (rows cols : Nat) : (s.createPlan2d rows cols).wait = s.wait := by
  simp [State.createPlan2d]
@[simp] theorem createPlan2d_latencies (s : State) (rows cols : Nat) : (s.createPlan2d rows cols).latencies = s.latencies := by
  simp [State.createPlan2d]
@[simp] theorem createPlan2d_hostOps (s : State) (rows cols : Nat) : (s.createPlan2d rows cols).hostOps = s.hostOps := by
  simp [State.createPlan2d]
@[simp] theorem createPlan2d_replies (s : State) (rows cols : Nat) : (s.createPlan2d rows cols).replies = s.replies := by
  simp [State.createPlan2d]

/-! ## Commands and the host side of the port -/

/-- A state with another host side of the port. -/
def State.withHost (s : State) (wait : Nat) (latencies : List Nat) (hostOps : List HostOp) (replies : List Reply) :
    State :=
  { s with wait := wait, latencies := latencies, hostOps := hostOps, replies := replies }

/-- An outcome with another host side of the port. -/
def outcomeWithHost (wait : Nat) (latencies : List Nat) (hostOps : List HostOp) (replies : List Reply) :
    Host.Outcome State Fault Refusal → Host.Outcome State Fault Refusal
  | .next t => .next (t.withHost wait latencies hostOps replies)
  | .fault r => .fault r
  | .refused r => .refused r

/-- No command reads or writes the host side of the port: its results depend on the block's state alone
(70_reset_and_hazards.md R354). -/
theorem exec_withHost (i : Instr) (s : State) (w : Nat) (l : List Nat) (o : List HostOp) (r : List Reply) :
    exec i (s.withHost w l o r) = outcomeWithHost w l o r (exec i s) := by
  cases i
  case nop => rfl
  case isqrt => rfl
  case reserved => rfl
  case planCreate c => cases c <;> (simp only [exec, execPlanCreate, apply_ite (outcomeWithHost w l o r)]; rfl)
  case planDestroy c => cases c <;> (simp only [exec, execPlanDestroy, apply_ite (outcomeWithHost w l o r)]; rfl)
  case loadReal c => cases c <;> (simp only [exec, execLoadReal, apply_ite (outcomeWithHost w l o r)]; rfl)
  case loadCplx c => cases c <;> (simp only [exec, execLoadCplx, apply_ite (outcomeWithHost w l o r)]; rfl)
  case run c d => cases c <;> (simp only [exec, execRun, apply_ite (outcomeWithHost w l o r)]; rfl)
  case transform c d k => cases c <;> (simp only [exec, execTransform, apply_ite (outcomeWithHost w l o r)]; rfl)
  case result c => cases c <;> (simp only [exec, execResult, apply_ite (outcomeWithHost w l o r)]; rfl)
  case mag c => cases c <;> (simp only [exec, execMag, apply_ite (outcomeWithHost w l o r)]; rfl)
  case nmag c => cases c <;> (simp only [exec, execNmag, apply_ite (outcomeWithHost w l o r)]; rfl)
  case plan2dCreate => simp only [exec, execPlan2dCreate, apply_ite (outcomeWithHost w l o r)]; rfl
  case plan2dDestroy => simp only [exec, execPlan2dDestroy, apply_ite (outcomeWithHost w l o r)]; rfl
  case transform2d d => simp only [exec, execTransform2d, apply_ite (outcomeWithHost w l o r)]; rfl
  case result2d => simp only [exec, execResult2d, apply_ite (outcomeWithHost w l o r)]; rfl

end Sys2Proof.Machine
end

