-- ==== Sys2Proof/Laws/Decode.lean ====
section
/-! SUPPORT. The decoder on the bytes of a word, and how a word splits into the bits a row fixes and the bits it leaves. -/

namespace Sys2Proof

/-- The bytes of a word followed by anything decode to the word's command. -/
theorem decode_wordBytes_append (w : Word) (rest : List Byte) :
    decode (wordBytes w ++ rest) = .ok (decodeWord w, rest) := by
  simp only [wordBytes, List.cons_append, List.nil_append, decode, Machine.wordOfBytes_extract]

theorem decode_wordBytes (w : Word) : decode (wordBytes w) = .ok (decodeWord w, []) := by
  simpa using decode_wordBytes_append w []

/-- A word outside the rows decodes to the reserved row. -/
theorem decodeWord_of_not_legal (w : Word) (h : legalWord w = false) : decodeWord w = .reserved w := by
  unfold decodeWord
  rw [List.find?_eq_none.mpr]
  simpa [legalWord] using h

/-- A legal word decodes through a row that covers it. -/
theorem decodeWord_of_legal (w : Word) (h : legalWord w = true) :
    ∃ r ∈ opcodeMap, r.covers w = true ∧ decodeWord w = r.build w := by
  unfold decodeWord
  cases hf : opcodeMap.find? (·.covers w) with
  | none =>
    exfalso
    rw [List.find?_eq_none] at hf
    simp only [legalWord, List.any_eq_true] at h
    obtain ⟨r, hr, hc⟩ := h
    exact hf r hr hc
  | some r => exact ⟨r, List.mem_of_find?_eq_some hf, by simpa using List.find?_some hf, rfl⟩

/-- The fields of a word by their bits. -/
theorem ctxField_bits (w : Word) : (ctxField w).bits = w &&& 0x100 := by
  rw [show (0x100 : Word) = BitVec.twoPow 32 8 from by decide, BitVec.and_twoPow]
  unfold ctxField
  split <;> rfl

theorem dirField_bits (w : Word) : (dirField w).bits = w &&& 0x10 := by
  rw [show (0x10 : Word) = BitVec.twoPow 32 4 from by decide, BitVec.and_twoPow]
  unfold dirField
  split <;> rfl

theorem cplxField_bits (w : Word) : (cplxField w).bits = w &&& 0x20 := by
  rw [show (0x20 : Word) = BitVec.twoPow 32 5 from by decide, BitVec.and_twoPow]
  unfold cplxField
  split <;> rfl

/-- A word that a row covers is the row's pattern and the word's own bits elsewhere. -/
theorem OpcodeRow.eq_of_covers (r : OpcodeRow) (w : Word) (h : r.covers w = true) :
    w = r.pattern ||| (w &&& ~~~r.mask) := by
  have h : w &&& r.mask = r.pattern := by simpa [OpcodeRow.covers] using h
  rw [← h]
  apply BitVec.eq_of_getLsbD_eq
  intro i hi
  simp only [BitVec.getLsbD_or, BitVec.getLsbD_and, BitVec.getLsbD_not, hi, decide_true, Bool.true_and]
  cases w.getLsbD i <;> cases r.mask.getLsbD i <;> rfl

end Sys2Proof
end

