-- ==== Sys2Proof/Laws/Locate.lean ====
section
/-! SUPPORT. The address map as one family of windows that do not overlap: which place an address names is settled by the
one window that holds it. -/

namespace Sys2Proof.Machine

open Sys2Proof

/-- The base address of a window of this kind (20_memory.md R81). -/
def WindowKind.base : WindowKind → Nat
  | .data b => b.base
  | .brt c => c.base + 0x40000
  | .twr c => c.base + 0x60000
  | .twi c => c.base + 0x70000

/-- How many words a window of this kind has in a build (20_memory.md R81). -/
def WindowKind.count (b : Build) : WindowKind → Nat
  | .data m => m.count b
  | .brt _ => b.maxLen
  | .twr _ | .twi _ => b.maxLen / 2

/-- How many words the map leaves room for, whatever the build. -/
def WindowKind.room : WindowKind → Nat
  | .data m => m.room
  | .brt _ => 32768
  | .twr _ | .twi _ => 16384

/-- The window of this kind. -/
def WindowKind.window (b : Build) (k : WindowKind) : Window := { base := k.base, count := k.count b, kind := k }

/-- Every kind of window, in the order of the map. -/
def WindowKind.all : List WindowKind :=
  Buf.all.map .data ++ (Ctx.all.map .brt ++ Ctx.all.map .twr ++ Ctx.all.map .twi)

theorem windows_eq (b : Build) : dataWindows b ++ tableWindows b = WindowKind.all.map (WindowKind.window b) := rfl

theorem WindowKind.mem_all (k : WindowKind) : k ∈ WindowKind.all := by
  unfold WindowKind.all
  cases k with
  | data m => exact List.mem_append_left _ (List.mem_map_of_mem m.mem_all)
  | brt c => simp [c.mem_all]
  | twr c => simp [c.mem_all]
  | twi c => simp [c.mem_all]

theorem WindowKind.separated :
    ∀ k ∈ WindowKind.all, ∀ k' ∈ WindowKind.all, k ≠ k' →
      k.base + 4 * k.room ≤ k'.base ∨ k'.base + 4 * k'.room ≤ k.base := by decide +kernel

theorem WindowKind.bounds :
    ∀ k ∈ WindowKind.all, 0x100000 ≤ k.base ∧ k.base % 4 = 0 ∧ k.base + 4 * k.room < 2 ^ 32 := by decide +kernel

theorem WindowKind.count_le_room {b : Build} (h : b.legal = true) (k : WindowKind) : k.count b ≤ k.room := by
  have := Build.maxLen_le h
  cases k with
  | data m => exact Buf.count_le_room h m
  | _ => simp only [WindowKind.count, WindowKind.room]; omega

theorem WindowKind.window_holds (b : Build) (k : WindowKind) (a : Nat) :
    (k.window b).holds a = true ↔ k.base ≤ a ∧ a < k.base + 4 * k.count b := by
  unfold Window.holds
  rw [Bool.and_eq_true, decide_eq_true_iff, decide_eq_true_iff]
  rfl

/-- At most one window holds an address. -/
theorem WindowKind.eq_of_holds {b : Build} (h : b.legal = true) {k k' : WindowKind} {a : Nat}
    (hk : (k.window b).holds a = true) (hk' : (k'.window b).holds a = true) : k = k' := by
  by_contra hne
  rw [WindowKind.window_holds] at hk hk'
  have h1 := WindowKind.count_le_room h k
  have h2 := WindowKind.count_le_room h k'
  rcases WindowKind.separated k k.mem_all k' k'.mem_all hne with h | h <;> omega

theorem csrOffsets_lookup_none {a : Nat} (h : 0x100 ≤ a) : csrOffsets.lookup a = none := by
  rw [List.lookup_eq_none_iff]
  intro p hp
  have : ∀ p ∈ csrOffsets, p.1 < 0x100 := by decide
  have := this p hp
  simp only [bne_iff_ne]
  omega

/-- An address inside a window names the word it falls into. -/
theorem locate_of_holds {b : Build} (h : b.legal = true) (k : WindowKind) {a : Nat}
    (hk : (k.window b).holds a = true) : locate b a = some ((k.window b).loc ((a - k.base) / 4)) := by
  have hb := WindowKind.bounds k k.mem_all
  have ha := (WindowKind.window_holds b k a).mp hk
  unfold locate
  rw [csrOffsets_lookup_none (by omega), windows_eq]
  dsimp only
  have hf : (WindowKind.all.map (WindowKind.window b)).find? (·.holds a) = some (k.window b) := by
    cases hf : (WindowKind.all.map (WindowKind.window b)).find? (·.holds a) with
    | none =>
      rw [List.find?_eq_none] at hf
      exact absurd hk (hf _ (List.mem_map_of_mem k.mem_all))
    | some w =>
      obtain ⟨k', -, rfl⟩ := List.mem_map.mp (List.mem_of_find?_eq_some hf)
      rw [WindowKind.eq_of_holds h hk (by simpa using List.find?_some hf)]
  rw [hf]
  rfl

/-- The address of word i of a window names it, is aligned and fits the 32 address bits. -/
theorem locate_word {b : Build} (h : b.legal = true) (k : WindowKind) {i : Nat} (hi : i < k.count b) :
    locate b (k.base + 4 * i) = some ((k.window b).loc i) ∧ (k.base + 4 * i) % 4 = 0 ∧ k.base + 4 * i < 2 ^ 32 := by
  have hb := WindowKind.bounds k k.mem_all
  have hr := WindowKind.count_le_room h k
  refine ⟨?_, by omega, by omega⟩
  rw [locate_of_holds h k ((WindowKind.window_holds b k _).mpr (by omega))]
  congr 2
  omega

/-- Where an address names a place, it is a register's offset or lies in the window of the place. -/
theorem locate_cases {b : Build} {a : Nat} {l : Loc} (hl : locate b a = some l) :
    (∃ r : Csr, a = r.addr ∧ l = .csr r) ∨
      ∃ k : WindowKind, (k.window b).holds a = true ∧ l = (k.window b).loc ((a - k.base) / 4) := by
  unfold locate at hl
  cases hc : csrOffsets.lookup a with
  | some r =>
    left
    rw [hc] at hl
    cases hl
    refine ⟨r, ?_, rfl⟩
    have hm : (a, r) ∈ csrOffsets := by
      rw [List.lookup_eq_some_iff] at hc
      obtain ⟨l1, l2, he, -⟩ := hc
      rw [he]; simp
    have : ∀ p ∈ csrOffsets, p.1 = p.2.addr := by decide
    exact this _ hm
  | none =>
    right
    rw [hc, windows_eq] at hl
    simp only [Option.map_eq_some_iff] at hl
    obtain ⟨w, hw, rfl⟩ := hl
    obtain ⟨k, -, rfl⟩ := List.mem_map.mp (List.mem_of_find?_eq_some hw)
    exact ⟨k, by simpa using List.find?_some hw, rfl⟩

/-- A register's offset names the register, in every build. -/
theorem locate_csr (b : Build) (r : Csr) : locate b r.addr = some (.csr r) := by
  have : csrOffsets.lookup r.addr = some r := by
    cases r <;> first | rfl | (rename_i c; cases c <;> rfl)
  unfold locate
  rw [this]

theorem Csr.addr_lt (r : Csr) : r.addr < 0x100 ∧ r.addr % 4 = 0 := by
  cases r <;> first | decide | (rename_i c; cases c <;> decide)

end Sys2Proof.Machine
end

