-- ==== Sys2Proof/Laws/HostPort.lean ====
section
/-! SUPPORT. Everything one host access can do, said once. -/

namespace Sys2Proof.Machine

open Sys2Proof

theorem aligned_iff (addr : Word) : addr.extractLsb' 0 2 = 0 ↔ addr.toNat % 4 = 0 := by
  constructor
  · intro h
    have := congrArg BitVec.toNat h
    simpa [BitVec.extractLsb'_toNat] using this
  · intro h
    apply BitVec.eq_of_toNat_eq
    simpa [BitVec.extractLsb'_toNat] using h

/-- An access to a register at its offset is served, whatever the state. -/
theorem target_csr (s : State) (r : Csr) : s.target (BitVec.ofNat 32 r.addr) .word = some (.csr r) := by
  have h := r.addr_lt
  have ht : (BitVec.ofNat 32 r.addr).toNat = r.addr := by
    rw [BitVec.toNat_ofNat]; exact Nat.mod_eq_of_lt (by omega)
  unfold State.target
  rw [if_neg, ht, locate_csr]
  · rfl
  · rintro (h' | h')
    · exact h' rfl
    · exact h' ((aligned_iff _).mpr (by rw [ht]; exact h.2))

theorem hostWrite_csr (s : State) (r : Csr) (v : Word) :
    hostWrite (BitVec.ofNat 32 r.addr) .word v s = (s.writeCsr v r, .ack) := by
  simp only [hostWrite, target_csr, State.writeLoc]

theorem hostRead_csr (s : State) (r : Csr) :
    hostRead (BitVec.ofNat 32 r.addr) .word s = (s, .data (s.readCsr r)) := by
  simp only [hostRead, target_csr, State.readLoc]

/-- What the checks of an access answer. -/
theorem target_cases (s : State) (addr : Word) (size : AccessSize) :
    (s.target addr size = none ∧
      (size ≠ .word ∨ addr.toNat % 4 ≠ 0 ∨ locate s.build addr.toNat = none ∨
        ∃ l, locate s.build addr.toNat = some l ∧ l.isCsr = false ∧ s.busy = true)) ∨
    ∃ l, s.target addr size = some l ∧ size = .word ∧ addr.toNat % 4 = 0 ∧ locate s.build addr.toNat = some l ∧
      (l.isCsr = true ∨ s.busy = false) := by
  unfold State.target
  by_cases h : size ≠ .word ∨ addr.extractLsb' 0 2 ≠ 0
  · rw [if_pos h]
    exact .inl ⟨rfl, h.imp id fun h => .inl fun ha => h ((aligned_iff addr).mpr ha)⟩
  · rw [if_neg h]
    have hs : size = .word := by by_contra hs; exact h (.inl hs)
    have ha : addr.toNat % 4 = 0 := (aligned_iff addr).mp (by by_contra ha; exact h (.inr ha))
    cases hl : locate s.build addr.toNat with
    | none => exact .inl ⟨rfl, by simp⟩
    | some l =>
      dsimp only
      cases hc : l.isCsr <;> cases hb : s.busy
      · exact .inr ⟨l, rfl, hs, ha, rfl, .inr rfl⟩
      · exact .inl ⟨rfl, .inr (.inr (.inr ⟨l, rfl, hc, rfl⟩))⟩
      · exact .inr ⟨l, rfl, hs, ha, rfl, .inl hc⟩
      · exact .inr ⟨l, rfl, hs, ha, rfl, .inl hc⟩

/-- An aligned word access that names a place reaches it while the block is idle. -/
theorem target_of_locate {s : State} {addr : Word} {l : Loc} (hb : s.busy = false) (ha : addr.toNat % 4 = 0)
    (hl : locate s.build addr.toNat = some l) : s.target addr .word = some l := by
  rcases target_cases s addr .word with ⟨-, h | h | h | ⟨_, -, -, h⟩⟩ | ⟨l', h, -, -, h', -⟩
  · exact absurd rfl h
  · exact absurd ha h
  · rw [hl] at h; cases h
  · rw [hb] at h; cases h
  · rw [hl] at h'; cases h'; exact h

/-- Word i of a window is reached at its address while the block is idle. -/
theorem target_word {s : State} (h : s.build.legal = true) (hb : s.busy = false) (k : WindowKind) {i : Nat}
    (hi : i < k.count s.build) : s.target (BitVec.ofNat 32 (k.base + 4 * i)) .word = some ((k.window s.build).loc i) := by
  obtain ⟨hl, h4, h32⟩ := locate_word h k hi
  have ht : (BitVec.ofNat 32 (k.base + 4 * i)).toNat = k.base + 4 * i := by
    rw [BitVec.toNat_ofNat]; exact Nat.mod_eq_of_lt h32
  exact target_of_locate hb (by rw [ht]; exact h4) (by rw [ht]; exact hl)

theorem hostWrite_of_target {s : State} {addr : Word} {size : AccessSize} {l : Loc} (v : Word)
    (h : s.target addr size = some l) : hostWrite addr size v s = (s.writeLoc v l, .ack) := by
  simp only [hostWrite, h]

theorem hostRead_of_target {s : State} {addr : Word} {size : AccessSize} {l : Loc}
    (h : s.target addr size = some l) : hostRead addr size s = (s, .data (s.readLoc l)) := by
  simp only [hostRead, h]

/-- A write is a bus error, or a write to a register, or stores one word of a data memory, or is ignored by a table. -/
theorem hostWrite_cases (addr : Word) (size : AccessSize) (v : Word) (s : State) :
    hostWrite addr size v s = (s.markBusError, .busError) ∨
    (∃ r, hostWrite addr size v s = (s.writeCsr v r, .ack)) ∨
    (∃ b i, i < b.count s.build ∧ hostWrite addr size v s = (s.withMem (s.mem.set b i v), .ack)) ∨
    hostWrite addr size v s = (s, .ack) := by
  rcases target_cases s addr size with ⟨ht, -⟩ | ⟨l, ht, -, -, hl, -⟩
  · exact .inl (by simp [hostWrite, ht])
  · have hw : hostWrite addr size v s = (s.writeLoc v l, .ack) := by simp [hostWrite, ht]
    rcases locate_cases hl with ⟨r, -, rfl⟩ | ⟨k, hk, rfl⟩
    · exact .inr (.inl ⟨r, hw⟩)
    · cases k with
      | data b =>
        have := (WindowKind.window_holds s.build (.data b) addr.toNat).mp hk
        simp only [WindowKind.base, WindowKind.count] at this
        exact .inr (.inr (.inl ⟨b, (addr.toNat - b.base) / 4, by omega, hw⟩))
      | brt c => exact .inr (.inr (.inr hw))
      | twr c => exact .inr (.inr (.inr hw))
      | twi c => exact .inr (.inr (.inr hw))

/-- A read changes nothing but BERR. -/
theorem hostRead_cases (addr : Word) (size : AccessSize) (s : State) :
    hostRead addr size s = (s.markBusError, .busError) ∨ ∃ x, hostRead addr size s = (s, .data x) := by
  unfold hostRead
  cases s.target addr size with
  | none => exact .inl rfl
  | some l => exact .inr ⟨_, rfl⟩

/-- A read of STATUS. -/
theorem hostRead_status (s : State) :
    hostRead (BitVec.ofNat 32 Csr.status.addr) .word s = (s, .data s.statusWord) := hostRead_csr s .status

theorem statusWord_busy (s : State) : s.statusWord.getLsbD 0 = s.busy := by
  unfold State.statusWord
  rw [BitVec.getLsbD_append]
  simp

@[simp] theorem blockAddress_systemAddress (base addr : Word) : blockAddress base (systemAddress base addr) = addr := by
  rw [blockAddress, systemAddress, BitVec.add_comm, BitVec.add_sub_cancel]

@[simp] theorem systemAddress_blockAddress (base addr : Word) : systemAddress base (blockAddress base addr) = addr := by
  rw [blockAddress, systemAddress, BitVec.add_comm, BitVec.sub_add_cancel]

/-- A queued write at a system address is the write at the block's own address. -/
theorem hostStep_write (s : State) (a v : Word) (size : AccessSize) :
    hostStep (.write (systemAddress s.build.blockBase a) size v) s =
      (hostWrite a size v s.tick.dropOp).1.answer (hostWrite a size v s.tick.dropOp).2 := by
  simp only [hostStep, blockAddress_systemAddress]

/-- A queued read at a system address is the read at the block's own address. -/
theorem hostStep_read (s : State) (a : Word) (size : AccessSize) :
    hostStep (.read (systemAddress s.build.blockBase a) size) s =
      (hostRead a size s.tick.dropOp).1.answer (hostRead a size s.tick.dropOp).2 := by
  simp only [hostStep, blockAddress_systemAddress]

/-- WAIT polls STATUS: it stays while BUSY, and is done when it has read BUSY = 0. -/
theorem hostStep_wait (s : State) :
    hostStep .wait s = if s.busy then s.tick.answer (.data s.statusWord)
      else (s.tick.answer (.data s.statusWord)).dropOp := by
  have hs : s.tick.statusWord = s.statusWord := rfl
  simp only [hostStep, hostRead_status, Reply.dataLines, hs, statusWord_busy]

/-! ## A command in flight -/

/-- The same command in flight or none, with the same operands and everything it reads or writes the same. -/
structure State.SameCommand (s t : State) : Prop where
  busy : t.busy = s.busy
  build : t.build = s.build
  lCmd : t.lCmd = s.lCmd
  lArg0 : t.lArg0 = s.lArg0
  lArg1 : t.lArg1 = s.lArg1
  plan : ∀ c, t.plan c = s.plan c
  v2d : t.v2d = s.v2d
  mem : t.mem = s.mem
  res0 : t.res0 = s.res0
  res1 : t.res1 = s.res1

theorem State.SameCommand.trans {s t u : State} (h : s.SameCommand t) (g : t.SameCommand u) : s.SameCommand u where
  busy := g.busy.trans h.busy
  build := g.build.trans h.build
  lCmd := g.lCmd.trans h.lCmd
  lArg0 := g.lArg0.trans h.lArg0
  lArg1 := g.lArg1.trans h.lArg1
  plan c := (g.plan c).trans (h.plan c)
  v2d := g.v2d.trans h.v2d
  mem := g.mem.trans h.mem
  res0 := g.res0.trans h.res0
  res1 := g.res1.trans h.res1

theorem State.SameCommand.refl (s : State) : s.SameCommand s := ⟨rfl, rfl, rfl, rfl, rfl, fun _ => rfl, rfl, rfl, rfl, rfl⟩

theorem sameCommand_tick (s : State) : s.SameCommand s.tick :=
  ⟨rfl, rfl, rfl, rfl, rfl, fun c => by cases c <;> rfl, rfl, rfl, rfl, rfl⟩

theorem sameCommand_dropOp (s : State) : s.SameCommand s.dropOp :=
  ⟨rfl, rfl, rfl, rfl, rfl, fun c => by cases c <;> rfl, rfl, rfl, rfl, rfl⟩

theorem sameCommand_answer (s : State) (r : Reply) : s.SameCommand (s.answer r) :=
  ⟨rfl, rfl, rfl, rfl, rfl, fun c => by cases c <;> rfl, rfl, rfl, rfl, rfl⟩

theorem sameCommand_markBusError (s : State) : s.SameCommand s.markBusError :=
  ⟨rfl, rfl, rfl, rfl, rfl, fun c => by cases c <;> rfl, rfl, rfl, rfl, rfl⟩

/-- While BUSY no register write touches the command in flight (46_control.md R293, R296). -/
theorem sameCommand_writeCsr (s : State) (v : Word) (r : Csr) (hb : s.busy = true) :
    s.SameCommand (s.writeCsr v r) ∧ (s.writeCsr v r).wait = s.wait ∧ (s.writeCsr v r).hostOps = s.hostOps := by
  have hkeep : ∀ t : State, (t.planP0 = s.planP0 ∧ t.planP1 = s.planP1 ∧ t.planR = s.planR ∧ t.planC = s.planC) →
      ∀ c, t.plan c = s.plan c := fun t h c => by
    cases c
    · exact h.1
    · exact h.2.1
    · exact h.2.2.1
    · exact h.2.2.2
  cases r
  case cmd =>
    rw [show s.writeCsr v .cmd = s.markOverrun from if_pos hb]
    exact ⟨⟨rfl, rfl, rfl, rfl, rfl, hkeep _ ⟨rfl, rfl, rfl, rfl⟩, rfl, rfl, rfl, rfl⟩, rfl, rfl⟩
  case ctrl => exact ⟨⟨rfl, rfl, rfl, rfl, rfl, hkeep _ ⟨rfl, rfl, rfl, rfl⟩, rfl, rfl, rfl, rfl⟩, rfl, rfl⟩
  case status => exact ⟨⟨rfl, rfl, rfl, rfl, rfl, hkeep _ ⟨rfl, rfl, rfl, rfl⟩, rfl, rfl, rfl, rfl⟩, rfl, rfl⟩
  case arg0 => exact ⟨⟨rfl, rfl, rfl, rfl, rfl, hkeep _ ⟨rfl, rfl, rfl, rfl⟩, rfl, rfl, rfl, rfl⟩, rfl, rfl⟩
  case arg1 => exact ⟨⟨rfl, rfl, rfl, rfl, rfl, hkeep _ ⟨rfl, rfl, rfl, rfl⟩, rfl, rfl, rfl, rfl⟩, rfl, rfl⟩
  all_goals exact ⟨.refl s, rfl, rfl⟩

/-- While BUSY no write touches the command in flight: the data windows answer with a bus error (20_memory.md R90). -/
theorem sameCommand_hostWrite (addr v : Word) (size : AccessSize) (s : State) (hb : s.busy = true) :
    s.SameCommand (hostWrite addr size v s).1 ∧ (hostWrite addr size v s).1.wait = s.wait ∧
      (hostWrite addr size v s).1.hostOps = s.hostOps := by
  rcases target_cases s addr size with ⟨h, -⟩ | ⟨l, h, -, -, -, hc⟩
  · simp only [hostWrite, h]
    exact ⟨sameCommand_markBusError s, rfl, rfl⟩
  · rw [hostWrite_of_target v h]
    have hc : l.isCsr = true := hc.resolve_right (by rw [hb]; exact Bool.noConfusion)
    cases l with
    | csr r => exact sameCommand_writeCsr s v r hb
    | buf b i => cases hc
    | brt c i => cases hc
    | twr c i => cases hc
    | twi c i => cases hc

/-- Everything a host step can do to a command in flight: a reset input abandons it; any other operation spends one host
step and leaves the command, its operands and all it will read as they are (46_control.md R298, 70_reset_and_hazards.md
R341). -/
theorem hostStep_inFlight (op : HostOp) (s : State) (hb : s.busy = true) :
    ((∃ cells, op = .reset cells) ∧ (hostStep op s).busy = false) ∨
    ((∀ cells, op ≠ .reset cells) ∧ s.SameCommand (hostStep op s) ∧ (hostStep op s).wait = s.wait - 1 ∧
      ((hostStep op s).hostOps = s.hostOps ∨ (hostStep op s).hostOps = s.hostOps.tail)) := by
  have hturn := (sameCommand_tick s).trans (sameCommand_dropOp s.tick)
  cases op with
  | reset cells => exact .inl ⟨⟨cells, rfl⟩, rfl⟩
  | wait =>
    refine .inr ⟨fun _ => HostOp.noConfusion, ?_⟩
    rw [hostStep_wait, if_pos hb]
    exact ⟨(sameCommand_tick s).trans (sameCommand_answer _ _), rfl, .inl rfl⟩
  | read a size =>
    refine .inr ⟨fun _ => HostOp.noConfusion, ?_⟩
    simp only [hostStep]
    rcases hostRead_cases (blockAddress s.build.blockBase a) size s.tick.dropOp with h | ⟨x, h⟩ <;> rw [h]
    · exact ⟨(hturn.trans (sameCommand_markBusError _)).trans (sameCommand_answer _ _), rfl, .inr rfl⟩
    · exact ⟨hturn.trans (sameCommand_answer _ _), rfl, .inr rfl⟩
  | write a size v =>
    refine .inr ⟨fun _ => HostOp.noConfusion, ?_⟩
    obtain ⟨hsame, hwait, hops⟩ := sameCommand_hostWrite (blockAddress s.build.blockBase a) v size s.tick.dropOp hb
    exact ⟨(hturn.trans hsame).trans (sameCommand_answer _ _), hwait, .inr hops⟩

end Sys2Proof.Machine
end

