-- ==== Sys2Proof/Laws/PerInstr.lean ====
section
/-! SUPPORT. Families of statements about every command as syntax, one lemma per constructor. -/

namespace Sys2Proof.Laws.EncodedWord

open Sys2Proof

/-- OPC of a command, the number in bits 3:0 of its word; none for the reserved row, which has no single OPC
(30_encoding.md R121). -/
def opc : Instr → Option (BitVec 4)
  | .nop => some 0x0
  | .planCreate _ => some 0x1
  | .planDestroy _ => some 0x2
  | .loadReal _ => some 0x3
  | .loadCplx _ => some 0x4
  | .run _ _ => some 0x5
  | .transform _ _ _ => some 0x6
  | .result _ => some 0x7
  | .mag _ => some 0x8
  | .nmag _ => some 0x9
  | .isqrt => some 0xA
  | .plan2dCreate => some 0xB
  | .plan2dDestroy => some 0xC
  | .transform2d _ => some 0xD
  | .result2d => some 0xE
  | .reserved _ => none

/-- A legal word with a given OPC and zeros in the reserved bits 7:6 and 31:9. -/
def hasShape (w : Word) (n : BitVec 4) : Bool :=
  legalWord w && w.extractLsb' 0 4 == n && w.extractLsb' 6 2 == 0 && w.extractLsb' 9 23 == 0

/-- The word of a command: legal, with its OPC in bits 3:0 and zeros in the reserved bits 7:6 and 31:9; the word of a
well-formed reserved row is not legal (30_encoding.md R111, R116, R123). -/
def Statement (i : Instr) : Prop :=
  match opc i with
  | some n => hasShape (encodeWord i) n = true
  | none => wellFormed i = true → legalWord (encodeWord i) = false

theorem nop : Statement .nop := by (show hasShape _ _ = true; decide)
theorem planCreate (c : HostCtx) : Statement (.planCreate c) := by cases c <;> (show hasShape _ _ = true; decide)
theorem planDestroy (c : HostCtx) : Statement (.planDestroy c) := by cases c <;> (show hasShape _ _ = true; decide)
theorem loadReal (c : HostCtx) : Statement (.loadReal c) := by cases c <;> (show hasShape _ _ = true; decide)
theorem loadCplx (c : HostCtx) : Statement (.loadCplx c) := by cases c <;> (show hasShape _ _ = true; decide)
theorem run (c : HostCtx) (d : Direction) : Statement (.run c d) := by
  cases c <;> cases d <;> (show hasShape _ _ = true; decide)
theorem transform (c : HostCtx) (d : Direction) (k : InputKind) : Statement (.transform c d k) := by
  cases c <;> cases d <;> cases k <;> (show hasShape _ _ = true; decide)
theorem result (c : HostCtx) : Statement (.result c) := by cases c <;> (show hasShape _ _ = true; decide)
theorem mag (c : HostCtx) : Statement (.mag c) := by cases c <;> (show hasShape _ _ = true; decide)
theorem nmag (c : HostCtx) : Statement (.nmag c) := by cases c <;> (show hasShape _ _ = true; decide)
theorem isqrt : Statement .isqrt := by (show hasShape _ _ = true; decide)
theorem plan2dCreate : Statement .plan2dCreate := by (show hasShape _ _ = true; decide)
theorem plan2dDestroy : Statement .plan2dDestroy := by (show hasShape _ _ = true; decide)
theorem transform2d (d : Direction) : Statement (.transform2d d) := by cases d <;> (show hasShape _ _ = true; decide)
theorem result2d : Statement .result2d := by (show hasShape _ _ = true; decide)
theorem reserved (w : Word) : Statement (.reserved w) := by
  intro h
  simpa [wellFormed, encodeWord] using h

end Sys2Proof.Laws.EncodedWord
end

