-- ==== Sys2Proof/Laws/Step.lean ====
section
/-! SUPPORT. Which agent a step runs, and that the sequencer runs the command of L_CMD. -/

namespace Sys2Proof.Machine

open Sys2Proof

/-- Runs unfold one step at a time. -/
theorem core_run_succ (M : Host.Core) (k : Nat) (s t : M.State) (h : M.step s = .next t) :
    M.run (k + 1) s = M.run k t := by
  simp [Host.Core.run, h]

theorem core_run_zero (M : Host.Core) (s : M.State) : M.run 0 s = .next s := by simp [Host.Core.run]

/-- No step leaves the state as it is. -/
theorem run_zero (s : State) : Sys2Proof.core.run 0 s = .next s := core_run_zero Sys2Proof.core s

/-- A run of the block unfolds one step at a time. -/
theorem run_succ (k : Nat) (s t : State) (h : step s = .next t) :
    Sys2Proof.core.run (k + 1) s = Sys2Proof.core.run k t := core_run_succ Sys2Proof.core k s t h

/-- SeqStep runs the command of the word in L_CMD. -/
theorem seqStep_eq (s : State) : seqStep s = exec (decodeWord s.lCmd) s := by
  simp only [seqStep, State.commandBytes, decode_wordBytes]

theorem seqTurn_iff (s : State) : s.seqTurn = true ↔ s.busy = true ∧ (s.wait = 0 ∨ s.hostOps = []) := by
  simp [State.seqTurn]

/-- The three cases of a step. -/
theorem step_cases (s : State) :
    (s.seqTurn = true ∧ step s = exec (decodeWord s.lCmd) s) ∨
    (s.seqTurn = false ∧ s.hostOps = [] ∧ s.busy = false ∧ step s = .next s) ∨
    ∃ op rest, s.seqTurn = false ∧ s.hostOps = op :: rest ∧ step s = .next (hostStep op s) := by
  unfold step
  by_cases h : s.seqTurn = true
  · exact .inl ⟨h, by rw [if_pos h, seqStep_eq]⟩
  · rw [if_neg h]
    have hf : s.seqTurn = false := by simpa using h
    cases ho : s.hostOps with
    | nil =>
      refine .inr (.inl ⟨hf, rfl, ?_, rfl⟩)
      by_contra hb
      exact h ((seqTurn_iff s).mpr ⟨by simpa using hb, .inr ho⟩)
    | cons op rest => exact .inr (.inr ⟨op, rest, hf, rfl, rfl⟩)

end Sys2Proof.Machine
end

