-- ==== Sys2Proof/Laws/TwiddleRom.lean ====
section
/-! SUPPORT. Rational bounds of the cosine, and that a table given by runs is the rounded cosine of 42_twiddle_rom.md R190
where every run begins and ends inside its half unit: the cosine falls, so nothing need be said of the entries between. -/

namespace Sys2Proof.Machine

/-! ## Partial sums of the cosine series -/

/-- The first n terms of the series of cos at q. -/
def cosSum (q : ℚ) : ℕ → ℚ
  | 0 => 0
  | n + 1 => cosSum q n + (-1) ^ n * q ^ (2 * n) / (2 * n).factorial

theorem mul_I_pow_even (x : ℝ) (k : ℕ) :
    ((x : ℂ) * Complex.I) ^ (2 * k) = (((-1) ^ k * x ^ (2 * k) : ℝ) : ℂ) := by
  rw [pow_mul, mul_pow, Complex.I_sq, pow_mul]
  push_cast
  rw [mul_pow]
  ring

theorem exp_term_even (x : ℝ) (k : ℕ) :
    (((x : ℂ) * Complex.I) ^ (2 * k) / ((2 * k).factorial : ℂ)).re = (-1) ^ k * x ^ (2 * k) / (2 * k).factorial := by
  rw [mul_I_pow_even]
  norm_cast

theorem exp_term_odd (x : ℝ) (k : ℕ) :
    (((x : ℂ) * Complex.I) ^ (2 * k + 1) / ((2 * k + 1).factorial : ℂ)).re = 0 := by
  rw [pow_succ, mul_I_pow_even, ← mul_assoc, mul_div_right_comm, Complex.mul_I_re, neg_eq_zero]
  norm_cast

/-- The error of n terms of the series is at most twice the next one. -/
theorem cos_series_error (x : ℝ) (h0 : 0 ≤ x) (n : ℕ) (hx : x * 2 ≤ 2 * n + 1) :
    |Real.cos x - ∑ k ∈ Finset.range n, (-1) ^ k * x ^ (2 * k) / (2 * k).factorial| ≤
      x ^ (2 * n) / (2 * n).factorial * 2 := by
  have h := Complex.exp_bound' (x := (x : ℂ) * Complex.I) (n := 2 * n) (by
    simp only [norm_mul, Complex.norm_real, Complex.norm_I, mul_one, Real.norm_of_nonneg h0]
    rw [div_le_div_iff₀ (by positivity) (by norm_num)]
    push_cast
    linarith)
  have e : (Complex.exp (x * Complex.I) - ∑ m ∈ Finset.range (2 * n), (x * Complex.I : ℂ) ^ m / (m.factorial : ℂ)).re =
      Real.cos x - ∑ k ∈ Finset.range n, (-1) ^ k * x ^ (2 * k) / (2 * k).factorial := by
    rw [Complex.sub_re, Complex.exp_ofReal_mul_I_re]
    congr 1
    clear h hx
    induction n with
    | zero => simp
    | succ n ih =>
      rw [show 2 * (n + 1) = 2 * n + 1 + 1 by ring, Finset.sum_range_succ, Finset.sum_range_succ, Finset.sum_range_succ,
        Complex.add_re, Complex.add_re, ih, exp_term_even, exp_term_odd, add_zero]
  rw [← e]
  refine (Complex.abs_re_le_norm _).trans (h.trans (le_of_eq ?_))
  simp [abs_of_nonneg h0]

theorem cosSum_cast (q : ℚ) (n : ℕ) :
    (cosSum q n : ℝ) = ∑ k ∈ Finset.range n, (-1) ^ k * (q : ℝ) ^ (2 * k) / (2 * k).factorial := by
  induction n with
  | zero => simp [cosSum]
  | succ n ih =>
    rw [Finset.sum_range_succ, ← ih, cosSum]
    push_cast
    rfl

/-- The same for the rational sums. -/
theorem cosSum_error (q : ℚ) (h0 : 0 ≤ q) (n : ℕ) (hq : q * 2 ≤ 2 * n + 1) :
    |Real.cos q - cosSum q n| ≤ (q ^ (2 * n) / (2 * n).factorial * 2 : ℚ) := by
  rw [cosSum_cast]
  push_cast
  exact cos_series_error q (by exact_mod_cast h0) n (by exact_mod_cast hq)

/-! ## The cosine at the entries of the ROM -/

/-- cos(2πm/32768), the value that entry m rounds (42_twiddle_rom.md R190). -/
noncomputable def romCosine (m : ℕ) : ℝ := Real.cos (2 * Real.pi * m / 32768)

/-- Twenty digits of π, and the next number of twenty digits. -/
def piBelow : ℚ := 314159265358979323846 / 10 ^ 20
def piAbove : ℚ := 314159265358979323847 / 10 ^ 20

/-- 2πm/32768 for an approximation p of π. -/
def romAngle (p : ℚ) (m : ℕ) : ℚ := p * m / 16384

/-- A rational that entry m's cosine does not exceed. -/
def cosineAbove (m : ℕ) : ℚ :=
  cosSum (romAngle piBelow m) 8 + romAngle piBelow m ^ 16 / (16 : ℕ).factorial * 2

/-- A rational that does not exceed entry m's cosine. -/
def cosineBelow (m : ℕ) : ℚ :=
  cosSum (romAngle piAbove m) 8 - romAngle piAbove m ^ 16 / (16 : ℕ).factorial * 2

theorem romCosine_le_cosineAbove (m : ℕ) (h : m ≤ 8192) : romCosine m ≤ cosineAbove m := by
  have hm : (m : ℝ) ≤ 8192 := by exact_mod_cast h
  have hmq : (m : ℚ) ≤ 8192 := by exact_mod_cast h
  have h0 : (0 : ℚ) ≤ romAngle piBelow m := by unfold romAngle piBelow; positivity
  have hl : ((romAngle piBelow m : ℚ) : ℝ) ≤ 2 * Real.pi * m / 32768 := by
    have hp := Real.pi_gt_d20
    have : (314159265358979323846 / 10 ^ 20 : ℝ) ≤ Real.pi := by norm_num at hp ⊢; linarith
    have := mul_le_mul_of_nonneg_right this (Nat.cast_nonneg (α := ℝ) m)
    unfold romAngle piBelow
    push_cast
    linarith
  have h1 : romCosine m ≤ Real.cos (romAngle piBelow m) := by
    refine Real.cos_le_cos_of_nonneg_of_le_pi (by exact_mod_cast h0) ?_ hl
    have := mul_le_mul_of_nonneg_left hm Real.pi_pos.le
    linarith [Real.pi_pos]
  have h2 := (abs_le.mp (cosSum_error (romAngle piBelow m) h0 8 (by unfold romAngle piBelow; push_cast; linarith))).2
  unfold cosineAbove
  push_cast at h2 ⊢
  linarith

theorem cosineBelow_le_romCosine (m : ℕ) (h : m ≤ 8192) : cosineBelow m ≤ romCosine m := by
  have hmq : (m : ℚ) ≤ 8192 := by exact_mod_cast h
  have h0 : (0 : ℚ) ≤ romAngle piAbove m := by unfold romAngle piAbove; positivity
  have hl : 2 * Real.pi * m / 32768 ≤ ((romAngle piAbove m : ℚ) : ℝ) := by
    have hp := Real.pi_lt_d20
    have : Real.pi ≤ (314159265358979323847 / 10 ^ 20 : ℝ) := by norm_num at hp ⊢; linarith
    have := mul_le_mul_of_nonneg_right this (Nat.cast_nonneg (α := ℝ) m)
    unfold romAngle piAbove
    push_cast
    linarith
  have h1 : Real.cos (romAngle piAbove m) ≤ romCosine m := by
    refine Real.cos_le_cos_of_nonneg_of_le_pi (by positivity) ?_ hl
    have : ((romAngle piAbove m : ℚ) : ℝ) ≤ 3 := by
      have : romAngle piAbove m ≤ 3 := by unfold romAngle piAbove; linarith
      exact_mod_cast this
    linarith [Real.pi_gt_three]
  have h2 := (abs_le.mp (cosSum_error (romAngle piAbove m) h0 8 (by unfold romAngle piAbove; push_cast; linarith))).1
  unfold cosineBelow
  push_cast at h2 ⊢
  linarith

/-- The cosine falls along the ROM. -/
theorem romCosine_anti {a b : ℕ} (h : a ≤ b) (hb : b ≤ 8192) : romCosine b ≤ romCosine a := by
  have hm : (b : ℝ) ≤ 8192 := by exact_mod_cast hb
  have hab : (a : ℝ) ≤ b := by exact_mod_cast h
  have := mul_le_mul_of_nonneg_left hm Real.pi_pos.le
  have := mul_le_mul_of_nonneg_left hab Real.pi_pos.le
  exact Real.cos_le_cos_of_nonneg_of_le_pi (by positivity) (by linarith [Real.pi_pos]) (by linarith)

/-! ## Tables given by runs -/

/-- Each run, the first of which holds `v` and begins at index `start`, lies inside its half unit at both its ends. -/
def runsFit : List ℕ → (v start : ℕ) → Bool
  | [], _, _ => true
  | run :: runs, v, s =>
    (decide (0 < run) && decide (s + run ≤ 8193) && decide (cosineAbove s * 512 < 2 * v + 1) &&
      decide (2 * (v : ℚ) - 1 < cosineBelow (s + run - 1) * 512)) && runsFit runs (v - 1) (s + run)

/-- A table whose runs fit lies within one half of the cosine, entry by entry, for F = 8. -/
theorem entryOfRuns_near (runs : List ℕ) : ∀ v s, runsFit runs v s = true → ∀ m < runs.sum,
    |romCosine (s + m) * 2 ^ 8 - (entryOfRuns runs v m : ℤ)| < 1 / 2 := by
  induction runs with
  | nil => intro v s _ m hm; simp at hm
  | cons run runs ih =>
    intro v s h m hm
    simp only [runsFit, Bool.and_eq_true, decide_eq_true_eq] at h
    obtain ⟨⟨⟨⟨_, hend⟩, habove⟩, hbelow⟩, hrest⟩ := h
    unfold entryOfRuns
    split_ifs with hlt
    · have hfirst := romCosine_anti (show s ≤ s + m by omega) (by omega)
      have hlast := romCosine_anti (show s + m ≤ s + run - 1 by omega) (by omega)
      have hhi := romCosine_le_cosineAbove s (by omega)
      have hlo := cosineBelow_le_romCosine (s + run - 1) (by omega)
      have habove' : (cosineAbove s : ℝ) * 512 < 2 * v + 1 := by exact_mod_cast habove
      have hbelow' : 2 * (v : ℝ) - 1 < (cosineBelow (s + run - 1) : ℝ) * 512 := by exact_mod_cast hbelow
      rw [abs_lt]
      push_cast
      constructor <;> linarith
    · have hm' : m - run < runs.sum := by simp only [List.sum_cons] at hm; omega
      have := ih (v - 1) (s + run) hrest (m - run) hm'
      rwa [show s + run + (m - run) = s + m by omega] at this

/-- A number within one half of an integer rounds to it. -/
theorem round_eq_of_near {x : ℝ} {n : ℤ} (h : |x - n| < 1 / 2) : round x = n := by
  rw [abs_lt] at h
  rw [round_eq, Int.floor_eq_iff]
  constructor <;> linarith

/-- A table whose runs fit is the rounded cosine, entry by entry, for F = 8. -/
theorem entryOfRuns_eq_round (runs : List ℕ) (v s : ℕ) (h : runsFit runs v s = true) (m : ℕ) (hm : m < runs.sum) :
    (entryOfRuns runs v m : ℤ) = round (romCosine (s + m) * 2 ^ 8) :=
  (round_eq_of_near (entryOfRuns_near runs v s h m hm)).symm

/-! ## The computed entries -/

/-- The nested form of the series over the reals: `cosSeries` without its floors. -/
noncomputable def cosNested (y : ℝ) : (terms k : ℕ) → ℝ
  | 0, _ => 1
  | n + 1, k => 1 - y * cosNested y n (k + 1) / ((2 * k - 1) * (2 * k) : ℕ)

/-- The nested form is the sum of the series from its term 2i on, times (2i)!. -/
theorem cosNested_eq_sum (y : ℝ) (n : ℕ) : ∀ i,
    cosNested y n (i + 1) / (2 * i).factorial =
      ∑ j ∈ Finset.range (n + 1), (-1) ^ j * y ^ j / (2 * i + 2 * j).factorial := by
  induction n with
  | zero => intro i; simp [cosNested]
  | succ n ih =>
    intro i
    rw [Finset.sum_range_succ']
    have h1 : ∑ j ∈ Finset.range (n + 1), (-1) ^ (j + 1) * y ^ (j + 1) / ((2 * i + 2 * (j + 1)).factorial : ℝ) =
        -y * ∑ j ∈ Finset.range (n + 1), (-1) ^ j * y ^ j / ((2 * (i + 1) + 2 * j).factorial : ℝ) := by
      rw [Finset.mul_sum]
      refine Finset.sum_congr rfl fun j _ => ?_
      rw [show 2 * i + 2 * (j + 1) = 2 * (i + 1) + 2 * j by ring]
      ring
    rw [h1, ← ih (i + 1), cosNested]
    have h2 : ((2 * (i + 1)).factorial : ℝ) = (2 * i + 1) * (2 * i + 2) * (2 * i).factorial := by
      rw [show 2 * (i + 1) = 2 * i + 1 + 1 by ring, Nat.factorial_succ, Nat.factorial_succ]; push_cast; ring
    have h3 : (((2 * (i + 1) - 1) * (2 * (i + 1)) : ℕ) : ℝ) = (2 * i + 1) * (2 * i + 2) := by
      rw [show 2 * (i + 1) - 1 = 2 * i + 1 by omega]; push_cast; ring
    rw [h2, h3]
    have := Nat.factorial_pos (2 * i)
    field_simp
    simp
    ring

/-- The two floors of one level of `cosSeries` lose less than 2. -/
theorem ediv_ediv_error (a : ℤ) {d : ℕ} (hd : 1 ≤ d) :
    (((a / 2 ^ 96) / d : ℤ) : ℝ) ≤ (a : ℝ) / 2 ^ 96 / d ∧ (a : ℝ) / 2 ^ 96 / d - 2 ≤ (((a / 2 ^ 96) / d : ℤ) : ℝ) := by
  have hd' : (1 : ℝ) ≤ d := by exact_mod_cast hd
  have hdz : (0 : ℤ) < d := by exact_mod_cast hd
  generalize hz : a / 2 ^ 96 = z
  have a1 : z * 2 ^ 96 ≤ a := by rw [← hz]; exact Int.ediv_mul_le a (by norm_num)
  have a2 : a < (z + 1) * 2 ^ 96 := by rw [← hz]; exact Int.lt_ediv_add_one_mul_self a (by norm_num)
  generalize hw : z / (d : ℤ) = w
  have b1 : w * d ≤ z := by rw [← hw]; exact Int.ediv_mul_le z (by omega)
  have b2 : z < (w + 1) * d := by rw [← hw]; exact Int.lt_ediv_add_one_mul_self z hdz
  have a1' : (z : ℝ) * 2 ^ 96 ≤ a := by exact_mod_cast a1
  have a2' : (a : ℝ) < (z + 1) * 2 ^ 96 := by exact_mod_cast a2
  have b1' : (w : ℝ) * d ≤ z := by exact_mod_cast b1
  have b2' : (z : ℝ) < (w + 1) * d := by exact_mod_cast b2
  rw [div_div]
  constructor
  · rw [le_div_iff₀ (by positivity)]; nlinarith
  · rw [sub_le_iff_le_add, div_le_iff₀ (by positivity)]; nlinarith

/-- From the second level on the nested form is small. -/
theorem cosNested_abs (y : ℝ) (h0 : 0 ≤ y) (h3 : y ≤ 3) (n k : ℕ) (hk : 2 ≤ k) : |cosNested y n k| ≤ 4 / 3 := by
  induction n generalizing k with
  | zero => simp [cosNested]; norm_num
  | succ n ih =>
    have h := abs_le.mp (ih (k + 1) (by omega))
    have hd : (12 : ℝ) ≤ ((2 * k - 1) * (2 * k) : ℕ) := by
      have : 3 * 4 ≤ (2 * k - 1) * (2 * k) := Nat.mul_le_mul (by omega) (by omega)
      exact_mod_cast this
    rw [cosNested, abs_le]
    generalize (((2 * k - 1) * (2 * k) : ℕ) : ℝ) = d at hd
    have u : y * cosNested y n (k + 1) / d ≤ 1 / 3 := by rw [div_le_iff₀ (by linarith)]; nlinarith
    have l : -(1 / 3) ≤ y * cosNested y n (k + 1) / d := by rw [le_div_iff₀ (by linarith)]; nlinarith
    constructor <;> linarith

/-- One level of `cosSeries`: its own floors, and the error of the level below divided. -/
theorem cosSeries_step (x2 : ℕ) (y : ℝ) (h0 : 0 ≤ y) (h3 : y ≤ 3) (hx : |(x2 : ℝ) - y * 2 ^ 96| ≤ 1) (n k : ℕ)
    (hk : 1 ≤ k)
    (h : |(cosSeries x2 n (k + 1) : ℝ) - cosNested y n (k + 1) * 2 ^ 96| ≤ 4) :
    |(cosSeries x2 (n + 1) k : ℝ) - cosNested y (n + 1) k * 2 ^ 96| ≤ 2 + (14 : ℝ) / ((2 * k - 1) * (2 * k) : ℕ) := by
  have hd : 2 ≤ (2 * k - 1) * (2 * k) := by nlinarith [show 1 ≤ 2 * k - 1 by omega]
  rw [cosSeries, cosNested]
  generalize (2 * k - 1) * (2 * k) = d at hd
  have hd' : (2 : ℝ) ≤ d := by exact_mod_cast hd
  have hN := abs_le.mp (cosNested_abs y h0 h3 n (k + 1) (by omega))
  obtain ⟨q1, q2⟩ := ediv_ediv_error (x2 * cosSeries x2 n (k + 1)) (show 1 ≤ d by omega)
  generalize (x2 * cosSeries x2 n (k + 1) : ℤ) / 2 ^ 96 / (d : ℤ) = q at *
  push_cast at q1 q2
  rw [show ((2 ^ 96 - q : ℤ) : ℝ) = 2 ^ 96 - q by push_cast; norm_num]
  generalize (q : ℝ) = q at *
  generalize (cosSeries x2 n (k + 1) : ℝ) = c at *
  generalize cosNested y n (k + 1) = N at *
  generalize (x2 : ℝ) = X at *
  have hx := abs_le.mp hx
  have h := abs_le.mp h
  have e : X * c / 2 ^ 96 / d - y * N / d * 2 ^ 96 = ((X - y * 2 ^ 96) * (c / 2 ^ 96) + y * (c - N * 2 ^ 96)) / d := by
    field_simp; ring
  have c1 : |c / 2 ^ 96| ≤ 2 := by
    rw [abs_div, div_le_iff₀ (by positivity), abs_of_nonneg (show (0 : ℝ) ≤ 2 ^ 96 by positivity), abs_le]
    constructor <;> linarith
  have t1 : |(X - y * 2 ^ 96) * (c / 2 ^ 96)| ≤ 1 * 2 := by
    rw [abs_mul]
    exact mul_le_mul (abs_le.mpr hx) c1 (abs_nonneg _) (by norm_num)
  have t2 : |y * (c - N * 2 ^ 96)| ≤ 3 * 4 := by
    rw [abs_mul, abs_of_nonneg h0]
    exact mul_le_mul h3 (abs_le.mpr h) (abs_nonneg _) (by norm_num)
  have t3 : |X * c / 2 ^ 96 / d - y * N / d * 2 ^ 96| ≤ (14 : ℝ) / d := by
    rw [e, abs_div, abs_of_nonneg (show (0 : ℝ) ≤ d by linarith)]
    exact div_le_div_of_nonneg_right ((abs_add_le _ _).trans ((add_le_add t1 t2).trans (by norm_num))) (by linarith)
  have t3 := abs_le.mp t3
  rw [abs_le]
  constructor <;> linarith

/-- From the second level on the error stays below 4 units of 2^-96. -/
theorem cosSeries_error (x2 : ℕ) (y : ℝ) (h0 : 0 ≤ y) (h3 : y ≤ 3) (hx : |(x2 : ℝ) - y * 2 ^ 96| ≤ 1) (n k : ℕ)
    (hk : 2 ≤ k) :
    |(cosSeries x2 n k : ℝ) - cosNested y n k * 2 ^ 96| ≤ 4 := by
  induction n generalizing k with
  | zero => norm_num [cosSeries, cosNested]
  | succ n ih =>
    refine (cosSeries_step x2 y h0 h3 hx n k (by omega) (ih (k + 1) (by omega))).trans ?_
    have hd : (12 : ℝ) ≤ ((2 * k - 1) * (2 * k) : ℕ) := by
      have : 3 * 4 ≤ (2 * k - 1) * (2 * k) := Nat.mul_le_mul (by omega) (by omega)
      exact_mod_cast this
    have : (14 : ℝ) / ((2 * k - 1) * (2 * k) : ℕ) ≤ 2 := by rw [div_le_iff₀ (by linarith)]; linarith
    linarith

/-- The series of entry m is its cosine up to 2^-58. -/
theorem romSeries_error (m : ℕ) (hm : m ≤ 8192) :
    |(cosSeries (piScaled * m / 2 ^ 14 * (piScaled * m / 2 ^ 14) / 2 ^ 96) 16 1 : ℝ) - romCosine m * 2 ^ 96| ≤ 2 ^ 38 := by
  have hmr : (m : ℝ) ≤ 8192 := by exact_mod_cast hm
  have hm0 : (0 : ℝ) ≤ m := Nat.cast_nonneg m
  obtain ⟨X, hX⟩ : ∃ X, X = piScaled * m / 2 ^ 14 := ⟨_, rfl⟩
  rw [← hX]
  have x1 : X * 2 ^ 14 ≤ piScaled * m := by rw [hX]; exact Nat.div_mul_le_self _ _
  have x2 : piScaled * m < (X + 1) * 2 ^ 14 := by rw [hX]; omega
  have x1' : (X : ℝ) * 2 ^ 14 ≤ 248902613312231085230521944622 * m := by exact_mod_cast x1
  have x2' : (248902613312231085230521944622 : ℝ) * m < (X + 1) * 2 ^ 14 := by exact_mod_cast x2
  have hp := Real.pi_gt_d20
  have hp2 := Real.pi_lt_d20
  set T : ℝ := X / 2 ^ 96 with hT
  have hT0 : 0 ≤ T := by positivity
  have hT1 : T ≤ 8 / 5 := by rw [hT, div_le_iff₀ (by positivity)]; linarith
  have y3 : T ^ 2 ≤ 3 := by nlinarith
  have hy : |((X * X / 2 ^ 96 : ℕ) : ℝ) - T ^ 2 * 2 ^ 96| ≤ 1 := by
    have a1 : X * X / 2 ^ 96 * 2 ^ 96 ≤ X * X := Nat.div_mul_le_self _ _
    have a2 : X * X < (X * X / 2 ^ 96 + 1) * 2 ^ 96 := by omega
    generalize X * X / 2 ^ 96 = z at *
    have a1' : (z : ℝ) * 2 ^ 96 ≤ X * X := by exact_mod_cast a1
    have a2' : (X : ℝ) * X < (z + 1) * 2 ^ 96 := by exact_mod_cast a2
    have e : T ^ 2 * 2 ^ 96 * 2 ^ 96 = X * X := by rw [hT]; field_simp
    rw [abs_le]
    constructor <;> nlinarith
  have hs := cosSeries_step _ _ (by positivity) y3 hy 15 1 le_rfl (cosSeries_error _ _ (by positivity) y3 hy 15 2 le_rfl)
  have hn : cosNested (T ^ 2) 16 1 = ∑ k ∈ Finset.range 17, (-1) ^ k * T ^ (2 * k) / (2 * k).factorial := by
    have := cosNested_eq_sum (T ^ 2) 16 0
    simpa [← pow_mul] using this
  have ht := cos_series_error T hT0 17 (by push_cast; linarith)
  rw [← hn] at ht
  have hsmall : T ^ (2 * 17) / ((2 * 17).factorial : ℝ) * 2 ≤ 1 / 2 ^ 60 := by
    have : T ^ (2 * 17) ≤ (8 / 5) ^ (2 * 17) := pow_le_pow_left₀ hT0 hT1 _
    have hc : ((8 : ℝ) / 5) ^ (2 * 17) / ((2 * 17).factorial : ℝ) * 2 ≤ 1 / 2 ^ 60 := by norm_num [Nat.factorial]
    refine le_trans ?_ hc
    gcongr
  have hang : |T - 2 * Real.pi * m / 32768| ≤ 1 / 2 ^ 60 := by
    have hp' : |(248902613312231085230521944622 : ℝ) - Real.pi * 2 ^ 96| ≤ 2 ^ 30 := by
      norm_num at hp hp2
      rw [abs_le]; constructor <;> linarith
    have hq := abs_le.mp hp'
    have e : T - 2 * Real.pi * m / 32768 = (X * 2 ^ 14 - Real.pi * 2 ^ 96 * m) / 2 ^ 110 := by rw [hT]; field_simp; ring
    rw [e, abs_div, div_le_div_iff₀ (by positivity) (by positivity), abs_of_nonneg (show (0 : ℝ) ≤ 2 ^ 110 by positivity)]
    have : |(X : ℝ) * 2 ^ 14 - Real.pi * 2 ^ 96 * m| ≤ 2 ^ 43 + 2 ^ 14 := by
      rw [abs_le]; constructor <;> nlinarith
    linarith
  have hcos : |Real.cos T - romCosine m| ≤ 1 / 2 ^ 60 := by
    refine le_trans ?_ hang
    exact Real.abs_cos_sub_cos_le _ _
  rw [show (2 : ℝ) + 14 / ((2 * 1 - 1) * (2 * 1) : ℕ) = 9 by norm_num] at hs
  have hs := abs_le.mp hs
  have ht := abs_le.mp (ht.trans hsmall)
  have hcos := abs_le.mp hcos
  rw [abs_le]
  constructor <;> linarith

/-- A computed entry lies within one half and 2^-40 of its cosine, for every legal F. -/
theorem romEntryComputed_near (f m : ℕ) (hf : f ≤ 16) (hm : m ≤ 8192) :
    |(romEntryComputed f m : ℝ) - romCosine m * 2 ^ f| ≤ 1 / 2 + 1 / 2 ^ 40 := by
  have h := abs_le.mp (romSeries_error m hm)
  unfold romEntryComputed
  dsimp only
  generalize cosSeries (piScaled * m / 2 ^ 14 * (piScaled * m / 2 ^ 14) / 2 ^ 96) 16 1 = c at *
  have a1 := Int.ediv_mul_le (c * 2 ^ f + 2 ^ 95) (show (2 ^ 96 : ℤ) ≠ 0 by norm_num)
  have a2 := Int.lt_ediv_add_one_mul_self (c * 2 ^ f + 2 ^ 95) (show (0 : ℤ) < 2 ^ 96 by norm_num)
  generalize (c * 2 ^ f + 2 ^ 95) / 2 ^ 96 = q at *
  have a1' : (q : ℝ) * 2 ^ 96 ≤ c * 2 ^ f + 2 ^ 95 := by exact_mod_cast a1
  have a2' : (c : ℝ) * 2 ^ f + 2 ^ 95 < (q + 1) * 2 ^ 96 := by exact_mod_cast a2
  have hg : (2 : ℝ) ^ f ≤ 2 ^ 16 := pow_le_pow_right₀ (by norm_num) hf
  have hg0 : (0 : ℝ) < 2 ^ f := by positivity
  generalize (2 : ℝ) ^ f = g at *
  have e1 : (c - romCosine m * 2 ^ 96) * g ≤ 2 ^ 38 * 2 ^ 16 := by nlinarith
  have e2 : -(2 ^ 38 * 2 ^ 16) ≤ (c - romCosine m * 2 ^ 96) * g := by nlinarith
  rw [abs_le]
  constructor <;> linarith
/-! ## Twiddles -/

/-- Every twiddle is a pair of ROM entries up to sign, and its cosine and sine are the cosines of these entries alike
(41_plan.md R173, R174). -/
theorem twiddle_cases (f e k : ℕ) (he1 : 1 ≤ e) (he : e ≤ 15) (hk : k < 2 ^ e / 2) :
    ∃ (a b : ℕ) (σ : ℤ), a ≤ 8192 ∧ b ≤ 8192 ∧ (σ = 1 ∨ σ = -1) ∧
      twiddle f (2 ^ e) k = (σ * romEntry f a, -romEntry f b) ∧
      Real.cos (2 * Real.pi * k / 2 ^ e) = σ * romCosine a ∧ Real.sin (2 * Real.pi * k / 2 ^ e) = romCosine b := by
  obtain ⟨m, hm⟩ : ∃ m, m = k * (32768 / 2 ^ e) := ⟨_, rfl⟩
  have hpow : 2 ^ e * 2 ^ (15 - e) = 32768 := by rw [← pow_add, show e + (15 - e) = 15 by omega]; norm_num
  have hdiv : 32768 / 2 ^ e = 2 ^ (15 - e) := by rw [← hpow, Nat.mul_div_cancel_left _ (by positivity)]
  have hangle : 2 * Real.pi * k / 2 ^ e = 2 * Real.pi * m / 32768 := by
    have hpow' : (2 : ℝ) ^ e * 2 ^ (15 - e) = 32768 := by exact_mod_cast hpow
    rw [hm, hdiv, ← hpow']
    push_cast
    field_simp
  have hlt : m < 16384 := by
    have h2 : 2 ^ e / 2 * 2 = 2 ^ e := Nat.div_mul_cancel (dvd_pow_self 2 (by omega))
    rw [hm, hdiv]
    have := (Nat.mul_lt_mul_right (show 0 < 2 ^ (15 - e) by positivity)).mpr hk
    have : 2 ^ e / 2 * 2 ^ (15 - e) * 2 = 32768 := by rw [mul_right_comm, h2, hpow]
    omega
  rw [hangle]
  unfold twiddle romCosine
  dsimp only
  rw [← hm]
  split_ifs with h
  · refine ⟨m, 8192 - m, 1, h, by omega, .inl rfl, by simp, by simp, ?_⟩
    rw [← Real.cos_pi_div_two_sub]
    congr 1
    push_cast [h]
    ring
  · refine ⟨16384 - m, m - 8192, -1, by omega, by omega, .inr rfl, by simp, ?_, ?_⟩
    · push_cast [hlt.le]
      rw [neg_one_mul, ← Real.cos_pi_sub]
      congr 1
      ring
    · rw [← Real.cos_sub_pi_div_two]
      congr 1
      push_cast [show 8192 ≤ m by omega]
      ring

end Sys2Proof.Machine
end

