-- ==== Sys2Proof/Machine/Assembler.lean ====
section
/-! DEFINITION. The host-level assembler (30_encoding.md R125-R127, 46_control.md R299): each statement as the host
operations it stands for. It is a notation for host programs, not a part of the block. -/

namespace Sys2Proof.Machine

open Sys2Proof

/-- A statement of the host-level syntax: the base statements of R125, the command mnemonics of R126 and the
pseudo-instructions of R127. -/
inductive Stmt where
  | wr (place : Loc) (value : Word)
  | rd (place : Loc)
  | wait
  | nop
  | planCreate (ctx : HostCtx) (len : Word)
  | planDestroy (ctx : HostCtx)
  | loadR (ctx : HostCtx)
  | loadC (ctx : HostCtx)
  | run (dir : Direction) (ctx : HostCtx)
  | xform (dir : Direction) (kind : InputKind) (ctx : HostCtx)
  | result (ctx : HostCtx) (index : Word)
  | mag (ctx : HostCtx) (index : Word)
  | nmag (ctx : HostCtx) (index : Word)
  | isqrt (x : Word)
  | plan2dCreate (rows cols : Word)
  | plan2dDestroy
  | xform2d (dir : Direction)
  | result2d (row col : Word)
  | fft (ctx : HostCtx)
  | ifft (ctx : HostCtx)
  | fft2d
  | ifft2d
  | clrDone
  | clrAll
  | sync (command : Stmt)
  deriving DecidableEq, Repr

/-- The system address of a place, BLOCK_BASE plus its address in the map (20_memory.md R83). -/
def addressOf (blockBase : Word) (place : Loc) : Word := systemAddress blockBase (BitVec.ofNat 32 place.addr)

/-- `WR <addr>, <value>` at a symbolic address (30_encoding.md R125). -/
def writeTo (blockBase : Word) (place : Loc) (value : Word) : HostOp := .write (addressOf blockBase place) .word value

/-- `RD <addr>` at a symbolic address (30_encoding.md R125). -/
def readFrom (blockBase : Word) (place : Loc) : HostOp := .read (addressOf blockBase place) .word

/-- `WR CMD, w` for the command word of an instruction. -/
def issue (blockBase : Word) (i : Instr) : HostOp := writeTo blockBase (.csr .cmd) (encodeWord i)

/-- The host operations of a statement for a block at BLOCK_BASE `base` (30_encoding.md R125-R127). -/
def Stmt.expand (base : Word) : Stmt → List HostOp
  | .wr place value => [writeTo base place value]
  | .rd place => [readFrom base place]
  | .wait => [.wait]
  | .nop => [issue base .nop]
  | .planCreate c len => [writeTo base (.csr .arg0) len, issue base (.planCreate c)]
  | .planDestroy c => [issue base (.planDestroy c)]
  | .loadR c => [issue base (.loadReal c)]
  | .loadC c => [issue base (.loadCplx c)]
  | .run d c => [issue base (.run c d)]
  | .xform d k c => [issue base (.transform c d k)]
  | .result c idx => [writeTo base (.csr .arg0) idx, issue base (.result c)]
  | .mag c idx => [writeTo base (.csr .arg0) idx, issue base (.mag c)]
  | .nmag c idx => [writeTo base (.csr .arg0) idx, issue base (.nmag c)]
  | .isqrt x => [writeTo base (.csr .arg0) x, issue base .isqrt]
  | .plan2dCreate rows cols => [writeTo base (.csr .arg0) rows, writeTo base (.csr .arg1) cols, issue base .plan2dCreate]
  | .plan2dDestroy => [issue base .plan2dDestroy]
  | .xform2d d => [issue base (.transform2d d)]
  | .result2d row col => [writeTo base (.csr .arg0) row, writeTo base (.csr .arg1) col, issue base .result2d]
  | .fft c => [issue base (.transform c .forward .real)]
  | .ifft c => [issue base (.transform c .inverse .real)]
  | .fft2d => [issue base (.transform2d .forward)]
  | .ifft2d => [issue base (.transform2d .inverse)]
  | .clrDone => [writeTo base (.csr .status) 0x2]
  | .clrAll => [writeTo base (.csr .status) 0xE]
  | .sync command => command.expand base ++ [.wait, readFrom base (.csr .status)]

/-- The host operations of a program, statement by statement. -/
def expandProgram (base : Word) (program : List Stmt) : List HostOp := program.flatMap (Stmt.expand base)

/-- A host program placed before the block: its operations are what the outside does from here on
(notes/assumptions/7.md). -/
def State.withProgram (s : State) (program : List Stmt) : State :=
  { s with hostOps := expandProgram s.build.blockBase program }

end Sys2Proof.Machine
end

