-- ==== Sys2Proof/Tests/Slice0.lean ====
section
/-! SUPPORT. Tests: the check of terms, decoding of words written out from 30_encoding.md R111 and R121, small vectors
taken from 95_test_vectors.md, and a witness for the hypotheses of every statement that has some. -/

namespace Sys2Proof.Tests

open Sys2Proof Sys2Proof.Machine Sys2Proof.Spec

/-! ## WellFormed: the one check, that the reserved row holds no legal word -/

theorem test_reserved_refuses_nop : wellFormed (.reserved 0x000) = false := by decide
theorem test_reserved_refuses_transform : wellFormed (.reserved 0x136) = false := by decide
theorem test_reserved_takes_opc_f : wellFormed (.reserved 0x00F) = true := by decide
theorem test_reserved_takes_unused_field : wellFormed (.reserved 0x11D) = true := by decide

/-! ## Decode: reserved bits 31:9, CTX, reserved 7:6, CPLX and DIR, OPC -/

theorem test_decode_nop : decodeTableWord 32 0b00000000000000000000000_0_00_00_0000 = some .nop := by decide
theorem test_decode_planCreate :
    decodeTableWord 32 0b00000000000000000000000_1_00_00_0001 = some (.planCreate .p1) := by decide
theorem test_decode_planDestroy :
    decodeTableWord 32 0b00000000000000000000000_0_00_00_0010 = some (.planDestroy .p0) := by decide
theorem test_decode_loadReal :
    decodeTableWord 32 0b00000000000000000000000_1_00_00_0011 = some (.loadReal .p1) := by decide
theorem test_decode_loadCplx :
    decodeTableWord 32 0b00000000000000000000000_0_00_00_0100 = some (.loadCplx .p0) := by decide
theorem test_decode_run :
    decodeTableWord 32 0b00000000000000000000000_1_00_01_0101 = some (.run .p1 .inverse) := by decide
theorem test_decode_transform_complex :
    decodeTableWord 32 0b00000000000000000000000_0_00_10_0110 = some (.transform .p0 .forward .complex) := by decide
theorem test_decode_transform_inverse :
    decodeTableWord 32 0b00000000000000000000000_1_00_01_0110 = some (.transform .p1 .inverse .real) := by decide
theorem test_decode_result :
    decodeTableWord 32 0b00000000000000000000000_1_00_00_0111 = some (.result .p1) := by decide
theorem test_decode_mag : decodeTableWord 32 0b00000000000000000000000_0_00_00_1000 = some (.mag .p0) := by decide
theorem test_decode_nmag : decodeTableWord 32 0b00000000000000000000000_1_00_00_1001 = some (.nmag .p1) := by decide
theorem test_decode_isqrt : decodeTableWord 32 0b00000000000000000000000_0_00_00_1010 = some .isqrt := by decide
theorem test_decode_plan2dCreate :
    decodeTableWord 32 0b00000000000000000000000_0_00_00_1011 = some .plan2dCreate := by decide
theorem test_decode_plan2dDestroy :
    decodeTableWord 32 0b00000000000000000000000_0_00_00_1100 = some .plan2dDestroy := by decide
theorem test_decode_transform2d :
    decodeTableWord 32 0b00000000000000000000000_0_00_01_1101 = some (.transform2d .inverse) := by decide
theorem test_decode_result2d :
    decodeTableWord 32 0b00000000000000000000000_0_00_00_1110 = some .result2d := by decide
theorem test_decode_opc_f :
    decodeTableWord 32 0b00000000000000000000000_0_00_00_1111 = some (.reserved 0xF) := by decide
theorem test_decode_run_with_cplx :
    decodeTableWord 32 0b00000000000000000000000_0_00_10_0101 = some (.reserved 0x25) := by decide
theorem test_decode_isqrt_with_ctx :
    decodeTableWord 32 0b00000000000000000000000_1_00_00_1010 = some (.reserved 0x10A) := by decide
theorem test_decode_bit_31 :
    decodeTableWord 32 0b10000000000000000000000_0_00_00_0001 = some (.reserved 0x80000001) := by decide
theorem test_decode_short : decode [0x01, 0x00, 0x00] = .error (.shortCommandWord 3) := by decide

/-! ## Small states -/

/-- Set the first elements of a data memory. -/
def poke (s : State) (b : Buf) (vs : List Int) : State :=
  { s with mem := vs.zipIdx.foldl (fun m v => m.set b v.2 (BitVec.ofInt 32 v.1)) s.mem }

/-- The first n elements of a data memory as signed numbers. -/
def peek (s : State) (b : Buf) (n : Nat) : List Int := (List.range n).map fun i => (s.get b i).toInt

/-- The state after the command of a word; a stop would leave DONE at 0. -/
def after (w : Nat) (s : State) : State :=
  match step (s.withFetchWord 32 w) with
  | .next t => t
  | .fault _ => s
  | .refused _ => s

/-- Context P0 holds a plan of length n = 2^steps. -/
def planned (n steps : Nat) : State :=
  { State.reset with planP0 := { valid := true, length := BitVec.ofNat 16 n, steps := BitVec.ofNat 4 steps } }

/-- The 2D plan of 2 rows and 4 columns, its input [1, ..., 8]. -/
def planned2x4 : State :=
  poke { State.reset with
    planR := { valid := true, length := 4, steps := 2 }, planC := { valid := true, length := 2, steps := 1 }
    v2d := true } .matIn [1, 2, 3, 4, 5, 6, 7, 8]

/-- ARG0 and ARG1 set. -/
def args (a0 a1 : Word) (s : State) : State := { s with arg0 := a0, arg1 := a1 }

/-! ## Commands: expected values from 95_test_vectors.md, the vector named before each -/

/- V-ER and R290. -/
theorem test_nop : (after 0x000 State.reset).statusWord = 0x2 ∧ (after 0x000 State.reset).lastCmd = 0 := by decide +kernel
/- V-PL: the upper half of ARG0 is ignored, the buffers are zeroed. -/
theorem test_planCreate :
    let t := after 0x001 (args 0x10008 0 (poke (planned 8 3) (.re .p0) [5]))
    t.statusWord = 0x2 ∧ t.planP0.infoWord = 0x80030008 ∧ t.mem = [] := by decide +kernel
/- V-PL: NOT_POW2 leaves the context and its buffers. -/
theorem test_planCreate_not_pow2 :
    let t := after 0x001 (args 3 0 (poke (planned 8 3) (.re .p0) [5]))
    t.statusWord = 0x102 ∧ t.planP0.infoWord = 0x80030008 ∧ peek t (.re .p0) 1 = [5] := by decide +kernel
/- V-PL: the buffers keep their words. -/
theorem test_planDestroy :
    let t := after 0x002 (poke (planned 8 3) (.im .p0) [5])
    t.statusWord = 0x2 ∧ t.planP0.infoWord = 0 ∧ peek t (.im .p0) 1 = [5] := by decide +kernel
/- V-PL: a second PLAN.DESTROY. -/
theorem test_planDestroy_no_plan : (after 0x102 State.reset).statusWord = 0x302 := by decide +kernel
/- V-B, load-only. -/
theorem test_loadReal :
    let t := after 0x003 (poke (poke (planned 4 2) .inRe [1, 2, 3, 4]) (.im .p0) [7, 7, 7, 7])
    peek t (.re .p0) 4 = [256, 768, 512, 1024] ∧ peek t (.im .p0) 4 = [0, 0, 0, 0] := by decide +kernel
/- V-B, load-only. -/
theorem test_loadCplx :
    let t := after 0x004 (poke (poke (planned 8 3) .inRe [1, 0, -1, 0, 1, 0, -1, 0]) .inIm [0, 1, 0, -1, 0, 1, 0, -1])
    peek t (.re .p0) 8 = [256, 256, -256, -256, 0, 0, 0, 0] ∧
    peek t (.im .p0) 8 = [0, 0, 0, 0, 256, 256, -256, -256] := by decide +kernel
/- V-RT: the copy of the forward result, run inverse. -/
theorem test_run_inverse :
    let t := after 0x015 (poke (poke (planned 4 2) (.re .p0) [2560, -512, -512, -512]) (.im .p0) [0, 0, 512, -512])
    peek t (.re .p0) 4 = [256, 512, 768, 1024] ∧ peek t (.im .p0) 4 = [0, 0, 0, 0] := by decide +kernel
/- V-BF, row four: each product is floored on its own. -/
theorem test_butterfly_floors :
    let e : Engine := { frac := 8, ctx := .p0, len := 2, steps := 1, mask := 0, inverse := false }
    let m := butterfly e 0 1 181 (-181) (poke (poke State.reset (.re .p0) [0, 1]) (.im .p0) [0, 1]).mem
    peek { State.reset with mem := m } (.re .p0) 2 = [1, -1] ∧
    peek { State.reset with mem := m } (.im .p0) 2 = [-1, 1] := by decide +kernel
/- V-B, the 8-point row, forward. -/
theorem test_transform_forward :
    let t := after 0x006 (poke (planned 8 3) .inRe [1, 2, 3, 4, 5, 6, 7, 8])
    peek t (.re .p0) 8 = [9216, -1024, -1024, -1024, -1024, -1024, -1024, -1024] ∧
    peek t (.im .p0) 8 = [0, 2472, 1024, 424, 0, -424, -1024, -2472] := by decide +kernel
/- V-B, the complex row, inverse. -/
theorem test_transform_complex_inverse :
    let t := after 0x036 (poke (poke (planned 4 2) .inRe [3, 0, 0, 0]) .inIm [0, 4, 0, 0])
    peek t (.re .p0) 4 = [192, -64, 192, 448] ∧ peek t (.im .p0) 4 = [256, 0, -256, 0] := by decide +kernel
/- V-FX: the values of scale-out at the ends of its range. -/
theorem test_result :
    let t := after 0x007 (args 1 0 (poke (poke (planned 2 1) (.re .p0) [0, -257]) (.im .p0) [0, 0x7FFFFFFF]))
    t.res0 = 0xFFFFFFFE ∧ t.res1 = 0x007FFFFF ∧ t.statusWord = 0x2 := by decide +kernel
/- V-FX: no truncation of the index. -/
theorem test_result_index :
    (after 0x007 (args 0x10000 0 (planned 4 2))).statusWord = 0x402 := by decide +kernel
/- V-MG: a wrapped sum of squares. -/
theorem test_mag :
    let t := after 0x008 (poke (poke (planned 4 2) (.re .p0) [0x7FFFFFFF]) (.im .p0) [0x7FFFFFFF])
    t.res0 = 65279 ∧ t.res1 = 0 := by decide +kernel
/- V-MG: a floor of a negative part. -/
theorem test_nmag : (after 0x009 (poke (planned 4 2) (.re .p0) [-2560])).res0 = 3 := by decide +kernel
/- V-SQ. -/
theorem test_isqrt :
    [0, 3, 24, 25, 0xFFFE0000, 0xFFFE0001, 0xFFFFFFFF].map (fun x => (after 0x00A (args x 0 State.reset)).res0)
      = [0, 1, 4, 5, 65534, 65535, 65535] := by decide +kernel
/- V-2D: one row of MAXLEN columns. -/
theorem test_plan2dCreate :
    let t := after 0x00B (args 1 32768 State.reset)
    t.statusWord = 0x2 ∧ t.planR.infoWord = 0x800F8000 ∧ t.planC.infoWord = 0x80000001 ∧ t.v2d = true := by
  decide +kernel
/- V-2D: above MATMAX. -/
theorem test_plan2dCreate_too_large :
    let t := after 0x00B (args 512 256 State.reset)
    t.statusWord = 0x202 ∧ t.v2d = false := by decide +kernel
/- V-2D and R264. -/
theorem test_plan2dDestroy :
    let t := after 0x00C planned2x4
    t.statusWord = 0x2 ∧ t.v2d = false ∧ t.planR.infoWord = 0 ∧ t.planC.infoWord = 0 := by decide +kernel
/- V-2D, the 2 × 4 row, forward, with what R and C keep. -/
theorem test_transform2d_forward :
    let t := after 0x00D planned2x4
    peek t .trRe 8 = [2560, 6656, -512, -512, -512, -512, -512, -512] ∧
    peek t .mrRe 8 = [9216, -1024, -1024, -1024, -4096, 0, 0, 0] ∧
    peek t .mrIm 8 = [0, 1024, 0, -1024, 0, 0, 0, 0] ∧ peek t (.im .row) 4 = [0, 512, 0, -512] ∧
    peek t (.re .col) 2 = [-1024, 0] := by decide +kernel
/- V-2D, the 2 × 4 row, inverse. -/
theorem test_transform2d_inverse :
    let t := after 0x01D planned2x4
    peek t .mrRe 8 = [1152, -128, -128, -128, -512, 0, 0, 0] ∧
    peek t .mrIm 8 = [0, -128, 0, 128, 0, 0, 0, 0] := by decide +kernel
/- V-2D: RESULT2D at (1, 0), row-major. -/
theorem test_result2d :
    let t := after 0x00E (args 1 0 (poke planned2x4 .mrRe [9216, -1024, -1024, -1024, -4096]))
    t.res0 = 0xFFFFFFF0 ∧ t.res1 = 0 := by decide +kernel
/- V-2D. -/
theorem test_result2d_index : (after 0x00E (args 0xFFFFFFFF 0 planned2x4)).statusWord = 0x402 := by decide +kernel
/- V-ER: ILLEGAL before NO_PLAN; the word stands in LASTCMD. -/
theorem test_reserved :
    let t := after 0x017 State.reset
    t.statusWord = 0x502 ∧ t.lastCmd = 0x17 := by decide +kernel

/-! ## Units and the port -/

/- V-TW. -/
theorem test_twiddle_table : (List.range 8).map (twiddle 8 16) =
    [(256, 0), (237, -98), (181, -181), (98, -237), (0, -256), (-98, -237), (-181, -181), (-237, -98)] := by
  decide +kernel
/- V-BR. -/
theorem test_bitrev_table : (List.range 16).map (bitrev · 4) =
    [0, 8, 4, 12, 2, 10, 6, 14, 1, 9, 5, 13, 3, 11, 7, 15] := by decide +kernel
/- V-TW, window reads of a plan of length 8. -/
theorem test_twiddle_windows :
    [0x00160004, 0x00170004, 0x00170008, 0x00160010, 0x0014000C].map
      (fun a => (hostRead a .word (planned 8 3)).2) =
    [.data 0xB5, .data 0xFFFFFF4B, .data 0xFFFFFF00, .data 0, .data 6] := by decide +kernel
/- V-BR and P4: unmapped, misaligned; the answer is an error and BERR is set. -/
theorem test_bus_errors :
    (List.all [0x00180000, 0x028, 0x00200002] fun a =>
      (hostRead a .word State.reset) == ({ State.reset with berr := true }, .busError)) = true := by decide +kernel
/- 10_state.md R32. -/
theorem test_cfg : hostRead 0x004 .word State.reset = (State.reset, .data 0x0110080F) := by decide +kernel
/- 30_encoding.md R126, R127, with 20_memory.md R83. -/
theorem test_assembler :
    (Stmt.planCreate .p1 8).expand 0 = [.write 0x014 .word 8, .write 0x010 .word 0x101] ∧
    (Stmt.plan2dCreate 2 4).expand 0x40000000 =
      [.write 0x40000014 .word 2, .write 0x40000018 .word 4, .write 0x40000010 .word 0x00B] ∧
    (Stmt.run .inverse .p0).expand 0 = [.write 0x010 .word 0x015] ∧ Stmt.clrAll.expand 0 = [.write 0x00C .word 0xE] ∧
    (Stmt.sync .nop).expand 0x100 = [.write 0x110 .word 0x000, .wait, .read 0x10C .word] := by decide
/- 20_memory.md R83: ID stands at BLOCK_BASE; its address in the map is no longer the block's. -/
theorem test_block_base :
    let s := { State.reset with build := { Build.default with blockBase := 0x40000000 } }
    (hostStep (.read 0x40000000 .word) s).replies = [.data 0x4C464654] ∧
    (hostStep (.read 0x00000000 .word) s).replies = [.busError] := by decide +kernel

/-! ## Witnesses of the statements' hypotheses

Each names the statement whose hypotheses it meets, clause by clause, at boundary values where a clause has a range. -/

/-- The smallest and the largest build, at the end and in the middle of the system address space. -/
def smallBuild : Build := { fracBits := 1, log2MaxLen := 1, log2MatMax := 2, blockBase := 0xFFFFFFFC }
def largeBuild : Build := { fracBits := 16, log2MaxLen := 15, log2MatMax := 22, blockBase := 0x40000000 }

/-- A command in flight that waits for k host steps, the host's queue beside it. -/
def flying (w : Word) (k : Nat) (ops : List HostOp) : State :=
  { State.reset with lCmd := w, lastCmd := w, busy := true, wait := k, hostOps := ops }

/-- An idle block whose host is about to do `ops`. -/
def idle (ops : List HostOp) : State := { State.reset with hostOps := ops }

theorem witness_DecodeOfEncodeIsTheCommand :
    wellFormed (.transform .p1 .inverse .complex) = true ∧ wellFormed (.reserved 0xFFFFFFFF) = true := by decide

theorem witness_StepRunsTheCommandInFlight :
    (SeqTurn (flying 0x115 0 [.wait]) ∧ decode (flying 0x115 0 [.wait]).commandBytes = .ok (.run .p1 .inverse, [])) ∧
    (SeqTurn (flying 0x115 7 []) ∧ wellFormed (.run .p1 .inverse) = true ∧
      (flying 0x115 7 []).lCmd = encodeWord (.run .p1 .inverse)) :=
  ⟨⟨⟨rfl, .inl rfl⟩, by decide⟩, ⟨rfl, .inr rfl⟩, by decide, by decide⟩

theorem witness_StepServesTheHost :
    (¬SeqTurn (idle [.wait]) ∧ (idle [.wait]).hostOps = .wait :: []) ∧
    (¬SeqTurn (flying 0 1 [.wait]) ∧ (flying 0 1 [.wait]).hostOps = .wait :: []) ∧
    (idle []).busy = false ∧ (idle []).hostOps = [] :=
  ⟨⟨fun h => Bool.noConfusion h.1, rfl⟩, ⟨fun h => h.2.elim (fun h => nomatch h) (fun h => nomatch h), rfl⟩, rfl, rfl⟩

theorem witness_FailedCommandsHaveNoEffect :
    (∃ t, exec (.result .p0) State.reset = .next t ∧ t.err ≠ .ok) ∧
    ∃ t, exec (decodeWord 0x00F) (State.reset.accept 0x00F) = .next t ∧ t.err ≠ .ok :=
  ⟨⟨_, rfl, by decide⟩, _, rfl, by decide⟩

theorem witness_StepServesTheHost_anywhere :
    ({ idle [.read 0x40000000 .word] with build := largeBuild } : State).build.blockBase + 0x0 = 0x40000000 := by decide

/-- A latency of one host step with a WAIT in it and a reset input behind it, and the latency 0. -/
theorem witness_AcceptedCommandFinishes :
    ((flying 0x006 1 [.wait, .reset []]).busy = true ∧
      ∀ cells, HostOp.reset cells ∉ (flying 0x006 1 [.wait, .reset []]).hostOps.take (flying 0x006 1 [.wait, .reset []]).wait) ∧
    ((flying 0x006 0 [.reset []]).busy = true ∧
      ∀ cells, HostOp.reset cells ∉ (flying 0x006 0 [.reset []]).hostOps.take (flying 0x006 0 [.reset []]).wait) :=
  ⟨⟨rfl, fun cells => by simp [flying]⟩, rfl, fun cells => by simp [flying]⟩

theorem witness_CommandRunsFromTheBus :
    let s := { idle [.write 0x40000010 .word 0x006] with build := largeBuild }
    s.busy = false ∧ s.hostOps = .write (s.build.blockBase + 0x010) .word 0x006 :: [] ∧ s.latencies.headD 0 = 0 := by
  decide

theorem witness_PollingIsScheduleIndependent :
    let s := { idle [.write 0x010 .word 0x00A, .wait] with latencies := [5], arg0 := 99 }
    s.busy = false ∧ s.hostOps = .write (s.build.blockBase + 0x010) .word 0x00A :: .wait :: [] ∧
      ∃ u, exec (decodeWord 0x00A) (s.accept 0x00A) = .next u := ⟨rfl, by decide, _, rfl⟩

theorem witness_BusErrorsHaveThreeCauses :
    State.reset.build.legal = true ∧ BadAccess 0x00C .byte State.reset ∧ BadAccess 0x00D .word State.reset ∧
    (¬BadAccess 0x00C .word State.reset) ∧ ¬BadAccess 0x050 .word (flying 0 0 []) := by
  refine ⟨by decide, .inl (by decide), .inr (.inl (by decide)), ?_, ?_⟩
  · rintro (h | h | h | h)
    · exact h rfl
    · exact h (by decide)
    · exact h (.csr .status) trivial (by decide)
    · exact Bool.noConfusion h.1
  · rintro (h | h | h | h)
    · exact h rfl
    · exact h (by decide)
    · exact h (.csr .p2dInfo) trivial (by decide)
    · exact h.2 .p2dInfo (by decide)

/-- A place, its address, and an access that reaches it, while idle at the last word of a window and while BUSY. -/
theorem witness_BusErrorsHaveThreeCauses_served :
    (Mapped State.reset.build (.twi .p0 16383) ∧ (Loc.twi .p0 16383).addr = (0x0017FFFC : Word).toNat ∧
      ¬BadAccess 0x0017FFFC .word State.reset) ∧
    (Mapped (flying 0 0 []).build (.csr .p2dInfo) ∧ (Loc.csr .p2dInfo).addr = (0x050 : Word).toNat ∧
      ¬BadAccess 0x050 .word (flying 0 0 [])) := by
  have hm : Mapped State.reset.build (.twi .p0 16383) := by
    simp [Mapped, State.reset, State.afterReset, Build.default, Build.maxLen]
  refine ⟨⟨hm, by decide, ?_⟩, trivial, by decide, witness_BusErrorsHaveThreeCauses.2.2.2.2⟩
  rintro (h | h | h | h)
  · exact h rfl
  · exact h (by decide)
  · exact h (.twi .p0 16383) hm (by decide)
  · exact Bool.noConfusion h.1

/-- An address of no row, and a data window while BUSY. -/
theorem witness_BusErrorsHaveThreeCauses_unmapped_and_busy :
    BadAccess 0xFFFFFFFC .word State.reset ∧ BadAccess 0x01000000 .word (flying 0 0 []) := by
  refine ⟨.inr (.inr (.inl fun l h => ?_)), .inr (.inr (.inr ⟨rfl, fun r => ?_⟩))⟩
  · show l.addr ≠ 4294967292
    rcases l with r | ⟨b, i⟩ | ⟨c, i⟩ | ⟨c, i⟩ | ⟨c, i⟩
    · rcases r with _ | _ | _ | _ | _ | _ | _ | _ | _ | _ | c | _ <;> try (simp [Loc.addr, Csr.addr]; done)
      cases c <;> simp [Loc.addr, Csr.addr, Ctx.number]
    all_goals
      simp only [Mapped, State.reset, State.afterReset, Build.default, Build.maxLen, Buf.count, Build.matMax] at h
      simp only [Loc.addr, Buf.addr]
    · rcases b with c | c | _ | _ | _ | _ | _ | _ | _ <;> try cases c
      all_goals simp only [Buf.base, Ctx.base, Ctx.number] at *; omega
    all_goals cases c <;> simp only [Ctx.base, Ctx.number] <;> omega
  · rcases r with _ | _ | _ | _ | _ | _ | _ | _ | _ | _ | c | _ <;> try (simp [Csr.addr]; done)
    cases c <;> simp [Csr.addr, Ctx.number]

theorem witness_AddressMapIsTheTable :
    smallBuild.legal = true ∧ largeBuild.legal = true ∧ Build.default.legal = true ∧
    (Mapped smallBuild (.twi .col 0) ∧ ¬Mapped smallBuild (.twi .col 1)) ∧ Mapped largeBuild (.buf .mrIm 4194303) ∧
    locate Build.default 0x0017FFFC = some (.twi .p0 16383) ∧ locate Build.default 0x00180000 = none :=
  ⟨by decide, by decide, by decide, ⟨by simp [Mapped, smallBuild, Build.maxLen],
    by simp [Mapped, smallBuild, Build.maxLen]⟩, by simp [Mapped, largeBuild, Buf.count, Build.matMax],
    by decide +kernel, by decide +kernel⟩

/-- The ends of the two reserved ranges. -/
theorem witness_RegisterOffsetsAreExact : Build.default.legal = true ∧
    ∀ a ∈ [0x028, 0x03C, 0x054, 0x000FFFFC], a < 0x00100000 ∧ a % 4 = 0 ∧ ((0x028 ≤ a ∧ a < 0x040) ∨ 0x054 ≤ a) := by
  decide

theorem witness_RegistersReadAsTheirFields : State.reset.build.legal = true := by decide

theorem witness_CmdWriteAccepts : State.reset.busy = false := rfl

theorem witness_CmdWriteWhileBusyOverruns : (flying 0 0 []).busy = true := rfl

theorem witness_ReadOnlyWritesAreIgnored :
    State.reset.build.legal = true ∧ State.reset.busy = false ∧ Mapped State.reset.build (.brt .p0 32767) ∧
    Mapped State.reset.build (.twr .row 16383) ∧ Mapped State.reset.build (.twi .col 0) :=
  ⟨by decide, rfl, by simp [Mapped, State.reset, State.afterReset, Build.default, Build.maxLen],
    by simp [Mapped, State.reset, State.afterReset, Build.default, Build.maxLen],
    by simp [Mapped, State.reset, State.afterReset, Build.default, Build.maxLen]⟩

theorem witness_WindowReadsWhatWasWritten :
    State.reset.build.legal = true ∧ State.reset.busy = false ∧ 65535 < Buf.matIn.count State.reset.build ∧
    0 < (Buf.re .col).count State.reset.build :=
  ⟨by decide, rfl, by simp [Buf.count, State.reset, State.afterReset, Build.default, Build.matMax],
    by simp [Buf.count, State.reset, State.afterReset, Build.default, Build.maxLen]⟩

theorem witness_TableWindowsRead :
    (planned 8 3).build.legal = true ∧ (planned 8 3).busy = false ∧ 32767 < (planned 8 3).build.maxLen ∧
    16383 < (planned 8 3).build.maxLen / 2 :=
  ⟨by decide, rfl, by simp [planned, State.reset, State.afterReset, Build.default, Build.maxLen],
    by simp [planned, State.reset, State.afterReset, Build.default, Build.maxLen]⟩

theorem witness_InterruptFollowsCompletion_read : (hostRead 0x013 .word State.reset).2 = .busError := by decide

theorem witness_InterruptFollowsCompletion :
    (∃ t, exec .isqrt State.reset = .next t) ∧ State.reset.busy = false ∧ (0x2 : Word).getLsbD 1 = true ∧
    (hostWrite 0x010 .half 0 State.reset).2 = .busError := ⟨⟨_, rfl⟩, rfl, by decide, by decide⟩

theorem witness_CommandsRightAfterReset :
    ∀ i ∈ [Instr.loadReal .p0, .transform2d .forward, .result2d, .isqrt, .nop],
      ∃ t, exec i ((State.afterReset Build.default []).placeCommand (encodeWord i)) = .next t := by
  intro i h
  simp only [List.mem_cons, List.not_mem_nil, or_false] at h
  rcases h with rfl | rfl | rfl | rfl | rfl <;> exact ⟨_, rfl⟩

/-- Contents that are canonical and inside the data memories. -/
theorem witness_ResetIsSound :
    smallBuild.legal = true ∧ Memory.wf [(0x00100000, 1), (0x0010003C, 255)] = true ∧
    ∀ c ∈ ([(0x00100000, 1), (0x01000000, 255)] : Memory), isDataByte smallBuild c.1 = true := by decide +kernel

theorem planned2x4_ready : Ready2d planned2x4 :=
  ⟨by decide, rfl, by simp [Plan.Sound, planned2x4, poke, State.plan, State.reset, State.afterReset, Build.default,
    Build.maxLen], by simp [Plan.Sound, planned2x4, poke, State.plan, State.reset, State.afterReset, Build.default,
    Build.maxLen], by simp [State.Sound2d, planned2x4, poke, State.reset, State.afterReset, Build.default, Build.matMax]⟩

theorem planned_ready : ∀ e ∈ [(1, 0), (8, 3), (32768, 15)], Ready (planned e.1 e.2) .p0 := by
  intro e h
  simp only [List.mem_cons, List.not_mem_nil, or_false] at h
  rcases h with rfl | rfl | rfl <;> refine ⟨by decide, rfl, ?_⟩ <;>
    simp [Plan.Sound, planned, State.plan, State.reset, State.afterReset, Build.default, Build.maxLen]

/-- A sound state with a plan, data, and a command in flight. -/
def soundInFlight : State := { planned 8 3 with mem := [(0x00500000, 7)], lCmd := 0x006, lastCmd := 0x006, busy := true }

theorem soundInFlight_sound : soundInFlight.Sound where
  build := by decide
  plans c := by
    cases c <;> simp [Plan.Sound, soundInFlight, planned, State.plan, State.reset, State.afterReset, Plan.none,
      Build.default, Build.maxLen]
  plan2d := by simp [State.Sound2d, soundInFlight, planned, State.reset, State.afterReset, Plan.none]
  canonical := by decide
  mapped := by decide +kernel
  inFlight _ := ⟨rfl, rfl⟩
  recorded := rfl

theorem witness_EveryStepKeepsSoundness : soundInFlight.Sound ∧ ∃ t, step soundInFlight = .next t :=
  ⟨soundInFlight_sound, _, rfl⟩

theorem witness_IllegalWordsComplete :
    SeqTurn (flying 0x00F 0 []) ∧ (flying 0x00F 0 []).lCmd ∉ legalWords.map Prod.fst := ⟨⟨rfl, .inl rfl⟩, by decide⟩

theorem witness_NoPlanErrors :
    (State.reset.plan (ctxOf .p1)).valid = false ∧ (planned 8 3).v2d = false := ⟨rfl, rfl⟩

theorem witness_IndexErrors :
    (((planned 8 3).plan (ctxOf .p0)).valid = true ∧ ({ planned 8 3 with lArg0 := 8 } : State).lArg0.toNat ≥
      ((planned 8 3).plan (ctxOf .p0)).length.toNat) ∧
    (planned2x4.v2d = true ∧ ({ planned2x4 with lArg0 := 2 } : State).lArg0.toNat ≥ planned2x4.planC.length.toNat ∧
      ({ planned2x4 with lArg1 := 4 } : State).lArg1.toNat ≥ planned2x4.planR.length.toNat) := by decide

theorem witness_NotPow2Errors : ∀ x ∈ [0, 3, 0xFFFF], ∀ k, (BitVec.ofNat 32 x).toNat % 2 ^ 16 ≠ 2 ^ k := by
  intro x h k
  have hk : k < 16 ∨ 2 ^ 16 ≤ 2 ^ k := by
    rcases Nat.lt_or_ge k 16 with h | h
    · exact .inl h
    · exact .inr (Nat.pow_le_pow_right (by decide) h)
  simp only [List.mem_cons, List.not_mem_nil, or_false] at h
  rcases hk with hk | hk
  · interval_cases k <;> rcases h with rfl | rfl | rfl <;> decide
  · rcases h with rfl | rfl | rfl <;> simp <;> omega

/-- In a build of MAXLEN 2 a length of 4 is too large; in the default build 512 · 256 is. -/
theorem witness_TooLargeErrors :
    ((4 : Word).toNat % 2 ^ 16 = 2 ^ 2 ∧ 2 ^ 2 > smallBuild.maxLen) ∧
    ((512 : Word).toNat % 2 ^ 16 = 2 ^ 9 ∧ (256 : Word).toNat % 2 ^ 16 = 2 ^ 8 ∧
      2 ^ 9 * 2 ^ 8 > Build.default.matMax) ∧
    State.reset.build = Build.default ∧ ∃ t, exec (.planCreate .p0) State.reset = .next t :=
  ⟨by decide, by decide, rfl, _, rfl⟩

/-- The shortest and the longest plan of the default build. -/
theorem witness_PlanCreateMakesAPlan :
    State.reset.build.legal = true ∧ ((1 : Word).toNat % 2 ^ 16 = 2 ^ 0 ∧ 2 ^ 0 ≤ State.reset.build.maxLen) ∧
    ((0x18000 : Word).toNat % 2 ^ 16 = 2 ^ 15 ∧ 2 ^ 15 ≤ State.reset.build.maxLen) := by decide

theorem witness_PlanDestroyClearsThePlan :
    ((planned 8 3).plan (ctxOf .p0)).valid = true ∧ (State.reset.plan (ctxOf .p0)).valid = false := ⟨rfl, rfl⟩

/-- The shortest and the longest plan, the hypothesis of the statements about loads, RUN and TRANSFORM. -/
theorem witness_LoadsGatherBitReversed : Ready (planned 1 0) (ctxOf .p0) ∧ Ready (planned 32768 15) (ctxOf .p0) :=
  ⟨planned_ready (1, 0) (by decide), planned_ready (32768, 15) (by decide)⟩

theorem witness_RunComputesThePasses : Ready (planned 1 0) (ctxOf .p0) ∧ Ready (planned 32768 15) (ctxOf .p0) :=
  witness_LoadsGatherBitReversed

theorem witness_TransformComputesThePassesOfTheSamples :
    Ready (planned 1 0) (ctxOf .p0) ∧ Ready (planned 32768 15) (ctxOf .p0) := witness_LoadsGatherBitReversed

theorem witness_TransformIsLoadThenRun :
    (∃ t, exec (.loadReal .p0) (planned 1 0) = .next t) ∧ ∃ t, exec (.loadCplx .p0) State.reset = .next t :=
  ⟨⟨_, rfl⟩, _, rfl⟩

theorem witness_LengthOneTransformStoresTheSample :
    Ready (planned 1 0) (ctxOf .p0) ∧ (planned 1 0).length (ctxOf .p0) = 1 :=
  ⟨planned_ready (1, 0) (by decide), rfl⟩

/-- At the last index. -/
theorem witness_ResultScalesOut :
    ((planned 8 3).plan (ctxOf .p0)).valid = true ∧
    ({ planned 8 3 with lArg0 := 7 } : State).lArg0.toNat < ((planned 8 3).plan (ctxOf .p0)).length.toNat := by decide

theorem witness_MagnitudesAreRootsOfSquares :
    ((planned 8 3).plan (ctxOf .p0)).valid = true ∧
    ({ planned 8 3 with lArg0 := 7 } : State).lArg0.toNat < ((planned 8 3).plan (ctxOf .p0)).length.toNat :=
  witness_ResultScalesOut

theorem witness_OnlyResultCommandsWriteResults :
    (∃ t, exec (.planDestroy .p0) (planned 8 3) = .next t ∧ WritesResults (.planDestroy .p0) = false) ∧
    ∃ t, exec (.result .p0) State.reset = .next t ∧ t.err ≠ .ok := ⟨⟨_, rfl, rfl⟩, _, rfl, by decide⟩

/-- A matrix of MATMAX elements, and one row. -/
theorem witness_Plan2dCreateMakesAPlan :
    State.reset.build.legal = true ∧ ((256 : Word).toNat % 2 ^ 16 = 2 ^ 8 ∧ 2 ^ 8 ≤ State.reset.build.maxLen ∧
      2 ^ 8 * 2 ^ 8 ≤ State.reset.build.matMax) ∧
    ((1 : Word).toNat % 2 ^ 16 = 2 ^ 0 ∧ (32768 : Word).toNat % 2 ^ 16 = 2 ^ 15 ∧
      2 ^ 15 ≤ State.reset.build.maxLen ∧ 2 ^ 0 * 2 ^ 15 ≤ State.reset.build.matMax) := by decide

theorem witness_Plan2dDestroyClearsThePlan : planned2x4.v2d = true ∧ State.reset.v2d = false := ⟨rfl, rfl⟩

theorem witness_Transform2dIsRowsThenColumns : Ready2d planned2x4 := planned2x4_ready

/-- Two states that differ in what TR held before. -/
theorem witness_Transform2dDependsOnlyOnItsInput :
    Ready2d planned2x4 ∧ Ready2d (poke planned2x4 .trRe [99]) ∧
    planned2x4.build = (poke planned2x4 .trRe [99]).build ∧ planned2x4.planR = (poke planned2x4 .trRe [99]).planR ∧
    planned2x4.planC = (poke planned2x4 .trRe [99]).planC ∧
    (∀ i < 8, planned2x4.get .matIn i = (poke planned2x4 .trRe [99]).get .matIn i) ∧
    (∃ t, exec (.transform2d .forward) planned2x4 = .next t) ∧
    ∃ t, exec (.transform2d .forward) (poke planned2x4 .trRe [99]) = .next t :=
  ⟨planned2x4_ready, planned2x4_ready, rfl, rfl, rfl, by decide +kernel, ⟨_, rfl⟩, _, rfl⟩

/-- The last element of the matrix. -/
theorem witness_Result2dScalesOut :
    planned2x4.v2d = true ∧ ({ planned2x4 with lArg0 := 1 } : State).lArg0.toNat < planned2x4.planC.length.toNat ∧
    ({ planned2x4 with lArg1 := 3 } : State).lArg1.toNat < planned2x4.planR.length.toNat := by decide

theorem witness_OtherContextsAreUntouched :
    soundInFlight.Sound ∧ (∃ t, exec (.loadReal .p0) soundInFlight = .next t) ∧ Ctx.p1 ∉ contextsOf (.loadReal .p0) ∧
    Ctx.p1.HasByte soundInFlight.build.maxLen 0x00200000 ∧ Ctx.p1.HasByte soundInFlight.build.maxLen 0x0023FFFF :=
  ⟨soundInFlight_sound, ⟨_, rfl⟩, by decide,
    by simp [Ctx.HasByte, Buf.HasByte, Buf.addr, Buf.base, Ctx.base, Ctx.number, soundInFlight, planned, State.reset,
      State.afterReset, Build.default, Build.maxLen],
    by simp [Ctx.HasByte, Buf.HasByte, Buf.addr, Buf.base, Ctx.base, Ctx.number, soundInFlight, planned, State.reset,
      State.afterReset, Build.default, Build.maxLen]⟩

theorem witness_CommandsOnlyReadTheirInputs :
    soundInFlight.Sound ∧ (∃ t, exec (.loadReal .p0) soundInFlight = .next t) ∧
    Buf.inRe.HasByte (Buf.inRe.count soundInFlight.build) 0x00500000 ∧
    Buf.inRe.HasByte (Buf.inRe.count soundInFlight.build) 0x0051FFFF :=
  ⟨soundInFlight_sound, ⟨_, rfl⟩,
    by simp [Buf.HasByte, Buf.addr, Buf.base, Buf.count, soundInFlight, planned, State.reset, State.afterReset,
      Build.default, Build.maxLen],
    by simp [Buf.HasByte, Buf.addr, Buf.base, Buf.count, soundInFlight, planned, State.reset, State.afterReset,
      Build.default, Build.maxLen]⟩

/-- The ranges of the statements about numbers alone: WordsAreLittleEndian, IterationsGiveTheFloorOfTheRoot,
BitReversalReversesBits, IsPow2OnLengths, RomFallsFromOneToZero, at their ends. -/
theorem witness_number_ranges :
    ((0 : Nat) < 4 ∧ (3 : Nat) < 4) ∧ ((0 : Nat) < 2 ^ 32 ∧ (0xFFFFFFFF : Nat) < 2 ^ 32) ∧
    ((0 : Nat) < 2 ^ 0 ∧ (32767 : Nat) < 2 ^ 15) ∧ (65535 : Nat) < 2 ^ 16 ∧ (8191 : Nat) < 8192 ∧ (8192 : Nat) ≤ 8192 := by
  decide

/-- The ends of the range of F and of the samples that scale-in keeps, F = 8. -/
theorem witness_ScaleOutUndoesScaleIn :
    (-2 ^ (31 - 8) ≤ (BitVec.ofInt 32 (-8388608)).toInt ∧ (BitVec.ofInt 32 (-8388608)).toInt < 2 ^ (31 - 8)) ∧
    (-2 ^ (31 - 8) ≤ (8388607 : Word).toInt ∧ (8388607 : Word).toInt < 2 ^ (31 - 8)) := by decide

theorem witness_MulShiftFloorsTheExactProduct : |(-256 : Int)| ≤ 2 ^ 8 ∧ |(65536 : Int)| ≤ 2 ^ 16 := by decide

/-- Lengths 2 and 32768, and the ends of k in each clause. -/
theorem witness_TwiddlesAreSymmetric :
    (∀ e ∈ [1, 15], 1 ≤ e ∧ e ≤ 15) ∧ (∀ k ∈ [1, 16383], 0 < k ∧ k < 2 ^ 15 / 2) ∧ (0 < 2 ^ 1 / 2 ∧ 0 < 2 ^ 15 / 2) ∧
      ∀ f ∈ [1, 16], 1 ≤ f ∧ f ≤ 16 := by decide

end Sys2Proof.Tests
end

section
/-! The family of 10_state.md: what a command leaves of the plans, V2D, the data memories and the results, and that every
step keeps the block sound. -/

namespace Sys2Proof.Machine

open Sys2Proof Sys2Proof.Spec

/-! ## Sound plans -/

/-- `isPow2` accepts exactly the powers of two (41_plan.md R160). -/
theorem isPow2_iff (x : Nat) : isPow2 x = true ↔ ∃ k, x = 2 ^ k := by
  unfold isPow2
  rw [Bool.and_eq_true, decide_eq_true_eq, decide_eq_true_eq]
  exact Nat.ne_zero_and_sub_one_eq_zero_iff_isPowerOfTwo

@[simp] theorem Plan.none_sound (b : Build) : Plan.none.Sound b := ⟨rfl, rfl⟩

theorem Plan.ofLength_length {n : Nat} (hn : n < 2 ^ 16) : (Plan.ofLength n).length.toNat = n := by
  show (BitVec.ofNat 16 n).toNat = n
  rw [BitVec.toNat_ofNat, Nat.mod_eq_of_lt hn]

theorem Plan.ofLength_two_pow_steps {k : Nat} (hk : k < 2 ^ 4) : (Plan.ofLength (2 ^ k)).steps.toNat = k := by
  show (BitVec.ofNat 4 (2 ^ k).log2).toNat = k
  rw [Nat.log2_two_pow, BitVec.toNat_ofNat, Nat.mod_eq_of_lt hk]

/-- A power of two up to MAXLEN and its logarithm fit the fields LENGTH and STEPS, in every legal build. -/
theorem Plan.ofLength_sound {b : Build} {n : Nat} (hb : b.legal = true) (hpow : isPow2 n = true) (hn : n ≤ b.maxLen) :
    (Plan.ofLength n).Sound b := by
  obtain ⟨k, rfl⟩ := (isPow2_iff n).mp hpow
  have hmax : 2 ^ k ≤ 2 ^ 15 := hn.trans (Build.maxLen_le hb)
  have hk : k ≤ 15 := (Nat.pow_le_pow_iff_right (by norm_num)).mp hmax
  have hvalid : (Plan.ofLength (2 ^ k)).valid = true := rfl
  unfold Plan.Sound
  rw [if_pos hvalid, Plan.ofLength_length (by omega), Plan.ofLength_two_pow_steps (by omega)]
  exact ⟨rfl, hn⟩

/-! ## What a command leaves of the plans and V2D -/

/-- The 2D invariant reads only the plans of R and C, V2D and the build. -/
theorem State.Sound2d.congr {s t : State} (h : s.Sound2d) (hb : t.build = s.build) (hr : t.plan .row = s.plan .row)
    (hc : t.plan .col = s.plan .col) (hv : t.v2d = s.v2d) : t.Sound2d := by
  have hr : t.planR = s.planR := hr
  have hc : t.planC = s.planC := hc
  unfold State.Sound2d at *
  rwa [hb, hr, hc, hv]

theorem ctxOf_ne_row (c : HostCtx) : Ctx.row ≠ ctxOf c := by cases c <;> decide

theorem ctxOf_ne_col (c : HostCtx) : Ctx.col ≠ ctxOf c := by cases c <;> decide

/-- What command `i` may make of the plans and V2D: nothing; or the plan of its own host context is another sound one; or,
for the two 2D plan commands, the plans of R and C with V2D are other sound ones. -/
inductive PlansAfter (i : Instr) (s t : State) : Prop
  | unchanged (plans : ∀ d, t.plan d = s.plan d) (v2d : t.v2d = s.v2d)
  | host (c : HostCtx) (command : i = .planCreate c ∨ i = .planDestroy c)
      (sound : (t.plan (ctxOf c)).Sound s.build) (others : ∀ d, d ≠ ctxOf c → t.plan d = s.plan d)
      (v2d : t.v2d = s.v2d)
  | plan2d (command : i = .plan2dCreate ∨ i = .plan2dDestroy) (row : (t.plan .row).Sound s.build)
      (col : (t.plan .col).Sound s.build) (others : ∀ d, d ≠ .row → d ≠ .col → t.plan d = s.plan d)
      (sound2d : t.Sound2d)

theorem createPlan2d_sound2d {s : State} {rows cols : Nat} (hr : rows < 2 ^ 16) (hc : cols < 2 ^ 16)
    (hle : rows * cols ≤ s.build.matMax) : (s.createPlan2d rows cols).Sound2d := by
  have hR : (s.createPlan2d rows cols).planR = Plan.ofLength cols := createPlan2d_plan s rows cols .row
  have hC : (s.createPlan2d rows cols).planC = Plan.ofLength rows := createPlan2d_plan s rows cols .col
  unfold State.Sound2d
  rw [if_pos (createPlan2d_v2d ..), hR, hC, Plan.ofLength_length hr, Plan.ofLength_length hc, createPlan2d_build,
    Nat.mul_comm]
  exact ⟨rfl, rfl, hle⟩

theorem CommandEffect.plansAfter {i : Instr} {s s' : State} (hb : s.build.legal = true) (h : CommandEffect i s s') :
    PlansAfter i s s' := by
  cases i
  case planCreate c =>
    obtain ⟨hpow, hle, rfl⟩ := h
    refine .host c (.inl rfl) ?_ (fun d hd => ?_) (createPlan_v2d ..)
    · rw [createPlan_plan, if_pos rfl]
      exact Plan.ofLength_sound hb hpow hle
    · rw [createPlan_plan, if_neg hd.symm]
  case planDestroy c =>
    obtain ⟨-, rfl⟩ := h
    refine .host c (.inr rfl) (by simp) (fun d hd => ?_) (State.setPlan_v2d ..)
    rw [State.setPlan_plan, if_neg hd.symm]
  case plan2dCreate =>
    obtain ⟨hcpow, hrpow, hcle, hrle, hle, rfl⟩ := h
    have hmax := Build.maxLen_le hb
    refine .plan2d (.inl rfl) ?_ ?_ (fun d hr hc => ?_) (createPlan2d_sound2d (by omega) (by omega) hle)
    · rw [createPlan2d_plan, if_pos rfl]
      exact Plan.ofLength_sound hb hcpow hcle
    · rw [createPlan2d_plan, if_neg (by decide), if_pos rfl]
      exact Plan.ofLength_sound hb hrpow hrle
    · rw [createPlan2d_plan, if_neg hr, if_neg hc]
  case plan2dDestroy =>
    obtain ⟨-, rfl⟩ := h
    refine .plan2d (.inr rfl) (Plan.none_sound _) (Plan.none_sound _) (fun d hr hc => ?_) ⟨rfl, rfl⟩
    cases d
    case row => exact absurd rfl hr
    case col => exact absurd rfl hc
    all_goals rfl
  case reserved => exact h.elim
  case nop => obtain rfl := h; exact .unchanged (fun _ => rfl) rfl
  case isqrt => obtain rfl := h; exact .unchanged (State.withResults_plan _ _ _) rfl
  case result | mag | nmag => obtain ⟨-, -, rfl⟩ := h; exact .unchanged (State.withResults_plan _ _ _) rfl
  case result2d => obtain ⟨-, -, -, rfl⟩ := h; exact .unchanged (State.withResults_plan _ _ _) rfl
  case loadReal | loadCplx | run | transform | transform2d =>
    obtain ⟨-, rfl⟩ := h
    exact .unchanged (State.withMem_plan _ _) rfl

theorem PlansAfter.complete {i : Instr} {s t : State} (code : ErrCode) (h : PlansAfter i s t) :
    PlansAfter i s (t.complete code) := by
  cases h with
  | unchanged plans v2d => exact .unchanged (by simpa using plans) v2d
  | host c command sound others v2d => exact .host c command (by simpa using sound) (by simpa using others) v2d
  | plan2d command row col others sound2d =>
    exact .plan2d command (by simpa using row) (by simpa using col) (by simpa using others) sound2d

theorem exec_plansAfter {i : Instr} {s t : State} (hb : s.build.legal = true) (h : exec i s = .next t) :
    PlansAfter i s t := by
  rcases exec_effect i s t h with ⟨code, -, rfl⟩ | ⟨s', heffect, rfl⟩
  · exact .unchanged (State.complete_plan s code) rfl
  · exact (heffect.plansAfter hb).complete .ok

theorem PlansAfter.plans_sound {i : Instr} {s t : State} (h : PlansAfter i s t)
    (hp : ∀ c, (s.plan c).Sound s.build) (d : Ctx) : (t.plan d).Sound s.build := by
  cases h with
  | unchanged plans => rw [plans]; exact hp d
  | host c _ sound others =>
    by_cases hd : d = ctxOf c
    · exact hd ▸ sound
    · rw [others d hd]; exact hp d
  | plan2d _ row col others =>
    cases d
    case row => exact row
    case col => exact col
    all_goals rw [others _ (by decide) (by decide)]; exact hp _

theorem PlansAfter.sound2d {i : Instr} {s t : State} (h : PlansAfter i s t) (hb : t.build = s.build)
    (h2 : s.Sound2d) : t.Sound2d := by
  cases h with
  | unchanged plans v2d => exact h2.congr hb (plans .row) (plans .col) v2d
  | host c _ _ others v2d => exact h2.congr hb (others _ (ctxOf_ne_row c)) (others _ (ctxOf_ne_col c)) v2d
  | plan2d _ _ _ _ sound2d => exact sound2d

/-- The plan of a context that is not the command's own (10_state.md R62). -/
theorem PlansAfter.plan_of_notMem {i : Instr} {s t : State} (h : PlansAfter i s t) {d : Ctx} (hd : d ∉ contextsOf i) :
    t.plan d = s.plan d := by
  cases h with
  | unchanged plans => exact plans d
  | host c command _ others =>
    refine others d fun hc => hd ?_
    rcases command with rfl | rfl <;> exact List.mem_singleton.mpr hc
  | plan2d command _ _ others =>
    have hd : d ∉ [Ctx.row, Ctx.col] := by rcases command with rfl | rfl <;> exact hd
    simp only [List.mem_cons, List.not_mem_nil, or_false, not_or] at hd
    exact others d hd.1 hd.2

/-- Only the two 2D plan commands change V2D (10_state.md R62). -/
theorem PlansAfter.v2d_of_ne {i : Instr} {s t : State} (h : PlansAfter i s t) (hc : i ≠ .plan2dCreate)
    (hd : i ≠ .plan2dDestroy) : t.v2d = s.v2d := by
  cases h with
  | unchanged _ v2d => exact v2d
  | host _ _ _ _ v2d => exact v2d
  | plan2d command => exact (command.elim hc hd).elim

/-! ## What a command leaves of the data memories -/

/-- Two bytes of different data memories differ: a byte of one is in no element of the other. -/
theorem Buf.HasByte.outside {bd : Build} (hb : bd.legal = true) {b d : Buf} {a k : Nat} (ha : b.HasByte (b.count bd) a)
    (hk : k < d.count bd) (hne : d ≠ b) : a < d.addr k ∨ d.addr k + 4 ≤ a := by
  obtain ⟨hlo, hhi⟩ := ha
  have hbroom := Buf.count_le_room hb b
  have hdroom := Buf.count_le_room hb d
  unfold Buf.addr at *
  rcases Buf.windows_separated d d.mem_all b b.mem_all hne with h | h <;> omega

/-- The data memories a command may write (10_state.md R62): the buffers of its contexts and, for the 2D commands, the
matrices TR and MR. -/
theorem commandElems_buf {i : Instr} {s : State} {b : Buf} {k : Nat} (h : commandElems i s b k) :
    (∃ c ∈ contextsOf i, b = .re c ∨ b = .im c) ∨ b ∈ [Buf.trRe, .trIm, .mrRe, .mrIm] := by
  have hmat : ∀ {n : Nat}, matElems .trRe .trIm n b k ∨ matElems .mrRe .mrIm n b k →
      b ∈ [Buf.trRe, .trIm, .mrRe, .mrIm] := by
    rintro n (⟨rfl | rfl, -⟩ | ⟨rfl | rfl, -⟩) <;> decide
  cases i
  case planCreate | loadReal | loadCplx | run | transform => exact .inl ⟨_, List.mem_singleton.mpr rfl, h.1⟩
  case plan2dCreate =>
    rcases h with h | h | h
    · exact .inl ⟨.row, by decide, h.1⟩
    · exact .inl ⟨.col, by decide, h.1⟩
    · exact .inr (hmat h)
  case transform2d =>
    rcases h with h | h | h | h
    · exact .inl ⟨.row, .head _, h.1⟩
    · exact .inl ⟨.col, .tail _ (.head _), h.1⟩
    · exact .inr (hmat (.inl h))
    · exact .inr (hmat (.inr h))
  all_goals exact h.elim

/-- From a sound state a command leaves every byte of a data memory that it does not write. -/
theorem exec_read8_of_notWritten {i : Instr} {s t : State} (hs : s.Sound) (h : exec i s = .next t) {b : Buf}
    (hctx : ∀ c ∈ contextsOf i, b ≠ .re c ∧ b ≠ .im c) (hmat : b ∉ [Buf.trRe, .trIm, .mrRe, .mrIm]) {a : Nat}
    (ha : b.HasByte (b.count s.build) a) : t.mem.read8 a = s.mem.read8 a := by
  refine (exec_writes i s t hs.plans hs.plan2d h).read8 a fun d k hk => ?_
  refine ha.outside hs.build (commandElems_count i s hs.plans hs.plan2d d k hk) ?_
  rintro rfl
  rcases commandElems_buf hk with ⟨c, hc, hbuf⟩ | hbuf
  · exact hbuf.elim (hctx c hc).1 (hctx c hc).2
  · exact hmat hbuf

/-! ## What a command leaves of the results -/

/-- Success of a command that is none of the five result commands leaves RES0 and RES1 (10_state.md R43, R44). -/
theorem CommandEffect.results {i : Instr} {s s' : State} (h : CommandEffect i s s') (hi : WritesResults i = false) :
    s'.res0 = s.res0 ∧ s'.res1 = s.res1 := by
  cases i
  case nop => obtain rfl := h; exact ⟨rfl, rfl⟩
  case planCreate => obtain ⟨-, -, rfl⟩ := h; exact ⟨createPlan_res0 .., createPlan_res1 ..⟩
  case planDestroy => obtain ⟨-, rfl⟩ := h; exact ⟨State.setPlan_res0 .., State.setPlan_res1 ..⟩
  case plan2dCreate => obtain ⟨-, -, -, -, -, rfl⟩ := h; exact ⟨createPlan2d_res0 .., createPlan2d_res1 ..⟩
  case plan2dDestroy | loadReal | loadCplx | run | transform | transform2d => obtain ⟨-, rfl⟩ := h; exact ⟨rfl, rfl⟩
  case result | mag | nmag | isqrt | result2d => exact Bool.noConfusion hi
  case reserved => exact h.elim

/-! ## Soundness after each agent's step -/

/-- Soundness reads only the build, the plans, V2D, the memory and the flags of a command in flight. -/
theorem State.Sound.congr {s t : State} (hs : s.Sound) (hb : t.build = s.build) (hp : ∀ c, t.plan c = s.plan c)
    (hv : t.v2d = s.v2d) (hm : t.mem = s.mem) (hf : t.busy = true → t.done = false ∧ t.err = .ok)
    (hl : t.lastCmd = t.lCmd) : t.Sound where
  build := hb ▸ hs.build
  plans c := by rw [hp, hb]; exact hs.plans c
  plan2d := hs.plan2d.congr hb (hp .row) (hp .col) hv
  canonical := hm ▸ hs.canonical
  mapped := by rw [hm, hb]; exact hs.mapped
  inFlight := hf
  recorded := hl

/-- The same command in flight: what is left of soundness are the flags and LASTCMD. -/
theorem State.Sound.of_sameCommand {s t : State} (hs : s.Sound) (h : s.SameCommand t)
    (hf : s.busy = true → t.done = false ∧ t.err = .ok) (hl : t.lastCmd = s.lastCmd) : t.Sound :=
  hs.congr h.build h.plan h.v2d h.mem (h.busy ▸ hf) (by rw [hl, hs.recorded, h.lCmd])

/-- A command completes with its writes and the completion writes, and nothing else. -/
theorem exec_completes {i : Instr} {s t : State} (h : exec i s = .next t) :
    ∃ s' code, CommandWrites s s' ∧ t = s'.complete code := by
  rcases exec_cases i s with ⟨code, -, hraise⟩ | ⟨s', hwrites, hcommit⟩
  · exact ⟨s, code, .refl s, (next_inj (hraise.symm.trans h)).symm⟩
  · exact ⟨s', .ok, hwrites, (next_inj (hcommit.symm.trans h)).symm⟩

theorem CommandWrites.build {s s' : State} (h : CommandWrites s s') : s'.build = s.build := by
  unfold CommandWrites at h
  rw [h]

theorem CommandWrites.lastCmd {s s' : State} (h : CommandWrites s s') : s'.lastCmd = s.lastCmd := by
  unfold CommandWrites at h
  rw [h]

theorem CommandWrites.lCmd {s s' : State} (h : CommandWrites s s') : s'.lCmd = s.lCmd := by
  unfold CommandWrites at h
  rw [h]

theorem exec_build {i : Instr} {s t : State} (h : exec i s = .next t) : t.build = s.build := by
  obtain ⟨s', code, hwrites, rfl⟩ := exec_completes h
  exact hwrites.build

theorem exec_busy {i : Instr} {s t : State} (h : exec i s = .next t) : t.busy = false := by
  obtain ⟨s', code, -, rfl⟩ := exec_completes h
  rfl

theorem exec_lastCmd {i : Instr} {s t : State} (h : exec i s = .next t) : t.lastCmd = s.lastCmd := by
  obtain ⟨s', code, hwrites, rfl⟩ := exec_completes h
  exact hwrites.lastCmd

theorem exec_lCmd {i : Instr} {s t : State} (h : exec i s = .next t) : t.lCmd = s.lCmd := by
  obtain ⟨s', code, hwrites, rfl⟩ := exec_completes h
  exact hwrites.lCmd

theorem State.Sound.exec {i : Instr} {s t : State} (hs : s.Sound) (h : exec i s = .next t) : t.Sound where
  build := exec_build h ▸ hs.build
  plans c := by
    rw [exec_build h]
    exact (exec_plansAfter hs.build h).plans_sound hs.plans c
  plan2d := (exec_plansAfter hs.build h).sound2d (exec_build h) hs.plan2d
  canonical := (exec_writes i s t hs.plans hs.plan2d h).wf hs.canonical
  mapped := by
    rw [exec_build h]
    exact (exec_writes i s t hs.plans hs.plan2d h).mapped (commandElems_count i s hs.plans hs.plan2d) hs.mapped
  inFlight hb := by rw [exec_busy h] at hb; cases hb
  recorded := by rw [exec_lastCmd h, exec_lCmd h, hs.recorded]

theorem State.writeCsr_plan (s : State) (v : Word) (r : Csr) (c : Ctx) : (s.writeCsr v r).plan c = s.plan c := by
  cases r
  case cmd =>
    simp only [State.writeCsr]
    split_ifs
    · cases c <;> rfl
    · exact s.accept_plan v c
  all_goals cases c <;> rfl

/-- CMD accepts or overruns; a write to any other register leaves the command in flight (46_control.md R293). -/
theorem State.Sound.writeCsr {s : State} (hs : s.Sound) (v : Word) (r : Csr) : (s.writeCsr v r).Sound := by
  have hplan := s.writeCsr_plan v r
  cases r
  case cmd =>
    by_cases hb : s.busy = true
    · rw [show s.writeCsr v .cmd = s.markOverrun from if_pos hb] at hplan ⊢
      exact hs.congr rfl hplan rfl rfl hs.inFlight hs.recorded
    · rw [show s.writeCsr v .cmd = s.accept v from if_neg hb]
      exact hs.congr rfl (s.accept_plan v) rfl rfl (fun _ => ⟨rfl, rfl⟩) rfl
  case status =>
    refine hs.congr rfl hplan rfl rfl (fun hb => ?_) hs.recorded
    obtain ⟨hdone, herr⟩ := hs.inFlight hb
    exact ⟨by simp [State.writeCsr, hdone], herr⟩
  case ctrl | arg0 | arg1 => exact hs.congr rfl hplan rfl rfl hs.inFlight hs.recorded
  all_goals exact hs

/-- The host stores inside the data memories only (20_memory.md R105). -/
theorem State.Sound.withMem_set {s : State} (hs : s.Sound) {b : Buf} {i : Nat} (v : Word) (hi : i < b.count s.build) :
    (s.withMem (s.mem.set b i v)).Sound where
  build := hs.build
  plans c := by rw [State.withMem_plan]; exact hs.plans c
  plan2d := hs.plan2d
  canonical := Memory.wf_set _ b i v hs.canonical
  mapped := (Memory.Writes.refl.store (P := fun d k => k < d.count s.build) b i v hi).mapped (fun _ _ h => h) hs.mapped
  inFlight := hs.inFlight
  recorded := hs.recorded

theorem State.Sound.tick {s : State} (hs : s.Sound) : s.tick.Sound :=
  hs.of_sameCommand (sameCommand_tick s) hs.inFlight rfl

theorem State.Sound.dropOp {s : State} (hs : s.Sound) : s.dropOp.Sound :=
  hs.of_sameCommand (sameCommand_dropOp s) hs.inFlight rfl

theorem State.Sound.answer {s : State} (hs : s.Sound) (r : Reply) : (s.answer r).Sound :=
  hs.of_sameCommand (sameCommand_answer s r) hs.inFlight rfl

theorem State.Sound.markBusError {s : State} (hs : s.Sound) : s.markBusError.Sound :=
  hs.of_sameCommand (sameCommand_markBusError s) hs.inFlight rfl

theorem State.Sound.hostWrite {s : State} (hs : s.Sound) (addr : Word) (size : AccessSize) (v : Word) :
    (hostWrite addr size v s).1.Sound := by
  rcases hostWrite_cases addr size v s with h | ⟨r, h⟩ | ⟨b, i, hi, h⟩ | h <;> rw [h]
  · exact hs.markBusError
  · exact hs.writeCsr v r
  · exact hs.withMem_set v hi
  · exact hs

theorem State.Sound.hostRead {s : State} (hs : s.Sound) (addr : Word) (size : AccessSize) :
    (hostRead addr size s).1.Sound := by
  rcases hostRead_cases addr size s with h | ⟨x, h⟩ <;> rw [h]
  · exact hs.markBusError
  · exact hs

theorem afterReset_sound {b : Build} {m : Memory} (hb : b.legal = true) (hwf : m.wf = true)
    (hm : ∀ c ∈ m, isDataByte b c.1 = true) : (State.afterReset b m).Sound where
  build := hb
  plans c := by cases c <;> exact Plan.none_sound b
  plan2d := ⟨rfl, rfl⟩
  canonical := hwf
  mapped := hm
  inFlight h := Bool.noConfusion h
  recorded := rfl

/-- The reset input leaves a sound state of the same build, whatever the contents given. -/
theorem hostReset_sound {s : State} (hb : s.build.legal = true) (contents : List Host.Cell) :
    (hostReset contents s).Sound :=
  (afterReset_sound hb (Memory.wf_ofCells s.build contents) (Memory.mapped_ofCells s.build contents)).congr
    rfl (fun c => by cases c <;> rfl) rfl rfl (fun h => Bool.noConfusion h) rfl

theorem State.Sound.hostStep {s : State} (hs : s.Sound) (op : HostOp) : (hostStep op s).Sound := by
  cases op with
  | write a size v => exact (hs.tick.dropOp.hostWrite _ size v).answer _
  | read a size => exact (hs.tick.dropOp.hostRead _ size).answer _
  | wait =>
    rw [hostStep_wait]
    split_ifs
    · exact hs.tick.answer _
    · exact (hs.tick.answer _).dropOp
  | reset contents => exact hostReset_sound hs.dropOp.build contents

end Sys2Proof.Machine

open Sys2Proof Sys2Proof.Machine Sys2Proof.Spec

/-! ## The obligations -/

/-- Settles O29: a step is a command, nothing, or one host operation, and each keeps the block sound. -/
theorem everyStepKeepsSoundness : Obligations.EveryStepKeepsSoundness := by
  unfold Obligations.EveryStepKeepsSoundness
  intro s t hs h
  rcases step_cases s with ⟨-, hseq⟩ | ⟨-, -, -, hidle⟩ | ⟨op, rest, -, -, hhost⟩
  · exact hs.exec (hseq.symm.trans h)
  · exact next_inj (hidle.symm.trans h) ▸ hs
  · exact next_inj (hhost.symm.trans h) ▸ hs.hostStep op

/-- Settles O47: an error makes only the completion writes, and the effect of a command that is no result command leaves
the results. -/
theorem onlyResultCommandsWriteResults : Obligations.OnlyResultCommandsWriteResults := by
  unfold Obligations.OnlyResultCommandsWriteResults
  intro i s t h hi
  rcases exec_effect i s t h with ⟨code, -, rfl⟩ | ⟨s', heffect, rfl⟩
  · exact ⟨rfl, rfl⟩
  · exact heffect.results (hi.resolve_right fun herr => herr rfl)

/-- Settles O53: the plans by what each command makes of them, the bytes because the data memories do not overlap. -/
theorem otherContextsAreUntouched : Obligations.OtherContextsAreUntouched := by
  unfold Obligations.OtherContextsAreUntouched
  intro i s t hs h
  have hplans := exec_plansAfter hs.build h
  refine ⟨fun c hc => ⟨hplans.plan_of_notMem hc, fun a ha => ?_⟩, hplans.v2d_of_ne⟩
  have hne : ∀ d ∈ contextsOf i, c ≠ d := fun d hd hcd => hc (hcd ▸ hd)
  rcases ha with ha | ha
  · exact exec_read8_of_notWritten hs h (fun d hd => by simpa using hne d hd) (by simp) ha
  · exact exec_read8_of_notWritten hs h (fun d hd => by simpa using hne d hd) (by simp) ha

/-- Settles O54: the inputs are no data memory that any command writes. -/
theorem commandsOnlyReadTheirInputs : Obligations.CommandsOnlyReadTheirInputs := by
  unfold Obligations.CommandsOnlyReadTheirInputs
  intro i s t hs h b hb a ha
  simp only [List.mem_cons, List.not_mem_nil, or_false] at hb
  refine exec_read8_of_notWritten hs h (fun c _ => ?_) ?_ ha
  · rcases hb with rfl | rfl | rfl <;> exact ⟨nofun, nofun⟩
  · rcases hb with rfl | rfl | rfl <;> decide

end

section
/-! The family of 20_memory.md: the places of the address map and their addresses, the registers' offsets, and what an
access to a place reads and writes. -/

namespace Sys2Proof.Machine

open Sys2Proof Sys2Proof.Spec

/-! ## Places and windows -/

/-- Every place but a register is a word of a window. -/
theorem Loc.csr_or_window (b : Build) (l : Loc) : (∃ r, l = .csr r) ∨ ∃ k i, l = (WindowKind.window b k).loc i := by
  cases l with
  | csr r => exact .inl ⟨r, rfl⟩
  | buf m i => exact .inr ⟨.data m, i, rfl⟩
  | brt c i => exact .inr ⟨.brt c, i, rfl⟩
  | twr c i => exact .inr ⟨.twr c, i, rfl⟩
  | twi c i => exact .inr ⟨.twi c, i, rfl⟩

@[simp] theorem WindowKind.window_loc_addr (b : Build) (k : WindowKind) (i : Nat) :
    ((k.window b).loc i).addr = k.base + 4 * i := by
  cases k <;> rfl

@[simp] theorem WindowKind.mapped_window_loc (b : Build) (k : WindowKind) (i : Nat) :
    Mapped b ((k.window b).loc i) ↔ i < k.count b := by
  cases k <;> exact Iff.rfl

/-- Every mapped place is at its address, registers and window words alike (20_memory.md R81, R82). -/
theorem locate_addr {b : Build} (h : b.legal = true) {l : Loc} (hl : Mapped b l) : locate b l.addr = some l := by
  rcases l.csr_or_window b with ⟨r, rfl⟩ | ⟨k, i, rfl⟩
  · exact locate_csr b r
  · rw [WindowKind.window_loc_addr]
    exact (locate_word h k ((WindowKind.mapped_window_loc b k i).mp hl)).1

/-- An aligned address in a window is the address of the word it falls into: the windows' bases are aligned. -/
theorem mapped_of_locate {b : Build} {a : Nat} {l : Loc} (ha : a % 4 = 0) (hl : locate b a = some l) :
    Mapped b l ∧ l.addr = a := by
  rcases locate_cases hl with ⟨r, rfl, rfl⟩ | ⟨k, hk, rfl⟩
  · exact ⟨trivial, rfl⟩
  · obtain ⟨-, hbase, -⟩ := WindowKind.bounds k k.mem_all
    obtain ⟨hlo, hhi⟩ := (WindowKind.window_holds b k a).mp hk
    rw [WindowKind.mapped_window_loc, WindowKind.window_loc_addr]
    omega

/-! ## The table of R81 -/

/-- The kinds of window in the order in which 20_memory.md R81 lists them. -/
def WindowKind.tableOrder : List WindowKind :=
  Ctx.all.flatMap (fun c => [.data (.re c), .data (.im c), .brt c, .twr c, .twi c]) ++
    [.data .inRe, .data .inIm, .data .matIn, .data .trRe, .data .trIm, .data .mrRe, .data .mrIm]

theorem windowTable_eq (b : Build) :
    windowTable b = WindowKind.tableOrder.map fun k => ((k.window b).loc, k.base, k.count b) := rfl

theorem WindowKind.mem_tableOrder (k : WindowKind) : k ∈ WindowKind.tableOrder := by
  have hall : ∀ k ∈ WindowKind.all, k ∈ WindowKind.tableOrder := by decide
  exact hall k k.mem_all

theorem mem_windowTable {b : Build} {e : (Nat → Loc) × Nat × Nat} :
    e ∈ windowTable b ↔ ∃ k, e = ((WindowKind.window b k).loc, k.base, k.count b) := by
  rw [windowTable_eq, List.mem_map]
  exact ⟨fun ⟨k, _, h⟩ => ⟨k, h.symm⟩, fun ⟨k, h⟩ => ⟨k, k.mem_tableOrder, h.symm⟩⟩

/-! ## The registers -/

/-- The registers lie in the two ranges of 20_memory.md R82. -/
theorem Csr.addr_range (r : Csr) : r.addr ≤ 0x024 ∨ (0x040 ≤ r.addr ∧ r.addr ≤ 0x050) := by
  cases r
  case ctxInfo c => cases c <;> decide
  all_goals decide

/-- Below the windows only the registers are mapped. -/
theorem locate_eq_none_of_lt {b : Build} {a : Nat} (hlow : a < 0x00100000) (hcsr : ∀ r : Csr, a ≠ r.addr) :
    locate b a = none := by
  rw [Option.eq_none_iff_forall_ne_some]
  intro l hl
  rcases locate_cases hl with ⟨r, ha, -⟩ | ⟨k, hk, -⟩
  · exact hcsr r ha
  · obtain ⟨hbase, -, -⟩ := WindowKind.bounds k k.mem_all
    obtain ⟨hlo, -⟩ := (WindowKind.window_holds b k a).mp hk
    omega

/-! ## Accesses to places -/

/-- While the block is idle every mapped place is reached at its address. -/
theorem target_addr {s : State} (h : s.build.legal = true) (hb : s.busy = false) {l : Loc} (hl : Mapped s.build l) :
    s.target (BitVec.ofNat 32 l.addr) .word = some l := by
  rcases l.csr_or_window s.build with ⟨r, rfl⟩ | ⟨k, i, rfl⟩
  · exact target_csr s r
  · rw [WindowKind.window_loc_addr]
    exact target_word h hb k ((WindowKind.mapped_window_loc s.build k i).mp hl)

theorem hostRead_addr {s : State} (h : s.build.legal = true) (hb : s.busy = false) {l : Loc} (hl : Mapped s.build l) :
    hostRead (BitVec.ofNat 32 l.addr) .word s = (s, .data (s.readLoc l)) :=
  hostRead_of_target (target_addr h hb hl)

theorem hostWrite_addr {s : State} (h : s.build.legal = true) (hb : s.busy = false) {l : Loc} (hl : Mapped s.build l)
    (v : Word) : hostWrite (BitVec.ofNat 32 l.addr) .word v s = (s.writeLoc v l, .ack) :=
  hostWrite_of_target v (target_addr h hb hl)

/-- Element after store, in the elements that a legal build has. -/
theorem Memory.get_set_of_count {bd : Build} (h : bd.legal = true) (m : Memory) {b b' : Buf} {i j : Nat} (v : Word)
    (hi : i < b.count bd) (hj : j < b'.count bd) :
    (m.set b i v).get b' j = if b = b' ∧ i = j then v else m.get b' j :=
  m.get_set v (hi.trans_le (b.count_le_room h)) (hj.trans_le (b'.count_le_room h))

/-! ## The views of a plan -/

theorem State.brtWord_eq (s : State) (c : Ctx) (i : Nat) : s.brtWord c i =
    if (s.plan c).valid = true ∧ i < s.length c then zext16 (bitrev i (s.steps c)) else 0 := by
  simp [State.brtWord]

theorem State.twrWord_eq (s : State) (c : Ctx) (k : Nat) : s.twrWord c k =
    if (s.plan c).valid = true ∧ k < s.length c / 2 then
      BitVec.ofInt 32 (twiddle s.build.fracBits (s.length c) k).1 else 0 := by
  simp [State.twrWord, s32]

theorem State.twiWord_eq (s : State) (c : Ctx) (k : Nat) : s.twiWord c k =
    if (s.plan c).valid = true ∧ k < s.length c / 2 then
      BitVec.ofInt 32 (twiddle s.build.fracBits (s.length c) k).2 else 0 := by
  simp [State.twiWord, s32]

/-! ## Bytes of words -/

/-- The bytes of a word in their order (20_memory.md R84). -/
theorem wordOfBytes_byte (b0 b1 b2 b3 : Byte) :
    (wordOfBytes b0 b1 b2 b3).extractLsb' 0 8 = b0 ∧ (wordOfBytes b0 b1 b2 b3).extractLsb' 8 8 = b1 ∧
    (wordOfBytes b0 b1 b2 b3).extractLsb' 16 8 = b2 ∧ (wordOfBytes b0 b1 b2 b3).extractLsb' 24 8 = b3 := by
  unfold wordOfBytes
  refine ⟨BitVec.extractLsb'_append_eq_right, ?_, ?_, ?_⟩
  · rw [BitVec.extractLsb'_append_eq_of_le (by decide)]
    exact BitVec.extractLsb'_append_eq_right
  · rw [BitVec.extractLsb'_append_eq_of_le (by decide), BitVec.extractLsb'_append_eq_of_le (by decide)]
    exact BitVec.extractLsb'_append_eq_right
  · rw [BitVec.extractLsb'_append_eq_of_le (by decide), BitVec.extractLsb'_append_eq_of_le (by decide)]
    exact BitVec.extractLsb'_append_eq_left

theorem Memory.extractLsb'_read32 (m : Memory) (a : Nat) {k : Nat} (hk : k < 4) :
    (m.read32 a).extractLsb' (8 * k) 8 = m.read8 (a + k) := by
  obtain ⟨h0, h1, h2, h3⟩ := wordOfBytes_byte (m.read8 a) (m.read8 (a + 1)) (m.read8 (a + 2)) (m.read8 (a + 3))
  interval_cases k
  · exact h0
  · exact h1
  · exact h2
  · exact h3

theorem Memory.read8_write32_byte (m : Memory) (a : Nat) (v : Word) {k : Nat} (hk : k < 4) :
    (m.write32 a v).read8 (a + k) = v.extractLsb' (8 * k) 8 := by
  rw [Memory.read8_write32]
  interval_cases k <;> simp

end Sys2Proof.Machine

open Sys2Proof Sys2Proof.Machine Sys2Proof.Spec

/-! ## The obligations -/

/-- Settles O14: a place is a register or a word of a window, and the table of R81 lists exactly the windows. -/
theorem addressMapIsTheTable : Obligations.AddressMapIsTheTable := by
  unfold Obligations.AddressMapIsTheTable
  intro b hb
  refine ⟨fun l => locate_addr hb, fun a l => mapped_of_locate, fun e he i => ?_, fun l => ?_⟩
  · obtain ⟨k, rfl⟩ := mem_windowTable.mp he
    exact ⟨k.window_loc_addr b i, k.mapped_window_loc b i, fun hi => (locate_word hb k hi).1⟩
  · rcases l.csr_or_window b with hcsr | ⟨k, i, hl⟩
    · exact .inl hcsr
    · exact .inr ⟨_, mem_windowTable.mpr ⟨k, rfl⟩, i, hl⟩

/-- Settles O21: a window word is served while the block is idle, and the data memories are independent arrays. -/
theorem windowReadsWhatWasWritten : Obligations.WindowReadsWhatWasWritten := by
  unfold Obligations.WindowReadsWhatWasWritten
  intro b i v s hlegal hidle hi
  have hget {b' : Buf} {j : Nat} (hj : j < b'.count s.build) := Memory.get_set_of_count hlegal s.mem v hi hj
  have hback : (s.withMem (s.mem.set b i v)).get b i = v := (hget hi).trans (if_pos ⟨rfl, rfl⟩)
  refine ⟨hostRead_addr hlegal hidle (l := .buf b i) hi, s.mem.set b i v,
    hostWrite_addr hlegal hidle (l := .buf b i) hi v, ?_, fun b' j hj hne => ?_,
    fun a => s.mem.read8_set_of_outside b i v a⟩
  · have hread := hostRead_addr (s := s.withMem (s.mem.set b i v)) hlegal hidle (l := .buf b i) hi
    rwa [State.readLoc, hback] at hread
  · exact (hget hj).trans (if_neg fun h => hne ⟨h.1.symm, h.2.symm⟩)

/-- Settles O23: a read of a table word is served while the block is idle, with the word of the view. -/
theorem tableWindowsRead : Obligations.TableWindowsRead := by
  unfold Obligations.TableWindowsRead
  intro c i s hlegal hidle
  rw [← State.brtWord_eq, ← State.twrWord_eq, ← State.twiWord_eq]
  exact ⟨fun hi => hostRead_addr hlegal hidle (l := .brt c i) hi,
    fun hi => hostRead_addr hlegal hidle (l := .twr c i) hi, fun hi => hostRead_addr hlegal hidle (l := .twi c i) hi⟩

/-- Settles O15: a register is found at its offset, and the windows begin above the addresses in question. -/
theorem registerOffsetsAreExact : Obligations.RegisterOffsetsAreExact := by
  unfold Obligations.RegisterOffsetsAreExact
  intro b _
  refine ⟨locate_csr b .id, locate_csr b .cfg, locate_csr b .ctrl, locate_csr b .status, locate_csr b .cmd,
    locate_csr b .arg0, locate_csr b .arg1, locate_csr b .res0, locate_csr b .res1, locate_csr b .lastCmd,
    locate_csr b (.ctxInfo .p0), locate_csr b (.ctxInfo .p1), locate_csr b (.ctxInfo .row),
    locate_csr b (.ctxInfo .col), locate_csr b .p2dInfo, fun a hlow _ hgap => locate_eq_none_of_lt hlow fun r hr => ?_⟩
  have := r.addr_range
  omega

/-- Settles O20: the write of a read-only place is served and keeps the state. -/
theorem readOnlyWritesAreIgnored : Obligations.ReadOnlyWritesAreIgnored := by
  unfold Obligations.ReadOnlyWritesAreIgnored
  intro v s hlegal
  refine ⟨fun r hr => ?_, fun l hidle hl htable => ?_, hostRead_csr s .cmd⟩
  · rw [hostWrite_csr]
    rcases hr with rfl | rfl | rfl | rfl | rfl | ⟨c, rfl⟩ | rfl <;> rfl
  · rw [hostWrite_addr hlegal hidle hl]
    rcases htable with ⟨c, i, rfl⟩ | ⟨c, i, rfl⟩ | ⟨c, i, rfl⟩ <;> rfl

/-- Settles O22: the bytes of a word by `wordOfBytes`, for a load and for a store. -/
theorem wordsAreLittleEndian : Obligations.WordsAreLittleEndian := by
  unfold Obligations.WordsAreLittleEndian
  intro m a v k hk
  exact ⟨m.extractLsb'_read32 a hk, m.read8_write32_byte a v hk⟩

end

section
/-! The family of 30_encoding.md: the rows of the opcode map against the encoder and the table of the 33 legal words, and
what a step is on a word outside them. -/

namespace Sys2Proof

open Sys2Proof.Machine Sys2Proof.Spec
open Sys2Proof.Laws.EncodedWord (opc)

/-! ## Commands with an OPC -/

/-- The reserved row is the only command without an OPC, and the only one that can be ill-formed. -/
theorem wellFormed_of_opc {i : Instr} (h : opc i ≠ none) : wellFormed i = true := by
  cases i
  case reserved w => exact absurd rfl h
  all_goals rfl

/-- A command other than the reserved row's stands in the table beside its word (30_encoding.md R122). -/
theorem mem_legalWords_of_opc {i : Instr} (h : opc i ≠ none) : (encodeWord i, i) ∈ legalWords := by
  cases i
  case reserved w => exact absurd rfl h
  case planCreate c | planDestroy c | loadReal c | loadCplx c | result c | mag c | nmag c => cases c <;> decide
  case run c d => cases c <;> cases d <;> decide
  case transform c d k => cases c <;> cases d <;> cases k <;> decide
  case transform2d d => cases d <;> decide
  case nop | isqrt | plan2dCreate | plan2dDestroy | result2d => decide

/-! ## The table of R122 -/

theorem legalWord_of_mem_legalWords : ∀ e ∈ legalWords, legalWord e.1 = true := by decide

theorem decodeWord_of_mem_legalWords : ∀ e ∈ legalWords, decodeWord e.1 = e.2 := by decide

/-! ## The rows of the opcode map -/

theorem opc_build {r : OpcodeRow} (hr : r ∈ opcodeMap) (w : Word) : opc (r.build w) ≠ none := by
  revert r
  simp [opcodeMap, opc]

/-- Row by row, the encoder sets the bits a row fixes to its pattern and leaves the word's own bits in the fields the row
uses: those outside its mask (30_encoding.md R112, R121). -/
theorem encodeWord_build {r : OpcodeRow} (hr : r ∈ opcodeMap) (w : Word) :
    encodeWord (r.build w) = r.pattern ||| (w &&& ~~~r.mask) := by
  revert r
  simp [opcodeMap, encodeWord, ctxField_bits, dirField_bits, cplxField_bits, BitVec.or_assoc,
    ← BitVec.and_or_distrib_left]

theorem opc_decodeWord {w : Word} (h : legalWord w = true) : opc (decodeWord w) ≠ none := by
  obtain ⟨r, hr, -, hdecode⟩ := decodeWord_of_legal w h
  exact hdecode ▸ opc_build hr w

/-- Encoding inverts decoding on every word (30_encoding.md R124). -/
theorem encodeWord_decodeWord (w : Word) : encodeWord (decodeWord w) = w := by
  cases h : legalWord w with
  | false => rw [decodeWord_of_not_legal w h]; rfl
  | true =>
    obtain ⟨r, hr, hcovers, hdecode⟩ := decodeWord_of_legal w h
    rw [hdecode, encodeWord_build hr, ← r.eq_of_covers w hcovers]

theorem wellFormed_decodeWord (w : Word) : wellFormed (decodeWord w) = true := by
  cases h : legalWord w with
  | false => rw [decodeWord_of_not_legal w h, wellFormed, h]; rfl
  | true => exact wellFormed_of_opc (opc_decodeWord h)

/-- Decoding inverts encoding on every well-formed command: through the table, or as a word outside the rows. -/
theorem decodeWord_encodeWord {i : Instr} (h : wellFormed i = true) : decodeWord (encodeWord i) = i := by
  by_cases hopc : opc i = none
  · cases i
    case reserved w => exact decodeWord_of_not_legal w (by simpa [wellFormed] using h)
    all_goals cases hopc
  · exact decodeWord_of_mem_legalWords _ (mem_legalWords_of_opc hopc)

/-- The legal words are those of the table: a legal word is the word of the command it decodes to. -/
theorem legalWord_iff_mem (w : Word) : legalWord w = true ↔ w ∈ legalWords.map Prod.fst := by
  refine ⟨fun h => ?_, fun h => ?_⟩
  · have hmem := List.mem_map_of_mem (f := Prod.fst) (mem_legalWords_of_opc (opc_decodeWord h))
    rwa [encodeWord_decodeWord] at hmem
  · obtain ⟨e, he, rfl⟩ := List.mem_map.mp h
    exact legalWord_of_mem_legalWords e he

/-- The opcode table's numbering reads a number as the word of its 32 low bits. -/
theorem decodeTableWord_eq (n : Nat) : decodeTableWord 32 n = some (decodeWord (BitVec.ofNat 32 n)) := by
  have hlow : BitVec.ofNat 32 (n % 2 ^ 32) = BitVec.ofNat 32 n := BitVec.eq_of_toNat_eq (by simp)
  rw [decodeTableWord, decode_wordBytes, hlow]

/-! ## Steps -/

namespace Machine

theorem completes_exec (i : Instr) (s : State) : Completes (exec i s) := by
  rcases exec_cases i s with ⟨code, -, h⟩ | ⟨s', -, h⟩
  · exact ⟨s.complete code, h⟩
  · exact ⟨s'.complete .ok, h⟩

theorem step_of_seqTurn {s : State} (h : SeqTurn s) : step s = exec (decodeWord s.lCmd) s := by
  rw [step, if_pos ((seqTurn_iff s).mpr h), seqStep_eq]

theorem exec_reserved (w : Word) (s : State) :
    exec (.reserved w) s = .next { s with busy := false, done := true, err := .illegal } := rfl

end Machine

end Sys2Proof

open Sys2Proof Sys2Proof.Machine Sys2Proof.Spec

/-! ## The obligations -/

/-- Settles O3: the decoder reads the four bytes of the command's word, and decoding inverts encoding on words. -/
theorem decodeOfEncodeIsTheCommand : Obligations.DecodeOfEncodeIsTheCommand := by
  unfold Obligations.DecodeOfEncodeIsTheCommand
  intro i rest h
  rw [encode, decode_wordBytes_append, decodeWord_encodeWord h]

/-- Settles O2: the table by evaluation, and a word that a row covers because it is the word of its command. -/
theorem legalWordsAreTheTable : Obligations.LegalWordsAreTheTable := by
  unfold Obligations.LegalWordsAreTheTable
  exact ⟨rfl, decodeWord_of_mem_legalWords, legalWord_iff_mem⟩

/-- Settles O4: row by row for a legal word, and the reserved row carries the word itself. -/
theorem encodeOfDecodeIsTheWord : Obligations.EncodeOfDecodeIsTheWord := by
  unfold Obligations.EncodeOfDecodeIsTheWord
  exact fun w => ⟨wellFormed_decodeWord w, encodeWord_decodeWord w⟩

/-- Settles O7: a step is a command, which completes, or nothing, or one host operation. -/
theorem noStepStops : Obligations.NoStepStops := by
  unfold Obligations.NoStepStops
  intro s
  rcases step_cases s with ⟨-, h⟩ | ⟨-, -, -, h⟩ | ⟨op, _, -, -, h⟩
  · exact h ▸ completes_exec _ s
  · exact ⟨s, h⟩
  · exact ⟨hostStep op s, h⟩

/-- Settles O30: a word outside the table decodes to the reserved row, whose command raises ILLEGAL. -/
theorem illegalWordsComplete : Obligations.IllegalWordsComplete := by
  unfold Obligations.IllegalWordsComplete
  refine ⟨fun s hturn hword => ?_, exec_reserved⟩
  rw [← legalWord_iff_mem, Bool.not_eq_true] at hword
  rw [step_of_seqTurn hturn, decodeWord_of_not_legal _ hword, exec_reserved]

/-- Settles O1: the words through the opcode table's numbering, each decoded by evaluation. -/
theorem commandWordsDecode : Obligations.CommandWordsDecode := by
  unfold Obligations.CommandWordsDecode
  simp only [decodeTableWord_eq, Option.some.injEq]
  decide

end

section
/-! The family of 40_fixed_point.md: the shift right as the floor of a quotient, scale-out against scale-in, the
multiply-shift, and the read-out of an element. -/

namespace Sys2Proof.Machine

open Sys2Proof

/-! ## The shift right -/

/-- The floor of R14 as a Galois connection: what lies below the shifted value. -/
theorem le_asr_iff {a v : Int} {n : Nat} : a ≤ asr v n ↔ a * 2 ^ n ≤ v :=
  Int.le_ediv_iff_mul_le (by positivity)

/-- The floor of R14 as a Galois connection: what lies above the shifted value. -/
theorem asr_lt_iff {a v : Int} {n : Nat} : asr v n < a ↔ v < a * 2 ^ n :=
  Int.ediv_lt_iff_lt_mul (by positivity)

theorem asr_eq_floor (v : Int) (n : Nat) : asr v n = ⌊(v : ℚ) / 2 ^ n⌋ := by
  simpa [asr] using (Rat.floor_intCast_div_natCast v (2 ^ n)).symm

theorem asr_mul_two_pow (v : Int) (n : Nat) : asr (v * 2 ^ n) n = v :=
  Int.mul_ediv_cancel v (by positivity)

/-! ## Scale-in and scale-out -/

theorem le_scaleOut {f : Nat} (hf : f ≤ 31) (x : Word) : -2 ^ (31 - f) ≤ scaleOut f x := by
  rw [scaleOut, le_asr_iff, neg_mul, pow_sub_mul_pow 2 hf]
  exact x.le_toInt

theorem scaleOut_lt {f : Nat} (hf : f ≤ 31) (x : Word) : scaleOut f x < 2 ^ (31 - f) := by
  rw [scaleOut, asr_lt_iff, pow_sub_mul_pow 2 hf]
  exact x.toInt_lt

theorem toInt_s32 {v : Int} (hlow : -2 ^ 31 ≤ v) (hhigh : v < 2 ^ 31) : (s32 v).toInt = v :=
  BitVec.toInt_ofInt_eq_self (by decide) hlow hhigh

/-- Scale-in keeps the samples of R141's range: their product with 2^F does not wrap. -/
theorem toInt_scaleIn {f : Nat} (hf : f ≤ 31) {x : Word} (hlow : -2 ^ (31 - f) ≤ x.toInt)
    (hhigh : x.toInt < 2 ^ (31 - f)) : (scaleIn f x).toInt = x.toInt * 2 ^ f := by
  have hpow : (0 : Int) < 2 ^ f := by positivity
  have hword : (2 : Int) ^ (31 - f) * 2 ^ f = 2 ^ 31 := pow_sub_mul_pow 2 hf
  apply toInt_s32
  · rw [← hword, ← neg_mul]
    exact mul_le_mul_of_nonneg_right hlow hpow.le
  · rw [← hword]
    exact mul_lt_mul_of_pos_right hhigh hpow

/-! ## The multiply-shift -/

theorem abs_toInt_le (x : Word) : |x.toInt| ≤ 2 ^ 31 :=
  abs_le.mpr ⟨x.le_toInt, x.toInt_lt.le⟩

theorem abs_asr_le {v a : Int} {n : Nat} (h : |v| ≤ a * 2 ^ n) : |asr v n| ≤ a := by
  obtain ⟨hlow, hhigh⟩ := abs_le.mp h
  refine abs_le.mpr ⟨le_asr_iff.mpr (by rwa [neg_mul]), ?_⟩
  calc asr v n ≤ asr (a * 2 ^ n) n := Int.ediv_le_ediv (by positivity) hhigh
    _ = a := asr_mul_two_pow a n

/-- A word times a factor of magnitude at most 2^F, as a twiddle is (R144). -/
theorem abs_toInt_mul_le {f : Nat} (b : Word) {w : Int} (hw : |w| ≤ 2 ^ f) : |b.toInt * w| ≤ 2 ^ 31 * 2 ^ f := by
  rw [abs_mul]
  exact mul_le_mul (abs_toInt_le b) hw (abs_nonneg w) (by positivity)

/-! ## RESULT -/

theorem execResult_of_index {c : HostCtx} {s : State} (hvalid : (s.plan (ctxOf c)).valid = true)
    (hindex : s.indexArg < s.length (ctxOf c)) :
    execResult c s = commit (s.withResults (s32 (scaleOut s.build.fracBits (s.get (.re (ctxOf c)) s.indexArg)))
      (s32 (scaleOut s.build.fracBits (s.get (.im (ctxOf c)) s.indexArg)))) := by
  simp only [execResult, hvalid, Bool.not_true, Bool.false_eq_true, if_false, if_neg (not_le.mpr hindex)]

end Sys2Proof.Machine

open Sys2Proof Sys2Proof.Machine

/-! ## The obligations -/

/-- Settles O57: the bounds are those of a word, divided by 2^F, and scale-in does not wrap on the samples it keeps. -/
theorem scaleOutUndoesScaleIn : Obligations.ScaleOutUndoesScaleIn := by
  unfold Obligations.ScaleOutUndoesScaleIn
  intro f x _ hf
  have hf31 : f ≤ 31 := by omega
  refine ⟨⟨asr_eq_floor _ f, le_scaleOut hf31 x, Int.le_sub_one_of_lt (scaleOut_lt hf31 x)⟩, fun hlow hhigh => ?_⟩
  rw [scaleOut, toInt_scaleIn hf31 hlow hhigh, asr_mul_two_pow]

/-- Settles O58: the product of a word and a factor up to 2^F is within 2^31 * 2^F, and so its floor quotient within
2^31. -/
theorem mulShiftFloorsTheExactProduct : Obligations.MulShiftFloorsTheExactProduct := by
  unfold Obligations.MulShiftFloorsTheExactProduct
  refine ⟨fun f b w _ hf hw => ?_, by decide, by decide⟩
  have hprod := abs_toInt_mul_le b hw
  have hbound : (2 : Int) ^ 31 * 2 ^ f ≤ 2 ^ 47 :=
    calc (2 : Int) ^ 31 * 2 ^ f ≤ 2 ^ 31 * 2 ^ 16 := by gcongr; decide
      _ = 2 ^ 47 := by decide
  exact ⟨hprod.trans hbound, le_asr_iff.mp le_rfl, asr_lt_iff.mp (lt_add_one _), abs_asr_le hprod⟩

/-- Settles O43: with both checks passed RESULT commits the two parts scaled out. -/
theorem resultScalesOut : Obligations.ResultScalesOut := by
  unfold Obligations.ResultScalesOut
  intro c s hvalid hindex
  exact execResult_of_index hvalid hindex

end

section
/-! The family of 41_plan.md: plans made and cleared, the bit reversal bit by bit, the ROM as the rounded cosine, and
the twiddles read off it. -/

namespace Sys2Proof.Machine

open Sys2Proof

/-! ## Plans -/

theorem State.lengthArg_eq (s : State) : s.lengthArg = s.lArg0.toNat % 2 ^ 16 := by
  simp [State.lengthArg, lengthOperand]

/-- The fields of a plan whose length is a power of two: STEPS is the exponent (41_plan.md R164). -/
theorem Plan.ofLength_two_pow (k : Nat) :
    Plan.ofLength (2 ^ k) = { valid := true, length := BitVec.ofNat 16 (2 ^ k), steps := BitVec.ofNat 4 k } := by
  rw [Plan.ofLength, Nat.log2_two_pow]

/-- A completed PLAN_CREATE has written the context's fields, the memory and the completion fields (41_plan.md R161). -/
theorem createPlan_complete (s : State) (c : Ctx) (n : Nat) :
    (s.createPlan c n).complete .ok = { s.setPlan c (Plan.ofLength n) with
      mem := (s.createPlan c n).mem, busy := false, done := true, err := .ok } := rfl

theorem createPlan_pair {s : State} (h : s.build.legal = true) (c : Ctx) (n : Nat) {i : Nat} (hi : i < s.build.maxLen) :
    (s.createPlan c n).mem.pair c i = (0, 0) := by
  have hmax : s.build.maxLen ≤ 32768 := Build.maxLen_le h
  have hroom : i < 32768 := by omega
  rw [createPlan_mem, Memory.pair]
  rw [Memory.get_zero _ hmax hroom, Memory.get_zero _ hmax hroom, Memory.get_zero _ hmax hroom]
  simp [hi]

theorem createPlan_read8 (s : State) (c : Ctx) (n : Nat) {a : Nat} (ha : ¬c.HasByte s.build.maxLen a) :
    (s.createPlan c n).mem.read8 a = s.mem.read8 a := by
  simp only [Ctx.HasByte, Buf.HasByte, not_or, not_and_or, not_le, not_lt] at ha
  obtain ⟨hre, him⟩ := ha
  rw [createPlan_mem, Memory.read8_zero_of_outside _ _ _ _ him, Memory.read8_zero_of_outside _ _ _ _ hre]

theorem execPlanCreate_of_length (c : HostCtx) {s : State} (hpow : isPow2 s.lengthArg = true)
    (hle : s.lengthArg ≤ s.build.maxLen) :
    execPlanCreate c s = commit (s.createPlan (ctxOf c) s.lengthArg) := by
  simp only [execPlanCreate, hpow, Bool.not_true, Bool.false_eq_true, if_false, if_neg (not_lt.mpr hle)]

theorem execPlanDestroy_of_valid {c : HostCtx} {s : State} (h : (s.plan (ctxOf c)).valid = true) :
    execPlanDestroy c s = commit (s.setPlan (ctxOf c) .none) := by
  simp [execPlanDestroy, h]

theorem execPlanDestroy_of_invalid {c : HostCtx} {s : State} (h : (s.plan (ctxOf c)).valid = false) :
    execPlanDestroy c s = raiseCmdError .noPlan s := by
  simp [execPlanDestroy, h]

/-! ## The bit reversal -/

/-- One round sets bit p where the bit it looks at is set. -/
theorem setBitIf_testBit (c : Bool) (r p t : Nat) :
    (if c then r ||| (1 <<< p) else r).testBit t = (r.testBit t || (c && decide (p = t))) := by
  cases c <;> simp [Nat.one_shiftLeft, Nat.testBit_two_pow]

/-- The first n rounds of the bit reversal (41_plan.md R170) have moved the n low bits of i to the top, and set no other
bit. -/
theorem bitrev_rounds_testBit (i b t n : Nat) (hn : n ≤ b) :
    ((List.range n).foldl (fun r t => if i.testBit t then r ||| (1 <<< (b - 1 - t)) else r) 0).testBit t =
      (decide (t < b ∧ b - 1 - t < n) && i.testBit (b - 1 - t)) := by
  induction n with
  | zero => simp
  | succ n ih =>
    rw [List.range_succ, List.foldl_append, List.foldl_cons, List.foldl_nil, setBitIf_testBit, ih (by omega)]
    by_cases ht : b - 1 - n = t
    · have hback : b - 1 - t = n := by omega
      have htb : t < b := by omega
      simp [ht, hback, htb]
    · have hrange : (t < b ∧ b - 1 - t < n + 1) ↔ (t < b ∧ b - 1 - t < n) := by omega
      simp only [ht, hrange, decide_false, Bool.and_false, Bool.or_false]

theorem bitrev_testBit (i b t : Nat) : (bitrev i b).testBit t = (decide (t < b) && i.testBit (b - 1 - t)) := by
  rw [bitrev, bitrev_rounds_testBit i b t b le_rfl]
  have hrange : (t < b ∧ b - 1 - t < b) ↔ t < b := by omega
  simp only [hrange]

/-- The bit reversal is its own inverse on the indices of its width (41_plan.md R171). -/
theorem bitrev_bitrev {i b : Nat} (hi : i < 2 ^ b) : bitrev (bitrev i b) b = i := by
  apply Nat.eq_of_testBit_eq
  intro t
  rw [bitrev_testBit, bitrev_testBit]
  by_cases ht : t < b
  · have hback : b - 1 - (b - 1 - t) = t := by omega
    have hlt : b - 1 - t < b := by omega
    simp [ht, hlt, hback]
  · have hpow : 2 ^ b ≤ 2 ^ t := Nat.pow_le_pow_right (by decide) (by omega)
    simp [ht, Nat.testBit_lt_two_pow (hi.trans_le hpow)]

/-! ## The ROM -/

/-- Every run of the table of 42_twiddle_rom.md R192 lies inside its half unit at both its ends. -/
theorem romRuns_fit : runsFit romRuns 256 0 = true := by decide +kernel

theorem romRuns_sum : romRuns.sum = 8193 := by decide +kernel

theorem romEntry_eight (m : Nat) : romEntry 8 m = entryOfRuns romRuns 256 m := if_pos rfl

theorem romEntry_eight_near {m : Nat} (hm : m ≤ 8192) : |romCosine m * 2 ^ 8 - romEntry 8 m| < 1 / 2 := by
  have h := entryOfRuns_near romRuns 256 0 romRuns_fit m (by rw [romRuns_sum]; omega)
  rwa [zero_add, ← romEntry_eight] at h

theorem romEntry_eight_eq_round {m : Nat} (hm : m ≤ 8192) : romEntry 8 m = round (romCosine m * 2 ^ 8) :=
  (round_eq_of_near (romEntry_eight_near hm)).symm

/-- Tabulated or computed, an entry lies within one half and 2^-40 of its cosine. -/
theorem romEntry_near {f m : Nat} (hf : f ≤ 16) (hm : m ≤ 8192) :
    |romCosine m * 2 ^ f - romEntry f m| ≤ 1 / 2 + 1 / 2 ^ 40 := by
  by_cases h8 : f = 8
  · subst h8
    exact (romEntry_eight_near hm).le.trans (by norm_num)
  · rw [romEntry, if_neg h8, abs_sub_comm]
    exact romEntryComputed_near f m hf hm

/-- An entry whose cosine is an integer multiple of 2^-F is exact. -/
theorem romEntry_eq_of_cosine {f m : Nat} {n : Int} (hf : f ≤ 16) (hm : m ≤ 8192) (h : romCosine m * 2 ^ f = n) :
    romEntry f m = n := by
  have hnear := romEntry_near hf hm
  rw [h] at hnear
  have hlt : |(n : ℝ) - romEntry f m| < 1 := hnear.trans_lt (by norm_num)
  have hzero : n - romEntry f m = 0 := Int.abs_lt_one_iff.mp (by exact_mod_cast hlt)
  omega

theorem romEntry_zero {f : Nat} (hf : f ≤ 16) : romEntry f 0 = 2 ^ f :=
  romEntry_eq_of_cosine hf (by omega) (by simp [romCosine])

theorem romEntry_last {f : Nat} (hf : f ≤ 16) : romEntry f 8192 = 0 := by
  have hquarter : 2 * Real.pi * (8192 : Nat) / 32768 = Real.pi / 2 := by push_cast; ring
  refine romEntry_eq_of_cosine hf le_rfl ?_
  rw [romCosine, hquarter, Real.cos_pi_div_two]
  simp

/-- The spot values of 42_twiddle_rom.md R194 between the ends. -/
theorem romEntry_eight_spots :
    romEntry 8 1024 = 251 ∧ romEntry 8 2048 = 237 ∧ romEntry 8 4096 = 181 ∧ romEntry 8 4658 = 160 ∧
      romEntry 8 6144 = 98 ∧ romEntry 8 8191 = 0 := by decide +kernel

/-- Rounding keeps the fall of the cosine (42_twiddle_rom.md R190). -/
theorem romEntry_eight_anti {a b : Nat} (h : a ≤ b) (hb : b ≤ 8192) : romEntry 8 b ≤ romEntry 8 a := by
  rw [romEntry_eight_eq_round hb, romEntry_eight_eq_round (h.trans hb), round_eq, round_eq]
  have := romCosine_anti h hb
  gcongr

/-! ## The twiddles -/

/-- The first quarter turn (41_plan.md R173). -/
theorem twiddle_of_le {f len k m : Nat} (hm : k * (32768 / len) = m) (h : m ≤ 8192) :
    twiddle f len k = (romEntry f m, -romEntry f (8192 - m)) := by
  rw [twiddle, hm]
  exact if_pos h

/-- The second quarter turn; at the quarter itself both forms agree, because the last entry is 0. -/
theorem twiddle_of_ge {f len k m : Nat} (hf : f ≤ 16) (hm : k * (32768 / len) = m) (h : 8192 ≤ m) :
    twiddle f len k = (-romEntry f (16384 - m), -romEntry f (m - 8192)) := by
  rcases h.eq_or_lt with rfl | h
  · rw [twiddle_of_le hm le_rfl]
    simp [romEntry_last hf]
  · rw [twiddle, hm]
    exact if_neg (by omega)

/-- Index scaling (41_plan.md R173): a 2^d-th part of a length is the same part of the ROM's resolution. -/
theorem two_pow_div_mul_stride {d e : Nat} (hd : d ≤ e) (he : e ≤ 15) :
    2 ^ e / 2 ^ d * (32768 / 2 ^ e) = 2 ^ (15 - d) := by
  have hstride : 32768 / 2 ^ e = 2 ^ (15 - e) := Nat.pow_div (x := 2) he (by decide)
  rw [hstride, Nat.pow_div hd two_pos, ← pow_add]
  congr 1
  omega

theorem twiddle_zero {f : Nat} (hf : f ≤ 16) (len : Nat) : twiddle f len 0 = (2 ^ f, 0) := by
  rw [twiddle_of_le (zero_mul _) (Nat.zero_le _), romEntry_zero hf, Nat.sub_zero, romEntry_last hf, neg_zero]

theorem twiddle_quarter {f e : Nat} (hf : f ≤ 16) (he2 : 2 ≤ e) (he : e ≤ 15) :
    twiddle f (2 ^ e) (2 ^ e / 4) = (0, -2 ^ f) := by
  have hquarter : 2 ^ e / 4 * (32768 / 2 ^ e) = 8192 := two_pow_div_mul_stride (d := 2) he2 he
  rw [twiddle_of_le hquarter le_rfl, romEntry_last hf, Nat.sub_self, romEntry_zero hf]

/-- Mirroring at the quarter turn negates the cosine and keeps the sine (41_plan.md R175). -/
theorem twiddle_mirror {f e k : Nat} (hf : f ≤ 16) (he1 : 1 ≤ e) (he : e ≤ 15) (hk : k ≤ 2 ^ e / 2) :
    twiddle f (2 ^ e) (2 ^ e / 2 - k) = (-(twiddle f (2 ^ e) k).1, (twiddle f (2 ^ e) k).2) := by
  obtain ⟨m, hm⟩ : ∃ m, k * (32768 / 2 ^ e) = m := ⟨_, rfl⟩
  have hhalf : 2 ^ e / 2 * (32768 / 2 ^ e) = 16384 := two_pow_div_mul_stride (d := 1) he1 he
  have hle : m ≤ 16384 := by rw [← hm, ← hhalf]; exact Nat.mul_le_mul_right _ hk
  have hmirror : (2 ^ e / 2 - k) * (32768 / 2 ^ e) = 16384 - m := by rw [Nat.sub_mul, hhalf, hm]
  rcases le_total m 8192 with h | h
  · rw [twiddle_of_le hm h, twiddle_of_ge hf hmirror (by omega)]
    rw [show 16384 - (16384 - m) = m by omega, show 16384 - m - 8192 = 8192 - m by omega]
  · rw [twiddle_of_ge hf hm h, twiddle_of_le hmirror (by omega), neg_neg]
    rw [show 8192 - (16384 - m) = m - 8192 by omega]

/-- The error of a twiddle's components is that of the two ROM entries it is read from: signs do not change it. -/
theorem twiddle_error (f : Nat) {e k : Nat} (he1 : 1 ≤ e) (he : e ≤ 15) (hk : k < 2 ^ e / 2) :
    ∃ a b : Nat, a ≤ 8192 ∧ b ≤ 8192 ∧
      |Real.cos (2 * Real.pi * k / 2 ^ e) * 2 ^ f - (twiddle f (2 ^ e) k).1| = |romCosine a * 2 ^ f - romEntry f a| ∧
      |-Real.sin (2 * Real.pi * k / 2 ^ e) * 2 ^ f - (twiddle f (2 ^ e) k).2| =
        |romCosine b * 2 ^ f - romEntry f b| := by
  obtain ⟨a, b, σ, ha, hb, hσ, htw, hcos, hsin⟩ := twiddle_cases f e k he1 he hk
  have hσ1 : |(σ : ℝ)| = 1 := by rcases hσ with rfl | rfl <;> simp
  refine ⟨a, b, ha, hb, ?_, ?_⟩
  · rw [htw, hcos]
    push_cast
    rw [mul_assoc, ← mul_sub, abs_mul, hσ1, one_mul]
  · rw [htw, hsin]
    push_cast
    rw [neg_mul, ← neg_sub', abs_neg]

end Sys2Proof.Machine

open Sys2Proof Sys2Proof.Machine

/-! ## The obligations -/

/-- Settles O36: the length passes both checks, and the plan created zeroes the context's two buffers only. -/
theorem planCreateMakesAPlan : Obligations.PlanCreateMakesAPlan := by
  unfold Obligations.PlanCreateMakesAPlan
  intro c k s hlegal hlen hle
  have harg : s.lengthArg = 2 ^ k := s.lengthArg_eq.trans hlen
  refine ⟨(s.createPlan (ctxOf c) (2 ^ k)).mem, ?_, fun i hi => createPlan_pair hlegal _ _ hi,
    fun a ha => createPlan_read8 s _ _ ha⟩
  have hrun := execPlanCreate_of_length c ((isPow2_iff _).mpr ⟨k, harg⟩) (harg.trans_le hle)
  rw [harg] at hrun
  rw [← Plan.ofLength_two_pow, ← createPlan_complete]
  exact hrun

/-- Settles O55: each round moves one bit, so the bits stand in reverse, and twice in reverse as before. -/
theorem bitReversalReversesBits : Obligations.BitReversalReversesBits := by
  unfold Obligations.BitReversalReversesBits
  exact ⟨bitrev_testBit, bitrev_bound, fun _ _ hi => bitrev_bitrev hi, by decide⟩

/-- Settles O56: `isPow2` accepts the powers of two, and those of 16 bits have an exponent up to 15. -/
theorem isPow2OnLengths : Obligations.IsPow2OnLengths := by
  unfold Obligations.IsPow2OnLengths
  intro x hx
  rw [isPow2_iff]
  constructor
  · rintro ⟨k, rfl⟩
    have hk : k < 16 := (Nat.pow_lt_pow_iff_right (by decide)).mp hx
    exact ⟨k, by omega, rfl⟩
  · rintro ⟨k, -, rfl⟩
    exact ⟨k, rfl⟩

/-- Settles O59: every run begins and ends inside its half unit, so every entry is the rounded cosine, which falls from
256 to 0. -/
theorem romFallsFromOneToZero : Obligations.RomFallsFromOneToZero := by
  unfold Obligations.RomFallsFromOneToZero
  have hfirst : romEntry 8 0 = 256 := romEntry_zero (by decide)
  have hlast : romEntry 8 8192 = 0 := romEntry_last (by decide)
  obtain ⟨h1024, h2048, h4096, h4658, h6144, h8191⟩ := romEntry_eight_spots
  refine ⟨romRuns_sum, fun m hm => romEntry_eight_anti (Nat.le_succ m) hm, fun m hm => ⟨?_, ?_⟩, hfirst,
    h1024, h2048, h4096, h4658, h6144, h8191, hlast, fun m hm => romEntry_eight_eq_round hm⟩
  · exact hlast ▸ romEntry_eight_anti hm le_rfl
  · exact hfirst ▸ romEntry_eight_anti m.zero_le hm

/-- Settles O60: a twiddle is a pair of ROM entries up to sign, as its cosine and sine are the cosines of these
entries. -/
theorem twiddlesAreSymmetric : Obligations.TwiddlesAreSymmetric := by
  unfold Obligations.TwiddlesAreSymmetric
  refine ⟨fun f e _ hf he1 he => ⟨twiddle_zero hf _, fun he2 => twiddle_quarter hf he2 he,
    fun k _ hk => twiddle_mirror hf he1 he hk.le⟩, fun e k he1 he hk => ?_, fun f e k _ hf he1 he hk => ?_⟩
  · obtain ⟨a, b, ha, hb, hre, him⟩ := twiddle_error 8 he1 he hk
    rw [round_eq_of_near (hre.trans_lt (romEntry_eight_near ha)),
      round_eq_of_near (him.trans_lt (romEntry_eight_near hb))]
  · obtain ⟨a, b, ha, hb, hre, him⟩ := twiddle_error f he1 he hk
    rw [abs_sub_comm, abs_sub_comm ((twiddle f (2 ^ e) k).2 : ℝ), hre, him]
    exact ⟨romEntry_near hf ha, romEntry_near hf hb⟩

/-- Settles O37: the check of VALID passes or fails, and nothing else of the state is asked for. -/
theorem planDestroyClearsThePlan : Obligations.PlanDestroyClearsThePlan := by
  unfold Obligations.PlanDestroyClearsThePlan
  exact fun c s => ⟨execPlanDestroy_of_valid, execPlanDestroy_of_invalid⟩

end

section
/-! The family of 43_butterfly.md: the counter and mask of the passes as the twiddle index of a pair, the model's passes
as the passes of the closed form, the loads as a gather, and what the four commands make of a ready context. -/

namespace Sys2Proof.Machine

open Sys2Proof Sys2Proof.Spec

/-! ## Engines of a plan -/

/-- What the plan of a context makes of an engine: a length that is a power of two and fits the buffers, and a mask for
half of it (10_state.md R51). -/
structure Engine.Planned (e : Engine) : Prop where
  len : e.len = 2 ^ e.steps
  room : e.len ≤ 32768
  mask : 0 < e.steps → e.mask = 2 ^ (e.steps - 1) - 1

theorem Plan.rmask_toNat {p : Plan} (h : 2 ≤ p.length.toNat) : p.rmask.toNat = p.length.toNat / 2 - 1 := by
  have hhalf : (p.length >>> 1).toNat = p.length.toNat / 2 := by
    rw [BitVec.toNat_ushiftRight, Nat.shiftRight_eq_div_pow, pow_one]
  have hone : (1 : BitVec 16) ≤ p.length >>> 1 := by
    rw [BitVec.le_def, hhalf]
    show 1 ≤ _
    omega
  rw [Plan.rmask, BitVec.toNat_sub_of_le hone, hhalf]
  rfl

theorem valid_of_ready {s : State} {c : Ctx} (h : Ready s c) : (s.plan c).valid = true := by
  obtain ⟨-, hvalid, -⟩ := h
  exact hvalid

theorem engine_planned {s : State} {c : Ctx} (h : Ready s c) (d : Direction) : (s.engine c d).Planned := by
  obtain ⟨hlegal, hvalid, hsound⟩ := h
  obtain ⟨hlen, hle⟩ := State.length_eq hsound hvalid
  refine ⟨hlen, hle.trans (Build.maxLen_le hlegal), fun hsteps => ?_⟩
  obtain ⟨k, hk⟩ : ∃ k, s.steps c = k + 1 := Nat.exists_eq_add_one.mpr hsteps
  have hlen : (s.plan c).length.toNat = 2 ^ k * 2 := by rw [← pow_succ, ← hk]; exact hlen
  have hpos : 0 < 2 ^ k := Nat.two_pow_pos k
  show (s.plan c).rmask.toNat = 2 ^ (s.steps c - 1) - 1
  rw [Plan.rmask_toNat (by omega), hlen, hk, Nat.mul_div_cancel _ two_pos, Nat.add_sub_cancel]

/-! ## The twiddle index -/

/-- The twiddle pair of pair (p, p + 2^step) in a pass, by its index (43_butterfly.md R213, R214). -/
def pairTwiddle (fracBits n : Nat) (inverse : Bool) (step p : Nat) : Int × Int :=
  let w := twiddle fracBits n (p % 2 ^ step * (n >>> (step + 1)))
  (w.1, if inverse then -w.2 else w.2)

/-- The mask removes the groups before a pair: what is left is the pair's place in its group, by the stride
(43_butterfly.md R213). -/
theorem Engine.Planned.and_mask {e : Engine} (he : e.Planned) {step : Nat} (hstep : step < e.steps) {m : Nat}
    (hm : m < 2 ^ step) (g : Nat) :
    (g * (2 ^ step * (e.len >>> (step + 1))) + m * (e.len >>> (step + 1))) &&& e.mask = m * (e.len >>> (step + 1)) := by
  obtain ⟨j, hj⟩ : ∃ j, e.steps = step + 1 + j := Nat.exists_eq_add_of_le hstep
  have hstride : e.len >>> (step + 1) = 2 ^ j := by
    rw [he.len, hj, pow_add, Nat.shiftRight_eq_div_pow, Nat.mul_div_cancel_left _ (Nat.two_pow_pos _)]
  have hhalf : e.steps - 1 = step + j := by omega
  have hlt : m * 2 ^ j < 2 ^ (step + j) := by
    rw [pow_add]
    exact Nat.mul_lt_mul_of_pos_right hm (Nat.two_pow_pos j)
  rw [hstride, he.mask (by omega), Nat.and_two_pow_sub_one_eq_mod, hhalf, ← pow_add, Nat.mul_add_mod_self_right,
    Nat.mod_eq_of_lt hlt]

theorem Engine.Planned.twiddleAt_counter {e : Engine} (he : e.Planned) {step : Nat} (hstep : step < e.steps) {p m : Nat}
    (hm : p % 2 ^ step = m) (g : Nat) :
    e.twiddleAt (g * (2 ^ step * (e.len >>> (step + 1))) + m * (e.len >>> (step + 1))) =
      pairTwiddle e.frac e.len e.inverse step p := by
  subst hm
  rw [Engine.twiddleAt, he.and_mask hstep (Nat.mod_lt _ (Nat.two_pow_pos step))]
  rfl

/-! ## The passes -/

/-- A pass of the closed form at the upper index of a pair (43_butterfly.md R211). -/
theorem onePass_of_upper (f n : Nat) (inv : Bool) (x : Nat → Word × Word) {step i : Nat}
    (h : i % (2 * 2 ^ step) < 2 ^ step) :
    onePass f n inv step x i = upper f (x i) (x (i + 2 ^ step)) (pairTwiddle f n inv step i) := by
  simp only [onePass, if_pos h, if_true]
  rfl

/-- A pass of the closed form at the lower index of a pair (43_butterfly.md R211). -/
theorem onePass_of_lower (f n : Nat) (inv : Bool) (x : Nat → Word × Word) {step i : Nat}
    (h : ¬i % (2 * 2 ^ step) < 2 ^ step) :
    onePass f n inv step x i = lower f (x (i - 2 ^ step)) (x i) (pairTwiddle f n inv step (i - 2 ^ step)) := by
  have hpos : 0 < 2 ^ step := Nat.two_pow_pos step
  have hle : 2 ^ step ≤ i := (not_lt.mp h).trans (Nat.mod_le _ _)
  have hne : i ≠ i - 2 ^ step := by omega
  simp only [onePass, if_neg h, if_neg hne, Nat.sub_add_cancel hle]
  rfl

/-- A pass of the model is a pass of the closed form: at either index of a pair the counter gives the
twiddle of R213. -/
theorem Engine.Planned.passValue_eq {e : Engine} (he : e.Planned) {step : Nat} (hstep : step < e.steps)
    (x : Nat → Word × Word) :
    passValue e (2 ^ step) (e.len >>> (step + 1)) x = onePass e.frac e.len e.inverse step x := by
  funext i
  have hmod : i % (2 * 2 ^ step) % 2 ^ step = i % 2 ^ step := Nat.mod_mul_left_mod i 2 (2 ^ step)
  unfold passValue
  split_ifs with h
  · rw [onePass_of_upper _ _ _ _ h, he.twiddleAt_counter hstep]
    rw [← hmod, Nat.mod_eq_of_lt h]
  · have hle : 2 ^ step ≤ i % (2 * 2 ^ step) := not_lt.mp h
    have hlt : i % (2 * 2 ^ step) < 2 * 2 ^ step := Nat.mod_lt _ (by positivity)
    rw [onePass_of_lower _ _ _ _ h, he.twiddleAt_counter hstep]
    rw [← Nat.mod_eq_sub_mod (hle.trans (Nat.mod_le _ _)), ← hmod, Nat.mod_eq_sub_mod hle, Nat.mod_eq_of_lt (by omega)]

/-- The remaining passes after the first k. -/
theorem Engine.Planned.passValues_eq {e : Engine} (he : e.Planned) (x : Nat → Word × Word) {j k : Nat}
    (hsteps : k + j = e.steps) :
    passValues e j (2 ^ k) (e.len >>> (k + 1)) (passesUpTo e.frac e.len e.inverse x k) =
      passesUpTo e.frac e.len e.inverse x e.steps := by
  induction j generalizing k with
  | zero => rw [← hsteps]; rfl
  | succ j ih =>
    rw [passValues, he.passValue_eq (by omega), ← Nat.pow_succ', ← Nat.shiftRight_add]
    exact ih (by omega)

/-- PASSES of the model are those of the closed form (43_butterfly.md R212-R215). -/
theorem Engine.Planned.passesValue_eq {e : Engine} (he : e.Planned) (x : Nat → Word × Word) :
    passesValue e x = transformed e.frac e.len e.steps e.inverse x := by
  have h := he.passValues_eq x (j := e.steps) (k := 0) (Nat.zero_add _)
  funext i
  rw [passesValue, transformed, ← h]
  rfl

theorem isInverse_eq_inverted (d : Direction) : isInverse d = inverted d := by cases d <;> rfl

theorem pair_passes_of_ready {s : State} {c : Ctx} (h : Ready s c) (d : Direction) (m : Memory) {i : Nat}
    (hi : i < s.length c) :
    (passes (s.engine c d) m).pair c i =
      transformed s.build.fracBits (s.length c) (s.steps c) (inverted d) (m.pair c) i := by
  have he := engine_planned h d
  rw [← isInverse_eq_inverted]
  exact (pair_passes _ he.len he.room m hi).trans (congrFun (he.passesValue_eq _) i)

/-- The closed form reads only elements below the length. -/
theorem transformed_congr {s : State} {c : Ctx} (h : Ready s c) (d : Direction) {x y : Nat → Word × Word}
    (hxy : ∀ j < s.length c, x j = y j) {i : Nat} (hi : i < s.length c) :
    transformed s.build.fracBits (s.length c) (s.steps c) (inverted d) x i =
      transformed s.build.fracBits (s.length c) (s.steps c) (inverted d) y i := by
  have he := engine_planned h d
  have := passesValue_congr _ he.len hxy hi
  rw [he.passesValue_eq, he.passesValue_eq] at this
  rwa [← isInverse_eq_inverted]

/-- A plan of length 1 has no pass, and its inverse shift is by 0 (43_butterfly.md R218). -/
theorem transformed_zero_steps (f n : Nat) (inv : Bool) (x : Nat → Word × Word) (i : Nat) :
    transformed f n 0 inv x i = x i := by
  cases inv
  · rfl
  · simp [transformed, passesUpTo]

/-! ## The loads -/

theorem scaleIn_zero (f : Nat) : scaleIn f 0 = 0 := by simp [scaleIn, s32]

/-- Stores to elements of a context leave every other buffer. -/
theorem Memory.Writes.get_of_ne {c : Ctx} {n : Nat} {m m' : Memory} (h : Memory.Writes (ctxElems c n) m m')
    (hn : n ≤ 32768) {b : Buf} {i : Nat} (hi : i < b.room) (hre : b ≠ .re c) (him : b ≠ .im c) :
    m'.get b i = m.get b i :=
  h.get (ctxElems_room hn) hi fun ⟨hb, _⟩ => hb.elim hre him

/-- A load leaves the gathered samples: the inputs are no buffer of a context (43_butterfly.md R203). -/
theorem pair_loadInputs {s : State} {c : Ctx} (h : Ready s c) (d : Direction) (k : InputKind) {i : Nat}
    (hi : i < s.length c) : (loadInputs (s.engine c d) k s.mem).pair c i = loaded s k (s.steps c) i := by
  have he := engine_planned h d
  have hindex (j : Nat) : bitrev j (s.steps c) < 32768 := (bitrev_bound j (s.steps c)).trans_le (he.len ▸ he.room)
  refine (pair_loadSamples (s.engine c d) he.room _ _ s.mem
    (fun m' hw j _ => hw.get_of_ne he.room (b := .inRe) (hindex j) nofun nofun) ?_ hi).trans ?_
  · cases k
    · exact fun _ _ _ _ => rfl
    · exact fun m' hw j _ => hw.get_of_ne he.room (b := .inIm) (hindex j) nofun nofun
  · cases k
    · exact congrArg (Prod.mk _) (scaleIn_zero _)
    · rfl

/-! ## The commands on a valid context -/

/-- The load command of an input kind (43_butterfly.md R201, R202). -/
def loadCommand (c : HostCtx) : InputKind → Instr
  | .real => .loadReal c
  | .complex => .loadCplx c

theorem exec_loadCommand_of_valid {c : HostCtx} {s : State} (h : (s.plan (ctxOf c)).valid = true) (k : InputKind) :
    exec (loadCommand c k) s = commit (s.withMem (loadInputs (s.engine (ctxOf c) .forward) k s.mem)) := by
  cases k
  · simp [loadCommand, exec, execLoadReal, h]
  · simp [loadCommand, exec, execLoadCplx, h]

theorem exec_loadCommand_of_invalid {c : HostCtx} {s : State} (h : (s.plan (ctxOf c)).valid = false) (k : InputKind) :
    exec (loadCommand c k) s = raiseCmdError .noPlan s := by
  cases k
  · simp [loadCommand, exec, execLoadReal, h]
  · simp [loadCommand, exec, execLoadCplx, h]

theorem execRun_of_valid {c : HostCtx} {s : State} (h : (s.plan (ctxOf c)).valid = true) (d : Direction) :
    execRun c d s = commit (s.withMem (passes (s.engine (ctxOf c) d) s.mem)) := by
  simp [execRun, h]

theorem execRun_of_invalid {c : HostCtx} {s : State} (h : (s.plan (ctxOf c)).valid = false) (d : Direction) :
    execRun c d s = raiseCmdError .noPlan s := by
  simp [execRun, h]

theorem execTransform_of_valid {c : HostCtx} {s : State} (h : (s.plan (ctxOf c)).valid = true) (d : Direction)
    (k : InputKind) :
    execTransform c d k s =
      commit (s.withMem (passes (s.engine (ctxOf c) d) (loadInputs (s.engine (ctxOf c) d) k s.mem))) := by
  simp [execTransform, h]

theorem execTransform_of_invalid {c : HostCtx} {s : State} (h : (s.plan (ctxOf c)).valid = false) (d : Direction)
    (k : InputKind) : execTransform c d k s = raiseCmdError .noPlan s := by
  simp [execTransform, h]

theorem commit_withMem (s : State) (m : Memory) :
    commit (s.withMem m) = .next { s with mem := m, busy := false, done := true, err := .ok } := rfl

/-- Stores to the first n elements of a context leave every other byte. -/
theorem Memory.Writes.read8_of_not_hasByte {c : Ctx} {n : Nat} {m m' : Memory} (h : Memory.Writes (ctxElems c n) m m')
    {a : Nat} (ha : ¬c.HasByte n a) : m'.read8 a = m.read8 a := by
  simp only [Ctx.HasByte, Buf.HasByte, Buf.addr, not_or, not_and_or, not_le, not_lt] at ha
  refine h.read8 a fun b i hb => ?_
  unfold Buf.addr
  obtain ⟨rfl | rfl, hi⟩ := hb <;> omega

theorem engine_withMem_complete (s : State) (m : Memory) (code : ErrCode) (c : Ctx) (d : Direction) :
    ((s.withMem m).complete code).engine c d = s.engine c d := by
  cases c <;> rfl

/-- RUN from the state that a load answers (43_butterfly.md R216). -/
theorem execRun_after_load {c : HostCtx} {k : InputKind} {s t : State} (d : Direction)
    (h : exec (loadCommand c k) s = .next t) : execRun c d t = execTransform c d k s := by
  cases hvalid : (s.plan (ctxOf c)).valid with
  | false =>
    rw [exec_loadCommand_of_invalid hvalid] at h
    obtain rfl := next_inj h
    rw [execTransform_of_invalid hvalid, execRun_of_invalid (by rwa [State.complete_plan])]
    rfl
  | true =>
    rw [exec_loadCommand_of_valid hvalid] at h
    obtain rfl := next_inj h
    rw [execTransform_of_valid hvalid, execRun_of_valid (by rwa [State.complete_plan, State.withMem_plan]),
      engine_withMem_complete]
    rfl

end Sys2Proof.Machine

open Sys2Proof Sys2Proof.Machine Sys2Proof.Spec

/-! ## The obligations -/

/-- Settles O38: each load gathers from the inputs, which it does not store to. -/
theorem loadsGatherBitReversed : Obligations.LoadsGatherBitReversed := by
  unfold Obligations.LoadsGatherBitReversed
  intro c s h e he
  obtain ⟨k, rfl⟩ : ∃ k, e = (loadCommand c k, k) := by
    rcases List.mem_pair.mp he with rfl | rfl
    · exact ⟨.real, rfl⟩
    · exact ⟨.complex, rfl⟩
  exact ⟨_, (exec_loadCommand_of_valid (valid_of_ready h) k).trans (commit_withMem s _),
    fun i hi => pair_loadInputs h .forward k hi,
    fun a => (loadInputs_writes s (ctxOf c) .forward k s.mem).read8_of_not_hasByte⟩

/-- Settles O39: the counter under the mask is the twiddle index of R213, so each pass is that of the closed form. -/
theorem runComputesThePasses : Obligations.RunComputesThePasses := by
  unfold Obligations.RunComputesThePasses
  intro c d s h
  exact ⟨_, (execRun_of_valid (valid_of_ready h) d).trans (commit_withMem s _),
    fun i hi => pair_passes_of_ready h d s.mem hi,
    fun a => (passes_writes _ (engine_planned h d).len s.mem).read8_of_not_hasByte⟩

/-- Settles O40: the passes read only the elements that the load has stored. -/
theorem transformComputesThePassesOfTheSamples : Obligations.TransformComputesThePassesOfTheSamples := by
  unfold Obligations.TransformComputesThePassesOfTheSamples
  intro c d k s h
  refine ⟨_, (execTransform_of_valid (valid_of_ready h) d k).trans (commit_withMem s _), fun i hi => ?_, fun a => ?_⟩
  · rw [pair_passes_of_ready h d _ hi]
    exact transformed_congr h d (fun j hj => pair_loadInputs h d k hj) hi
  · have hload := loadInputs_writes s (ctxOf c) d k s.mem
    exact (hload.trans (passes_writes _ (engine_planned h d).len _)).read8_of_not_hasByte

/-- Settles O41: a load leaves the plan and the build, so RUN sets up the engine that TRANSFORM does; with no plan all
of them raise NO_PLAN. -/
theorem transformIsLoadThenRun : Obligations.TransformIsLoadThenRun := by
  unfold Obligations.TransformIsLoadThenRun
  exact fun c d s t => ⟨execRun_after_load (k := .real) d, execRun_after_load (k := .complex) d⟩

/-- Settles O42: O40 with STEPS = 0, where the closed form is the identity. -/
theorem lengthOneTransformStoresTheSample : Obligations.LengthOneTransformStoresTheSample := by
  unfold Obligations.LengthOneTransformStoresTheSample
  intro c d k s h hone
  have hsteps : s.steps (ctxOf c) = 0 := by
    have hlen := (engine_planned h d).len.symm.trans hone
    exact (Nat.pow_eq_one.mp hlen).resolve_left (by decide)
  obtain ⟨m', hexec, hvalue, hframe⟩ := transformComputesThePassesOfTheSamples c d k s h
  rw [hone] at hvalue hframe
  refine ⟨m', hexec, ?_, hframe⟩
  rw [hvalue 0 one_pos, hsteps, transformed_zero_steps]

end

section
/-! The family of 44_isqrt.md: the iterations of the square root as the search for the floor of the root, and the
commands that leave it in RES0. -/

namespace Sys2Proof.Machine

open Sys2Proof Sys2Proof.Spec

/-! ## The iterations -/

/-- An iteration that sets result bit n: the root grows by 2^n, and with it the doubled root by 2^(n+1) (R241). -/
theorem isqrtLoop_succ_of_le {n root r : Nat} (h : (root + 2 ^ n) * 2 ^ n ≤ r) :
    isqrtLoop (n + 1) root r = isqrtLoop n (root ||| 2 ^ (n + 1)) (r - (root + 2 ^ n) * 2 ^ n) := by
  simp only [isqrtLoop, Nat.shiftLeft_eq, one_mul, ← Nat.pow_succ', ge_iff_le, if_pos h]

/-- An iteration that leaves result bit n clear (R241). -/
theorem isqrtLoop_succ_of_lt {n root r : Nat} (h : r < (root + 2 ^ n) * 2 ^ n) :
    isqrtLoop (n + 1) root r = isqrtLoop n root r := by
  simp only [isqrtLoop, Nat.shiftLeft_eq, one_mul, ge_iff_le, if_neg (not_le.mpr h)]

/-- Setting result bit n of a root whose set bits are all above it: the doubled root has bit n + 1 clear. -/
theorem doubledRoot_or_bit (q n : Nat) : 2 * (2 * q * 2 ^ n) ||| 2 ^ (n + 1) = 2 * ((2 * q + 1) * 2 ^ n) := by
  have hbit : 2 ^ (n + 1) < 2 ^ (n + 2) := Nat.pow_lt_pow_right one_lt_two (Nat.lt_succ_self _)
  calc 2 * (2 * q * 2 ^ n) ||| 2 ^ (n + 1) = 2 ^ (n + 2) * q ||| 2 ^ (n + 1) := by congr 1; ring
    _ = 2 ^ (n + 2) * q + 2 ^ (n + 1) := (Nat.two_pow_add_eq_or_of_lt hbit q).symm
    _ = 2 * ((2 * q + 1) * 2 ^ n) := by ring

/-- The invariant of R242: with root q·2^n and residual r before bit n - 1, the argument is (q·2^n)² + r, and it is
below the square of (q + 1)·2^n. Then the remaining iterations end at the doubled floor of the argument's root. -/
theorem isqrtLoop_eq_two_mul_sqrt {n q r : Nat} (h : (q * 2 ^ n) ^ 2 + r < ((q + 1) * 2 ^ n) ^ 2) :
    isqrtLoop n (2 * (q * 2 ^ n)) r = 2 * ((q * 2 ^ n) ^ 2 + r).sqrt := by
  induction n generalizing q r with
  | zero =>
    rw [pow_zero, mul_one, mul_one] at h
    rw [pow_zero, mul_one, Nat.sqrt_add_eq' q (by linarith)]
    rfl
  | succ n ih =>
    have hroot : q * 2 ^ (n + 1) = 2 * q * 2 ^ n := by ring
    have hnext : (q + 1) * 2 ^ (n + 1) = (2 * q + 1 + 1) * 2 ^ n := by ring
    have hsquare : (2 * q * 2 ^ n) ^ 2 + (2 * (2 * q * 2 ^ n) + 2 ^ n) * 2 ^ n = ((2 * q + 1) * 2 ^ n) ^ 2 := by ring
    rw [hroot, hnext] at h
    rw [hroot]
    rcases le_or_gt ((2 * (2 * q * 2 ^ n) + 2 ^ n) * 2 ^ n) r with hle | hlt
    · obtain ⟨r, rfl⟩ := Nat.exists_eq_add_of_le hle
      rw [← Nat.add_assoc, hsquare] at h ⊢
      rw [isqrtLoop_succ_of_le hle, doubledRoot_or_bit, Nat.add_sub_cancel_left, ih h]
    · rw [isqrtLoop_succ_of_lt hlt]
      exact ih (hsquare ▸ Nat.add_lt_add_left hlt _)

/-- Sixteen iterations from root 0 search below 2^16, which is enough for a 32-bit argument (R242). -/
theorem isqrt_eq_sqrt {x : Nat} (hx : x < 2 ^ 32) : isqrt x = x.sqrt := by
  have hloop : isqrtLoop 16 0 x = 2 * x.sqrt := by
    simpa using isqrtLoop_eq_two_mul_sqrt (n := 16) (q := 0) (r := x) (by simpa using hx)
  rw [isqrt, hloop, Nat.shiftRight_one, Nat.mul_div_cancel_left _ two_pos]

/-! ## The result words -/

theorem zext16_of_lt {v : Nat} (hv : v < 2 ^ 16) : zext16 v = BitVec.ofNat 32 v := by
  apply BitVec.eq_of_toNat_eq
  simp only [zext16, BitVec.toNat_setWidth, BitVec.toNat_ofNat, Nat.mod_eq_of_lt hv]

/-- The root of a word fits the 16 bits that the result register takes of it (R240). -/
theorem zext16_isqrt (w : Word) : zext16 (isqrt w.toNat) = BitVec.ofNat 32 w.toNat.sqrt := by
  have hroot : w.toNat.sqrt < 2 ^ 16 := Nat.sqrt_lt'.mpr w.isLt
  rw [isqrt_eq_sqrt w.isLt, zext16_of_lt hroot]

theorem magnitude_eq_rootOfSquares (a b : Int) : magnitude a b = rootOfSquares a b := by
  rw [magnitude, zext16_isqrt, s32, BitVec.toNat_ofInt]
  rfl

theorem State.magnitudeAt_eq (s : State) (c : Ctx) (shift : Nat) :
    s.magnitudeAt c shift = rootOfSquares ((s.get (.re c) s.lArg0.toNat).toInt / 2 ^ shift)
      ((s.get (.im c) s.lArg0.toNat).toInt / 2 ^ shift) :=
  magnitude_eq_rootOfSquares _ _

/-! ## The commands -/

theorem execMag_of_index {c : HostCtx} {s : State} (hvalid : (s.plan (ctxOf c)).valid = true)
    (hindex : s.indexArg < s.length (ctxOf c)) :
    execMag c s = commit (s.withResults (s.magnitudeAt (ctxOf c) s.build.fracBits) 0) := by
  simp only [execMag, hvalid, Bool.not_true, Bool.false_eq_true, if_false, if_neg (not_le.mpr hindex)]

theorem execNmag_of_index {c : HostCtx} {s : State} (hvalid : (s.plan (ctxOf c)).valid = true)
    (hindex : s.indexArg < s.length (ctxOf c)) :
    execNmag c s = commit (s.withResults (s.magnitudeAt (ctxOf c) (s.steps (ctxOf c) + s.build.fracBits)) 0) := by
  simp only [execNmag, hvalid, Bool.not_true, Bool.false_eq_true, if_false, if_neg (not_le.mpr hindex)]

theorem commit_withResults (s : State) (r0 r1 : Word) :
    commit (s.withResults r0 r1) = .next { s with res0 := r0, res1 := r1, busy := false, done := true, err := .ok } :=
  rfl

end Sys2Proof.Machine

open Sys2Proof Sys2Proof.Machine Sys2Proof.Spec

/-! ## The obligations -/

/-- Settles O45, by the invariant that the argument lies between the squares of the root so far and of its successor. -/
theorem iterationsGiveTheFloorOfTheRoot : Obligations.IterationsGiveTheFloorOfTheRoot := by
  unfold Obligations.IterationsGiveTheFloorOfTheRoot
  exact fun _ => isqrt_eq_sqrt

/-- Settles O46: the root of a 32-bit argument fits the result word. -/
theorem isqrtCommandGivesTheRoot : Obligations.IsqrtCommandGivesTheRoot := by
  unfold Obligations.IsqrtCommandGivesTheRoot
  intro s
  rw [← zext16_isqrt]
  exact commit_withResults s _ 0

/-- Settles O44: with both checks passed each command commits the root of the shifted parts, whose sum of squares is a
32-bit argument. -/
theorem magnitudesAreRootsOfSquares : Obligations.MagnitudesAreRootsOfSquares := by
  unfold Obligations.MagnitudesAreRootsOfSquares
  intro c s hvalid hindex e he
  rw [← State.magnitudeAt_eq]
  rcases List.mem_pair.mp he with rfl | rfl
  · exact (execMag_of_index hvalid hindex).trans (commit_withResults s _ 0)
  · exact (execNmag_of_index hvalid hindex).trans (commit_withResults s _ 0)

end

section
/-! The family of 45_transform2d.md: the 2D plan made and cleared, the row and the column pass as loops whose turns
store to places of their own, and the read-out of the result. -/

namespace Sys2Proof.Machine

open Sys2Proof Sys2Proof.Spec

/-! ## The 2D plan -/

theorem State.rowsArg_eq (s : State) : s.rowsArg = s.lArg0.toNat % 2 ^ 16 := by
  simp [State.rowsArg, lengthOperand]

theorem State.colsArg_eq (s : State) : s.colsArg = s.lArg1.toNat % 2 ^ 16 := by
  simp [State.colsArg, lengthOperand]

/-- The data memories of a list zeroed whole, one after the other. -/
def Memory.zeroAll (bd : Build) (bs : List Buf) (m : Memory) : Memory :=
  bs.foldl (fun m b => m.zero b (b.count bd)) m

theorem Memory.get_zeroAll {bd : Build} (h : bd.legal = true) (bs : List Buf) (m : Memory) {b : Buf} {i : Nat}
    (hi : i < b.count bd) : (m.zeroAll bd bs).get b i = if b ∈ bs then 0 else m.get b i := by
  induction bs generalizing m with
  | nil => rfl
  | cons d bs ih =>
    have hzero := Memory.get_zero m (Buf.count_le_room h d) (hi.trans_le (Buf.count_le_room h b))
    rw [Memory.zeroAll, List.foldl_cons, ← Memory.zeroAll, ih, hzero]
    by_cases hd : d = b
    · subst hd; simp [hi]
    · simp [hd, Ne.symm hd]

theorem Memory.read8_zeroAll {bd : Build} {bs : List Buf} (m : Memory) {a : Nat}
    (ha : ∀ b ∈ bs, ¬b.HasByte (b.count bd) a) : (m.zeroAll bd bs).read8 a = m.read8 a := by
  induction bs generalizing m with
  | nil => rfl
  | cons d bs ih =>
    rw [List.forall_mem_cons] at ha
    obtain ⟨hd, hbs⟩ := ha
    have hout : a < d.addr 0 ∨ d.addr (d.count bd) ≤ a := by rwa [Buf.HasByte, not_and_or, not_le, not_lt] at hd
    rw [Memory.zeroAll, List.foldl_cons, ← Memory.zeroAll, ih _ hbs, Memory.read8_zero_of_outside _ _ _ _ hout]

/-- The data memories that belong to the 2D plan (45_transform2d.md R263). -/
def plan2dBufs : List Buf := [.re .row, .im .row, .re .col, .im .col, .trRe, .trIm, .mrRe, .mrIm]

theorem createPlan2d_mem (s : State) (rows cols : Nat) :
    (s.createPlan2d rows cols).mem = s.mem.zeroAll s.build plan2dBufs := by
  simp [State.createPlan2d, createPlan_mem, Memory.zeroAll, plan2dBufs, Buf.count]

/-- A completed PLAN2D_CREATE has written the fields of R and C, V2D, the memory and the completion fields
(45_transform2d.md R261). -/
theorem createPlan2d_complete (s : State) (rows cols : Nat) :
    (s.createPlan2d rows cols).complete .ok = { s with
      planR := Plan.ofLength cols, planC := Plan.ofLength rows, v2d := true
      mem := s.mem.zeroAll s.build plan2dBufs, busy := false, done := true, err := .ok } := by
  rw [← createPlan2d_mem s rows cols]
  simp only [State.complete, State.createPlan2d, State.createPlan, State.setPlan, State.withMem]

theorem not_hasByte_of_not_create2dByte {bd : Build} {a : Nat} (h : ¬Create2dByte bd a) :
    ∀ b ∈ plan2dBufs, ¬b.HasByte (b.count bd) a := by
  simp only [Create2dByte, Ctx.HasByte, not_or, and_assoc] at h
  simpa [plan2dBufs, Buf.count] using h

theorem execPlan2dCreate_of_dims {s : State} (hr : isPow2 s.rowsArg = true) (hc : isPow2 s.colsArg = true)
    (hrmax : s.rowsArg ≤ s.build.maxLen) (hcmax : s.colsArg ≤ s.build.maxLen)
    (hmat : s.rowsArg * s.colsArg ≤ s.build.matMax) :
    execPlan2dCreate s = commit (s.createPlan2d s.rowsArg s.colsArg) := by
  simp only [execPlan2dCreate, hr, hc, Bool.not_true, Bool.false_eq_true, if_false, gt_iff_lt,
    not_lt.mpr hrmax, not_lt.mpr hcmax, or_self, if_neg (not_lt.mpr hmat)]

theorem execPlan2dDestroy_of_v2d {s : State} (h : s.v2d = true) :
    execPlan2dDestroy s = commit { (s.setPlan .row .none).setPlan .col .none with v2d := false } := by
  simp [execPlan2dDestroy, h]

theorem execPlan2dDestroy_of_no_v2d {s : State} (h : s.v2d = false) :
    execPlan2dDestroy s = raiseCmdError .noPlan s := by
  simp [execPlan2dDestroy, h]

/-! ## Pairs of words -/

/-- Entry x of a pair of data memories, one for the real and one for the imaginary words. -/
def Memory.entry (m : Memory) (re im : Buf) (x : Nat) : Word × Word := (m.get re x, m.get im x)

/-- Entries outside the stored elements are as before. -/
theorem Memory.Writes.entry {P : Buf → Nat → Prop} {m m' : Memory} (h : Memory.Writes P m m')
    (hroom : ∀ b x, P b x → x < b.room) {re im : Buf} {x : Nat} (hre : x < re.room) (him : x < im.room)
    (hnre : ¬P re x) (hnim : ¬P im x) : m'.entry re im x = m.entry re im x := by
  rw [Memory.entry, h.get hroom hre hnre, h.get hroom him hnim, Memory.entry]

/-- A loop whose turn k stores elements of `P k`: an entry that no turn after i stores is as turn i left it. -/
theorem Memory.entry_foldl_of_last {P : Nat → Buf → Nat → Prop} (f : Memory → Nat → Memory) {n i : Nat}
    (hf : ∀ k < n, ∀ m, Memory.Writes (P k) m (f m k)) (hroom : ∀ k < n, ∀ b x, P k b x → x < b.room) (m : Memory)
    (hi : i < n) {re im : Buf} {x : Nat} (hre : x < re.room) (him : x < im.room)
    (hlast : ∀ k < n, i < k → ¬P k re x ∧ ¬P k im x) :
    ((List.range n).foldl f m).entry re im x = (f ((List.range i).foldl f m) i).entry re im x := by
  induction n with
  | zero => exact absurd hi (Nat.not_lt_zero i)
  | succ n ih =>
    have hn : n < n + 1 := Nat.lt_succ_self n
    rw [List.range_succ, List.foldl_append, List.foldl_cons, List.foldl_nil]
    rcases Nat.lt_succ_iff_lt_or_eq.mp hi with hin | rfl
    · obtain ⟨hnre, hnim⟩ := hlast n hn hin
      rw [(hf n hn _).entry (hroom n hn) hre him hnre hnim]
      exact ih (fun k hk => hf k (hk.trans hn)) (fun k hk => hroom k (hk.trans hn)) hin
        fun k hk => hlast k (hk.trans hn)
    · rfl

/-- A matrix is its entries: every index below height · width is that of an entry. -/
theorem exists_entry_index {width height x : Nat} (hx : x < height * width) :
    ∃ j < height, ∃ i < width, x = j * width + i := by
  have hw : 0 < width := Nat.pos_of_mul_pos_left (Nat.zero_lt_of_lt hx)
  exact ⟨x / width, (Nat.div_lt_iff_lt_mul hw).mpr hx, x % width, Nat.mod_lt _ hw, (Nat.div_add_mod' x width).symm⟩

/-! ## The state before the transform -/

theorem ready_row_of_ready2d {s : State} (h : Ready2d s) : Ready s .row := by
  obtain ⟨hlegal, hv, hrow, -, h2⟩ := h
  rw [State.Sound2d, if_pos hv] at h2
  exact ⟨hlegal, h2.1, hrow⟩

theorem ready_col_of_ready2d {s : State} (h : Ready2d s) : Ready s .col := by
  obtain ⟨hlegal, hv, -, hcol, h2⟩ := h
  rw [State.Sound2d, if_pos hv] at h2
  exact ⟨hlegal, h2.2.1, hcol⟩

/-- The matrices of the plan fit the matrix memories, whatever the build. -/
theorem cols_mul_rows_le_of_ready2d {s : State} (h : Ready2d s) : s.cols * s.rows ≤ 4194304 := by
  obtain ⟨hlegal, hv, -, -, h2⟩ := h
  rw [State.Sound2d, if_pos hv] at h2
  exact h2.2.2.trans (Build.matMax_le hlegal)

theorem rows_mul_cols_le_of_ready2d {s : State} (h : Ready2d s) : s.rows * s.cols ≤ 4194304 :=
  (Nat.mul_comm s.rows s.cols).trans_le (cols_mul_rows_le_of_ready2d h)

theorem cols_pos_of_ready2d {s : State} (h : Ready2d s) : 0 < s.cols :=
  (Nat.two_pow_pos _).trans_eq (engine_planned (ready_row_of_ready2d h) .forward).len.symm

theorem bitrev_inj {i k b : Nat} (hi : i < 2 ^ b) (hk : k < 2 ^ b) (h : bitrev i b = bitrev k b) : i = k := by
  rw [← bitrev_bitrev hi, h, bitrev_bitrev hk]

theorem stridedElems_room {re im : Buf} {n width x : Nat} (hx : x < width) (hre : n * width ≤ re.room)
    (him : n * width ≤ im.room) (b : Buf) (i : Nat) (h : stridedElems re im n width x b i) : i < b.room := by
  obtain ⟨hb, j, hj, rfl⟩ := h
  rcases hb with rfl | rfl
  · exact (index_lt hj hx).trans_le hre
  · exact (index_lt hj hx).trans_le him

/-- A row stores to its own column of TR only. -/
theorem rowElems_tr {c : Ctx} {rows cols x x' j : Nat} {b : Buf} (hb : b = .trRe ∨ b = .trIm) (hx : x < rows)
    (hx' : x' < rows) (h : rowElems c rows cols x b (j * rows + x')) : x' = x := by
  rcases h with ⟨hc, -⟩ | ⟨-, j', -, hj⟩
  · rcases hb with rfl | rfl <;> exact hc.elim nofun nofun
  · exact (index_inj hx' hx hj).2

/-- A column stores to its own column of MR only. -/
theorem colElems_mr {c : Ctx} {rows cols x x' j : Nat} {b : Buf} (hb : b = .mrRe ∨ b = .mrIm) (hx : x < cols)
    (hx' : x' < cols) (h : colElems c rows cols x b (j * cols + x')) : x' = x := by
  rcases h with ⟨hc, -⟩ | ⟨-, j', -, hj⟩
  · rcases hb with rfl | rfl <;> exact hc.elim nofun nofun
  · exact (index_inj hx' hx hj).2

/-! ## The row pass -/

/-- The memory after the first k rows (45_transform2d.md R271, R272). -/
def State.afterRows (s : State) (d : Direction) (k : Nat) : Memory :=
  (List.range k).foldl (rowPass (s.engine .row d) s.rows (s.steps .col)) s.mem

/-- The memory after every row and the first k columns (45_transform2d.md R273, R274). -/
def State.afterCols (s : State) (d : Direction) (k : Nat) : Memory :=
  (List.range k).foldl (colPass (s.engine .col d) s.cols) (s.afterRows d s.rows)

theorem transform2d_eq_afterCols (s : State) (d : Direction) : s.transform2d d = s.afterCols d s.cols := rfl

section

variable {s : State} (h : Ready2d s) (d : Direction)

include h

/-- The place to which a row is scattered lies within each row of TR (45_transform2d.md R272). -/
theorem bitrev_lt_rows (i : Nat) : bitrev i (s.steps .col) < s.rows :=
  (bitrev_bound i _).trans_eq (engine_planned (ready_col_of_ready2d h) .forward).len.symm

theorem rowPass_writes_of_ready2d (m : Memory) (i : Nat) :
    Memory.Writes (rowElems .row s.rows s.cols (bitrev i (s.steps .col))) m
      (rowPass (s.engine .row d) s.rows (s.steps .col) m i) :=
  rowPass_writes (s.engine .row d) _ _ (engine_planned (ready_row_of_ready2d h) d).len m i

theorem rowElems_room_of_ready2d (i : Nat) (b : Buf) (x : Nat)
    (hx : rowElems .row s.rows s.cols (bitrev i (s.steps .col)) b x) : x < b.room :=
  hx.elim (ctxElems_room (engine_planned (ready_row_of_ready2d h) .forward).room b x)
    (stridedElems_room (bitrev_lt_rows h i) (cols_mul_rows_le_of_ready2d h) (cols_mul_rows_le_of_ready2d h) b x)

theorem afterRows_matIn (k : Nat) {x : Nat} (hx : x < 4194304) : (s.afterRows d k).get .matIn x = s.get .matIn x := by
  have hw : Memory.Writes (fun b x => ∃ i, rowElems .row s.rows s.cols (bitrev i (s.steps .col)) b x) s.mem
      (s.afterRows d k) :=
    Memory.Writes.foldl _ _ (fun i _ m => (rowPass_writes_of_ready2d h d m i).mono fun _ _ hb => ⟨i, hb⟩) _
  refine hw.get (fun b x ⟨i, hb⟩ => rowElems_room_of_ready2d h i b x hb) (b := .matIn) hx ?_
  rintro ⟨i, ⟨hb | hb, -⟩ | ⟨hb | hb, -⟩⟩ <;> cases hb

/-- A row leaves its transform in its column of TR and in R, if MAT_IN is as it was. -/
theorem rowPass_entries {m : Memory} (hm : ∀ x < 4194304, m.get .matIn x = s.get .matIn x) {i j : Nat} (hi : i < s.rows)
    (hj : j < s.cols) :
    (rowPass (s.engine .row d) s.rows (s.steps .col) m i).entry .trRe .trIm (j * s.rows + bitrev i (s.steps .col)) =
        rowTransform s d i j ∧
      (rowPass (s.engine .row d) s.rows (s.steps .col) m i).pair .row j = rowTransform s d i j := by
  have hready := ready_row_of_ready2d h
  have he := engine_planned hready d
  have hsamples : ∀ k < s.cols, rowSamples (s.engine .row d) m i k =
      (scaled s.build.fracBits (s.get .matIn (i * s.cols + bitrev k (s.steps .row))), 0) := fun k _ => by
    have hk : bitrev k (s.steps .row) < s.cols := (bitrev_bound k _).trans_eq he.len.symm
    have hidx : i * s.cols + bitrev k (s.steps .row) < 4194304 :=
      (index_lt hi hk).trans_le (rows_mul_cols_le_of_ready2d h)
    exact Prod.ext (congrArg (scaleIn s.build.fracBits) (hm _ hidx)) (scaleIn_zero _)
  have hvalue : passesValue (s.engine .row d) (rowSamples (s.engine .row d) m i) j = rowTransform s d i j := by
    refine Eq.trans ?_ (transformed_congr hready d hsamples hj)
    rw [he.passesValue_eq, ← isInverse_eq_inverted]
    rfl
  rw [← hvalue]
  exact rowPass_values (s.engine .row d) s.rows (s.steps .col) he.len he.room
    (engine_planned (ready_col_of_ready2d h) d).len (cols_mul_rows_le_of_ready2d h) m i hi hj

/-- TR after the row pass (45_transform2d.md R272). -/
theorem afterRows_tr {i j : Nat} (hi : i < s.rows) (hj : j < s.cols) :
    (s.afterRows d s.rows).entry .trRe .trIm (j * s.rows + bitrev i (s.steps .col)) = rowTransform s d i j := by
  have hx : j * s.rows + bitrev i (s.steps .col) < 4194304 :=
    (index_lt hj (bitrev_lt_rows h i)).trans_le (cols_mul_rows_le_of_ready2d h)
  have hrows := (engine_planned (ready_col_of_ready2d h) d).len
  have hlater (k : Nat) (hk : k < s.rows) (hik : i < k) (b : Buf) (hb : b = .trRe ∨ b = .trIm) :
      ¬rowElems .row s.rows s.cols (bitrev k (s.steps .col)) b (j * s.rows + bitrev i (s.steps .col)) := fun hmem =>
    hik.ne (bitrev_inj (hi.trans_eq hrows) (hk.trans_eq hrows)
      (rowElems_tr hb (bitrev_lt_rows h k) (bitrev_lt_rows h i) hmem))
  refine (Memory.entry_foldl_of_last _ (fun k _ m => rowPass_writes_of_ready2d h d m k)
    (fun k _ => rowElems_room_of_ready2d h k) s.mem hi (re := .trRe) (im := .trIm) hx hx
    fun k hk hik => ⟨hlater k hk hik _ (.inl rfl), hlater k hk hik _ (.inr rfl)⟩).trans ?_
  exact (rowPass_entries h d (fun _ => afterRows_matIn h d i) hi hj).1

/-- R after the row pass holds the last row (45_transform2d.md R275). -/
theorem afterRows_pair {j : Nat} (hj : j < s.cols) :
    (s.afterRows d s.rows).pair .row j = rowTransform s d (s.rows - 1) j := by
  have hlast : s.rows - 1 < s.rows := Nat.sub_one_lt (bitrev_lt_rows h 0).pos.ne'
  have hx : j < 32768 := hj.trans_le (engine_planned (ready_row_of_ready2d h) d).room
  refine (Memory.entry_foldl_of_last _ (fun k _ m => rowPass_writes_of_ready2d h d m k)
    (fun k _ => rowElems_room_of_ready2d h k) s.mem hlast (re := .re .row) (im := .im .row) hx hx
    fun k hk hik => by omega).trans ?_
  exact (rowPass_entries h d (fun _ => afterRows_matIn h d _) hlast hj).2

/-! ## The column pass -/

theorem colPass_writes_of_ready2d (m : Memory) (i : Nat) :
    Memory.Writes (colElems .col s.rows s.cols i) m (colPass (s.engine .col d) s.cols m i) :=
  colPass_writes (s.engine .col d) s.cols (engine_planned (ready_col_of_ready2d h) d).len m i

theorem colElems_room_of_ready2d {i : Nat} (hi : i < s.cols) (b : Buf) (x : Nat)
    (hx : colElems .col s.rows s.cols i b x) : x < b.room :=
  hx.elim (ctxElems_room (engine_planned (ready_col_of_ready2d h) .forward).room b x)
    (stridedElems_room hi (rows_mul_cols_le_of_ready2d h) (rows_mul_cols_le_of_ready2d h) b x)

/-- The column pass leaves every buffer but MR and those of C. -/
theorem afterCols_entry {k : Nat} (hk : k ≤ s.cols) {re im : Buf} {x : Nat} (hre : x < re.room) (him : x < im.room)
    (hnre : re ∉ [Buf.re .col, .im .col, .mrRe, .mrIm]) (hnim : im ∉ [Buf.re .col, .im .col, .mrRe, .mrIm]) :
    (s.afterCols d k).entry re im x = (s.afterRows d s.rows).entry re im x := by
  have hw : Memory.Writes (fun b x => ∃ i < s.cols, colElems .col s.rows s.cols i b x) (s.afterRows d s.rows)
      (s.afterCols d k) :=
    Memory.Writes.foldl _ _ (fun i hi m => (colPass_writes_of_ready2d h d m i).mono fun _ _ hb =>
      ⟨i, (List.mem_range.mp hi).trans_le hk, hb⟩) _
  have hout : ∀ b ∉ [Buf.re .col, .im .col, .mrRe, .mrIm], ¬∃ i < s.cols, colElems .col s.rows s.cols i b x := by
    rintro b hb ⟨i, -, ⟨rfl | rfl, -⟩ | ⟨rfl | rfl, -⟩⟩ <;> exact hb (by decide)
  exact hw.entry (fun b x ⟨i, hi, hb⟩ => colElems_room_of_ready2d h hi b x hb) hre him (hout re hnre) (hout im hnim)

/-- A column leaves its transform in its column of MR and in C, if TR is as the row pass left it. -/
theorem colPass_entries {m : Memory}
    (hm : ∀ x < 4194304, m.entry .trRe .trIm x = (s.afterRows d s.rows).entry .trRe .trIm x) {i j : Nat}
    (hi : i < s.cols) (hj : j < s.rows) :
    (colPass (s.engine .col d) s.cols m i).entry .mrRe .mrIm (j * s.cols + i) = colTransform s d i j ∧
      (colPass (s.engine .col d) s.cols m i).pair .col j = colTransform s d i j := by
  have hready := ready_col_of_ready2d h
  have he := engine_planned hready d
  have hsamples : ∀ k < s.rows, colSamples (s.engine .col d) m i k = rowTransform s d (bitrev k (s.steps .col)) i :=
    fun k hk => by
      have hkk : bitrev (bitrev k (s.steps .col)) (s.steps .col) = k := bitrev_bitrev (hk.trans_eq he.len)
      have htr := afterRows_tr h d (bitrev_lt_rows h k) hi
      rw [hkk] at htr
      exact (hm _ ((index_lt hi hk).trans_le (cols_mul_rows_le_of_ready2d h))).trans htr
  have hvalue : passesValue (s.engine .col d) (colSamples (s.engine .col d) m i) j = colTransform s d i j := by
    refine Eq.trans ?_ (transformed_congr hready d hsamples hj)
    rw [he.passesValue_eq, ← isInverse_eq_inverted]
    rfl
  rw [← hvalue]
  exact colPass_values (s.engine .col d) s.cols he.len he.room (rows_mul_cols_le_of_ready2d h) m i hi hj

theorem colPass_afterCols {i j : Nat} (hi : i < s.cols) (hj : j < s.rows) :
    (colPass (s.engine .col d) s.cols (s.afterCols d i) i).entry .mrRe .mrIm (j * s.cols + i) = colTransform s d i j ∧
      (colPass (s.engine .col d) s.cols (s.afterCols d i) i).pair .col j = colTransform s d i j :=
  colPass_entries h d (fun x hx => afterCols_entry h d hi.le (re := .trRe) (im := .trIm) hx hx (by decide) (by decide))
    hi hj

/-! ## The whole transform -/

/-- MR after TRANSFORM2D (45_transform2d.md R274). -/
theorem transform2d_mr {i j : Nat} (hi : i < s.cols) (hj : j < s.rows) :
    (s.transform2d d).entry .mrRe .mrIm (j * s.cols + i) = colTransform s d i j := by
  have hx : j * s.cols + i < 4194304 := (index_lt hj hi).trans_le (rows_mul_cols_le_of_ready2d h)
  refine (Memory.entry_foldl_of_last _ (fun k _ m => colPass_writes_of_ready2d h d m k)
    (fun k => colElems_room_of_ready2d h) _ hi (re := .mrRe) (im := .mrIm) hx hx
    fun k hk hik => ⟨fun hmem => hik.ne (colElems_mr (.inl rfl) hk hi hmem),
      fun hmem => hik.ne (colElems_mr (.inr rfl) hk hi hmem)⟩).trans ?_
  exact (colPass_afterCols h d hi hj).1

/-- C after TRANSFORM2D holds the last column (45_transform2d.md R275). -/
theorem transform2d_pair_col {j : Nat} (hj : j < s.rows) :
    (s.transform2d d).pair .col j = colTransform s d (s.cols - 1) j := by
  have hlast : s.cols - 1 < s.cols := Nat.sub_one_lt (cols_pos_of_ready2d h).ne'
  have hx : j < 32768 := hj.trans_le (engine_planned (ready_col_of_ready2d h) d).room
  refine (Memory.entry_foldl_of_last _ (fun k _ m => colPass_writes_of_ready2d h d m k)
    (fun k => colElems_room_of_ready2d h) _ hlast (re := .re .col) (im := .im .col) hx hx
    fun k hk hik => by omega).trans ?_
  exact (colPass_afterCols h d hlast hj).2

/-- TR after TRANSFORM2D (45_transform2d.md R272). -/
theorem transform2d_tr {i j : Nat} (hi : i < s.rows) (hj : j < s.cols) :
    (s.transform2d d).entry .trRe .trIm (j * s.rows + bitrev i (s.steps .col)) = rowTransform s d i j := by
  have hx : j * s.rows + bitrev i (s.steps .col) < 4194304 :=
    (index_lt hj (bitrev_lt_rows h i)).trans_le (cols_mul_rows_le_of_ready2d h)
  rw [transform2d_eq_afterCols, afterCols_entry h d le_rfl (re := .trRe) (im := .trIm) hx hx (by decide) (by decide)]
  exact afterRows_tr h d hi hj

/-- R after TRANSFORM2D holds the last row (45_transform2d.md R275). -/
theorem transform2d_pair_row {j : Nat} (hj : j < s.cols) :
    (s.transform2d d).pair .row j = rowTransform s d (s.rows - 1) j := by
  have hx : j < 32768 := hj.trans_le (engine_planned (ready_row_of_ready2d h) d).room
  rw [transform2d_eq_afterCols]
  exact (afterCols_entry h d le_rfl (re := .re .row) (im := .im .row) hx hx (by decide) (by decide)).trans
    (afterRows_pair h d hj)

end

/-- A byte of none of the first n elements of a data memory is in no element of them. -/
theorem Buf.outside_of_not_hasByte {b : Buf} {n a i : Nat} (h : ¬b.HasByte n a) (hi : i < n) :
    a < b.addr i ∨ b.addr i + 4 ≤ a := by
  unfold Buf.HasByte Buf.addr at h
  unfold Buf.addr
  omega

theorem transform2d_read8 {s : State} (h : Ready2d s) (d : Direction) {a : Nat} (ha : ¬Transform2dByte s a) :
    (s.transform2d d).read8 a = s.mem.read8 a := by
  have hw := transform2d_writes s d (engine_planned (ready_row_of_ready2d h) d).len
    (engine_planned (ready_col_of_ready2d h) d).len
  simp only [Transform2dByte, Ctx.HasByte, not_or, and_assoc] at ha
  obtain ⟨hre, him, hcre, hcim, htre, htim, hmre, hmim⟩ := ha
  refine hw.read8 a fun b i hb => ?_
  rcases hb with ⟨rfl | rfl, hi⟩ | ⟨rfl | rfl, hi⟩ | ⟨hb, hi⟩ | ⟨rfl | rfl, hi⟩
  · exact Buf.outside_of_not_hasByte hre hi
  · exact Buf.outside_of_not_hasByte him hi
  · exact Buf.outside_of_not_hasByte hcre hi
  · exact Buf.outside_of_not_hasByte hcim hi
  · rw [Nat.mul_comm] at hi
    rcases hb with rfl | rfl
    · exact Buf.outside_of_not_hasByte htre hi
    · exact Buf.outside_of_not_hasByte htim hi
  · exact Buf.outside_of_not_hasByte hmre hi
  · exact Buf.outside_of_not_hasByte hmim hi

theorem execTransform2d_of_v2d {s : State} (h : s.v2d = true) (d : Direction) :
    execTransform2d d s = commit (s.withMem (s.transform2d d)) := by
  simp [execTransform2d, h]

theorem v2d_of_ready2d {s : State} (h : Ready2d s) : s.v2d = true := by
  obtain ⟨-, hv, -⟩ := h
  exact hv

theorem mem_of_exec_transform2d {s s' : State} {d : Direction} (h : Ready2d s)
    (hexec : exec (.transform2d d) s = .next s') : s'.mem = s.transform2d d := by
  rw [← next_inj ((execTransform2d_of_v2d (v2d_of_ready2d h) d).symm.trans hexec)]
  rfl

/-! ## Two states with the same input -/

/-- The input of TRANSFORM2D is the same in two states: the build, the plan and the matrix (45_transform2d.md R270). -/
structure SameInput2d (s t : State) : Prop where
  build : s.build = t.build
  planR : s.planR = t.planR
  planC : s.planC = t.planC
  matIn : ∀ x < s.rows * s.cols, s.get .matIn x = t.get .matIn x

section

variable {s t : State} (same : SameInput2d s t) (d : Direction)

include same

theorem SameInput2d.rows_eq : s.rows = t.rows := congrArg (·.length.toNat) same.planC

theorem SameInput2d.cols_eq : s.cols = t.cols := congrArg (·.length.toNat) same.planR

theorem SameInput2d.colSteps_eq : s.steps .col = t.steps .col := congrArg (·.steps.toNat) same.planC

theorem SameInput2d.rowSteps_eq : s.steps .row = t.steps .row := congrArg (·.steps.toNat) same.planR

theorem SameInput2d.rowTransform_eq (hs : Ready2d s) {i j : Nat} (hi : i < s.rows) (hj : j < s.cols) :
    rowTransform s d i j = rowTransform t d i j := by
  have hready := ready_row_of_ready2d hs
  have hcols : s.length .row = t.length .row := same.cols_eq
  rw [rowTransform, rowTransform, ← same.build, ← hcols, ← same.rowSteps_eq]
  refine transformed_congr hready d (fun k _ => ?_) hj
  have hk : bitrev k (s.steps .row) < s.cols := (bitrev_bound k _).trans_eq (engine_planned hready d).len.symm
  have hx : s.get .matIn (i * s.length .row + bitrev k (s.steps .row)) =
      t.get .matIn (i * s.length .row + bitrev k (s.steps .row)) := same.matIn _ (index_lt hi hk)
  rw [hx]

theorem SameInput2d.colTransform_eq (hs : Ready2d s) {i j : Nat} (hi : i < s.cols) (hj : j < s.rows) :
    colTransform s d i j = colTransform t d i j := by
  have hrows : s.length .col = t.length .col := same.rows_eq
  rw [colTransform, colTransform, ← same.build, ← hrows, ← same.colSteps_eq]
  exact transformed_congr (ready_col_of_ready2d hs) d
    (fun k _ => same.rowTransform_eq d hs (bitrev_lt_rows hs k) hi) hj

theorem SameInput2d.mr_eq (hs : Ready2d s) (ht : Ready2d t) {x : Nat} (hx : x < s.rows * s.cols) :
    (s.transform2d d).entry .mrRe .mrIm x = (t.transform2d d).entry .mrRe .mrIm x := by
  obtain ⟨j, hj, i, hi, rfl⟩ := exists_entry_index hx
  have htr := transform2d_mr ht d (hi.trans_eq same.cols_eq) (hj.trans_eq same.rows_eq)
  rw [← same.cols_eq] at htr
  rw [transform2d_mr hs d hi hj, htr, same.colTransform_eq d hs hi hj]

theorem SameInput2d.tr_eq (hs : Ready2d s) (ht : Ready2d t) {x : Nat} (hx : x < s.rows * s.cols) :
    (s.transform2d d).entry .trRe .trIm x = (t.transform2d d).entry .trRe .trIm x := by
  obtain ⟨j, hj, k, hk, rfl⟩ := exists_entry_index (Nat.mul_comm s.rows s.cols ▸ hx)
  have hrows := (engine_planned (ready_col_of_ready2d hs) d).len
  obtain ⟨i, hi, rfl⟩ : ∃ i < s.rows, bitrev i (s.steps .col) = k :=
    ⟨bitrev k (s.steps .col), bitrev_lt_rows hs k, bitrev_bitrev (hk.trans_eq hrows)⟩
  have htr := transform2d_tr ht d (hi.trans_eq same.rows_eq) (hj.trans_eq same.cols_eq)
  rw [← same.rows_eq, ← same.colSteps_eq] at htr
  rw [transform2d_tr hs d hi hj, htr, same.rowTransform_eq d hs hi hj]

theorem SameInput2d.pair_row_eq (hs : Ready2d s) (ht : Ready2d t) {i : Nat} (hi : i < s.cols) :
    (s.transform2d d).pair .row i = (t.transform2d d).pair .row i := by
  have hlast : s.rows - 1 < s.rows := Nat.sub_one_lt (bitrev_lt_rows hs 0).pos.ne'
  rw [transform2d_pair_row hs d hi, transform2d_pair_row ht d (hi.trans_eq same.cols_eq), ← same.rows_eq,
    same.rowTransform_eq d hs hlast hi]

theorem SameInput2d.pair_col_eq (hs : Ready2d s) (ht : Ready2d t) {i : Nat} (hi : i < s.rows) :
    (s.transform2d d).pair .col i = (t.transform2d d).pair .col i := by
  have hlast : s.cols - 1 < s.cols := Nat.sub_one_lt (cols_pos_of_ready2d hs).ne'
  rw [transform2d_pair_col hs d hi, transform2d_pair_col ht d (hi.trans_eq same.rows_eq), ← same.cols_eq,
    same.colTransform_eq d hs hlast hi]

end

/-! ## The read-out -/

theorem execResult2d_of_index {s : State} (hv : s.v2d = true) (hr : s.rowArg < s.rows) (hc : s.colArg < s.cols) :
    execResult2d s =
      commit (s.withResults (s32 (scaleOut s.build.fracBits (s.get .mrRe (s.rowArg * s.cols + s.colArg))))
        (s32 (scaleOut s.build.fracBits (s.get .mrIm (s.rowArg * s.cols + s.colArg))))) := by
  simp only [execResult2d, hv, Bool.not_true, Bool.false_eq_true, if_false, ge_iff_le, not_le.mpr hr, not_le.mpr hc,
    or_self]

end Sys2Proof.Machine

open Sys2Proof Sys2Proof.Machine Sys2Proof.Spec

/-! ## The obligations -/

/-- Settles O48: the dimensions pass the four checks, and the plan created zeroes its own data memories only. -/
theorem plan2dCreateMakesAPlan : Obligations.Plan2dCreateMakesAPlan := by
  unfold Obligations.Plan2dCreateMakesAPlan
  intro j k s hlegal hrows hcols hjmax hkmax hmat
  have hr : s.rowsArg = 2 ^ j := s.rowsArg_eq.trans hrows
  have hc : s.colsArg = 2 ^ k := s.colsArg_eq.trans hcols
  have hzero : ∀ b ∈ plan2dBufs, ∀ i < b.count s.build, (s.mem.zeroAll s.build plan2dBufs).get b i = 0 :=
    fun b hb i hi => (Memory.get_zeroAll hlegal _ _ hi).trans (if_pos hb)
  refine ⟨s.mem.zeroAll s.build plan2dBufs, ?_, fun c hc i hi => ?_, fun b hb i hi => ?_,
    fun a ha => Memory.read8_zeroAll _ (not_hasByte_of_not_create2dByte ha)⟩
  · have hrun := execPlan2dCreate_of_dims ((isPow2_iff _).mpr ⟨j, hr⟩) ((isPow2_iff _).mpr ⟨k, hc⟩)
      (hr.trans_le hjmax) (hc.trans_le hkmax) (by rwa [hr, hc])
    rw [hr, hc, commit, createPlan2d_complete, Plan.ofLength_two_pow, Plan.ofLength_two_pow] at hrun
    exact hrun
  · rcases List.mem_pair.mp hc with rfl | rfl <;>
      exact Prod.ext (hzero (.re _) (by decide) i hi) (hzero (.im _) (by decide) i hi)
  · simp only [List.mem_cons, List.not_mem_nil, or_false] at hb
    rcases hb with rfl | rfl | rfl | rfl <;> exact hzero _ (by decide) i hi

/-- Settles O49: the check of V2D passes or fails, and nothing else of the state is asked for. -/
theorem plan2dDestroyClearsThePlan : Obligations.Plan2dDestroyClearsThePlan := by
  unfold Obligations.Plan2dDestroyClearsThePlan
  exact fun s => ⟨execPlan2dDestroy_of_v2d, execPlan2dDestroy_of_no_v2d⟩

/-- Settles O50: each row and each column stores to a column of its own of TR or of MR, so it stays as that turn left
it; and the column transforms read TR in the order in which the rows were scattered. -/
theorem transform2dIsRowsThenColumns : Obligations.Transform2dIsRowsThenColumns := by
  unfold Obligations.Transform2dIsRowsThenColumns
  intro d s h
  exact ⟨s.transform2d d, (execTransform2d_of_v2d (v2d_of_ready2d h) d).trans (commit_withMem s _),
    fun j hj i hi => transform2d_mr h d hi hj, fun i hi j hj => transform2d_tr h d hi hj,
    fun j hj => transform2d_pair_row h d hj, fun j hj => transform2d_pair_col h d hj,
    fun a ha => transform2d_read8 h d ha⟩

/-- Settles O51: by O50's closed forms, which read MAT_IN below rows · cols and the plan only. -/
theorem transform2dDependsOnlyOnItsInput : Obligations.Transform2dDependsOnlyOnItsInput := by
  unfold Obligations.Transform2dDependsOnlyOnItsInput
  intro d s t s' t' hs ht hbuild hplanR hplanC hin hexec hexec'
  have same : SameInput2d s t := ⟨hbuild, hplanR, hplanC, hin⟩
  simp only [State.get, mem_of_exec_transform2d hs hexec, mem_of_exec_transform2d ht hexec']
  refine ⟨fun b hb i hi => ?_, fun i hi => same.pair_row_eq d hs ht hi, fun i hi => same.pair_col_eq d hs ht hi⟩
  obtain ⟨htrRe, htrIm⟩ := Prod.mk.inj (same.tr_eq d hs ht hi)
  obtain ⟨hmrRe, hmrIm⟩ := Prod.mk.inj (same.mr_eq d hs ht hi)
  simp only [List.mem_cons, List.not_mem_nil, or_false] at hb
  rcases hb with rfl | rfl | rfl | rfl
  · exact htrRe
  · exact htrIm
  · exact hmrRe
  · exact hmrIm

/-- Settles O52: with both checks passed the element of MR is scaled out. -/
theorem result2dScalesOut : Obligations.Result2dScalesOut := by
  unfold Obligations.Result2dScalesOut
  exact fun s hv hr hc => (execResult2d_of_index hv hr hc).trans (commit_withResults s _ _)

end

section
/-! The family of 46_control.md: acceptance and overrun of CMD writes, the registers as the host reads and writes them, the
step of each agent, and a host that polls BUSY. -/

namespace Sys2Proof.Machine

open Sys2Proof Sys2Proof.Spec

/-! ## CMD writes -/

theorem writeCsr_cmd_of_idle {s : State} (h : s.busy = false) (w : Word) : s.writeCsr w .cmd = s.accept w :=
  if_neg (by simp [h])

theorem writeCsr_cmd_of_busy {s : State} (h : s.busy = true) (w : Word) : s.writeCsr w .cmd = s.markOverrun := if_pos h

theorem hostWrite_cmd_of_idle {s : State} (h : s.busy = false) (w : Word) :
    hostWrite 0x010 .word w s = (s.accept w, .ack) := by
  rw [← writeCsr_cmd_of_idle h]
  exact hostWrite_csr s .cmd w

theorem hostWrite_cmd_of_busy {s : State} (h : s.busy = true) (w : Word) :
    hostWrite 0x010 .word w s = (s.markOverrun, .ack) := by
  rw [← writeCsr_cmd_of_busy h]
  exact hostWrite_csr s .cmd w

/-! ## Register words as numbers -/

/-- The upper part of a word counts in units of the lower part's size. -/
theorem toNat_append_eq_add {m n : Nat} (x : BitVec m) (y : BitVec n) : (x ++ y).toNat = x.toNat * 2 ^ n + y.toNat := by
  rw [BitVec.toNat_append, ← Nat.shiftLeft_add_eq_or_of_lt y.isLt, Nat.shiftLeft_eq]

theorem toNat_setWidth_ofBool (b : Bool) : ((BitVec.ofBool b).setWidth 32).toNat = b.toNat := by
  cases b <;> rfl

/-- The parameters of a legal build fit their fields of CFG. -/
theorem cfgWord_toNat {b : Build} (h : b.legal = true) :
    (cfgWord b).toNat = b.log2MaxLen + 2 ^ 8 * b.fracBits + 2 ^ 16 * b.log2MatMax + 2 ^ 24 := by
  have hbounds := Build.legal_bounds h
  simp only [cfgWord, toNat_append_eq_add, BitVec.toNat_ofNat, BitVec.reduceToNat]
  omega

theorem statusWord_toNat (s : State) :
    s.statusWord.toNat = s.busy.toNat + 2 * s.done.toNat + 4 * s.ovr.toNat + 8 * s.berr.toNat +
      2 ^ 8 * s.err.number.toNat := by
  simp only [State.statusWord, toNat_append_eq_add, BitVec.toNat_ofBool, BitVec.reduceToNat]
  omega

theorem infoWord_toNat (p : Plan) :
    p.infoWord.toNat = p.length.toNat + 2 ^ 16 * p.steps.toNat + 2 ^ 31 * p.valid.toNat := by
  simp only [Plan.infoWord, toNat_append_eq_add, BitVec.toNat_ofBool, BitVec.reduceToNat]
  omega

/-- A 1 in the bit of a STATUS flag clears it, a 0 keeps it. -/
theorem clearStatus_eq (s : State) (v : Word) : s.clearStatus v =
    { s with done := s.done && !v.getLsbD 1, ovr := s.ovr && !v.getLsbD 2, berr := s.berr && !v.getLsbD 3 } := by
  have hclear (bit flag : Bool) : (if bit then false else flag) = (flag && !bit) := by cases bit <;> simp
  simp only [State.clearStatus, hclear]

/-! ## Steps -/

theorem step_of_not_seqTurn {s : State} {op : HostOp} {rest : List HostOp} (hturn : ¬SeqTurn s)
    (hops : s.hostOps = op :: rest) : step s = .next (hostStep op s) := by
  rw [step, if_neg (fun h => hturn ((seqTurn_iff s).mp h)), hops]

theorem not_seqTurn_of_idle {s : State} (h : s.busy = false) : ¬SeqTurn s := fun hturn =>
  Bool.false_ne_true (h.symm.trans hturn.1)

theorem step_of_idle_of_no_ops {s : State} (h : s.busy = false) (hops : s.hostOps = []) : step s = .next s := by
  rw [step, if_neg (fun hturn => not_seqTurn_of_idle h ((seqTurn_iff s).mp hturn)), hops]

/-- A word placed by its number is placed itself. -/
theorem withFetchWord_toNat (s : State) (w : Word) : s.withFetchWord 32 w.toNat = s.placeCommand w := by
  rw [State.withFetchWord, Nat.mod_eq_of_lt w.isLt, BitVec.ofNat_toNat, BitVec.setWidth_eq]

theorem core_run_one (M : Host.Core) (s : M.State) : M.run 1 s = M.step s := by
  simp only [Host.Core.run]
  cases M.step s <;> rfl

theorem run_one (s : State) : Sys2Proof.core.run 1 s = step s := core_run_one Sys2Proof.core s

/-- The CMD write at the head of an idle block's queue: acceptance, acknowledged (46_control.md R295). -/
theorem step_cmd_write {s : State} {w : Word} {rest : List HostOp} (h : s.busy = false)
    (hops : s.hostOps = .write (s.build.blockBase + 0x010) .word w :: rest) :
    step s = .next ((s.accept w).withHost (s.latencies.headD 0) s.latencies.tail rest (.ack :: s.replies)) := by
  have hserve := hostStep_write s 0x010 w .word
  rw [hostWrite_cmd_of_idle (s := s.tick.dropOp) h] at hserve
  rw [step_of_not_seqTurn (not_seqTurn_of_idle h) hops]
  refine congrArg Host.Outcome.next (hserve.trans ?_)
  simp only [State.answer, State.accept, State.dropOp, State.tick, State.withHost, hops, List.tail_cons]

/-! ## A host that polls BUSY -/

@[simp] theorem State.withHost_busy (s : State) (n : Nat) (l : List Nat) (o : List HostOp) (r : List Reply) :
    (s.withHost n l o r).busy = s.busy := rfl

@[simp] theorem State.withHost_lCmd (s : State) (n : Nat) (l : List Nat) (o : List HostOp) (r : List Reply) :
    (s.withHost n l o r).lCmd = s.lCmd := rfl

theorem step_wait_of_idle {s : State} {rest : List HostOp} (h : s.busy = false) (n : Nat) (l : List Nat)
    (r : List Reply) : step (s.withHost n l (.wait :: rest) r) =
      .next (s.withHost (n - 1) l rest (.data s.statusWord :: r)) := by
  have hturn : ¬SeqTurn (s.withHost n l (.wait :: rest) r) := not_seqTurn_of_idle h
  rw [step_of_not_seqTurn hturn rfl, hostStep_wait, State.withHost_busy, h]
  rfl

theorem step_wait_of_busy {s : State} {rest : List HostOp} (h : s.busy = true) (n : Nat) (l : List Nat)
    (r : List Reply) : step (s.withHost (n + 1) l (.wait :: rest) r) =
      .next (s.withHost n l (.wait :: rest) (.data s.statusWord :: r)) := by
  have hturn : ¬SeqTurn (s.withHost (n + 1) l (.wait :: rest) r) := fun ⟨_, hor⟩ =>
    hor.elim (Nat.succ_ne_zero n) (List.cons_ne_nil _ _)
  rw [step_of_not_seqTurn hturn rfl, hostStep_wait, State.withHost_busy, h]
  rfl

/-- The command in flight ends as it would with any other host side of the port. -/
theorem step_complete {s u : State} (h : s.busy = true) (hexec : exec (decodeWord s.lCmd) s = .next u) (l : List Nat)
    (o : List HostOp) (r : List Reply) : step (s.withHost 0 l o r) = .next (u.withHost 0 l o r) := by
  have hturn : SeqTurn (s.withHost 0 l o r) := ⟨h, .inl rfl⟩
  rw [step_of_seqTurn hturn, State.withHost_lCmd, exec_withHost, hexec]
  rfl

/-- Whatever the latency, a host at WAIT leaves it with the command in flight completed: the polls before the completion
only lower the latency, and the first one after it reads BUSY = 0. -/
theorem run_wait_completes {s u : State} (h : s.busy = true) (hexec : exec (decodeWord s.lCmd) s = .next u)
    (l : List Nat) (rest : List HostOp) (n : Nat) (r : List Reply) :
    ∃ k r', Sys2Proof.core.run k (s.withHost n l (.wait :: rest) r) = .next (u.withHost 0 l rest r') := by
  induction n generalizing r with
  | zero =>
    refine ⟨2, .data u.statusWord :: r, ?_⟩
    rw [run_succ _ _ _ (step_complete h hexec l _ r), run_one]
    exact step_wait_of_idle (exec_busy hexec) 0 l r
  | succ n ih =>
    obtain ⟨k, r', hrun⟩ := ih (.data s.statusWord :: r)
    exact ⟨k + 1, r', (run_succ _ _ _ (step_wait_of_busy h n l r)).trans hrun⟩

/-! ## What no command touches -/

/-- The registers that only the host writes, the latches and the host side of the port are no command's to write
(46_control.md R297). -/
theorem CommandWrites.frame {s t : State} (h : CommandWrites s t) :
    t.build = s.build ∧ t.ie = s.ie ∧ t.ovr = s.ovr ∧ t.berr = s.berr ∧ t.arg0 = s.arg0 ∧ t.arg1 = s.arg1 ∧
      t.lastCmd = s.lastCmd ∧ t.lCmd = s.lCmd ∧ t.lArg0 = s.lArg0 ∧ t.lArg1 = s.lArg1 ∧ t.wait = s.wait ∧
      t.latencies = s.latencies ∧ t.hostOps = s.hostOps ∧ t.replies = s.replies := by
  unfold CommandWrites at h
  rw [h]
  exact ⟨rfl, rfl, rfl, rfl, rfl, rfl, rfl, rfl, rfl, rfl, rfl, rfl, rfl, rfl⟩

end Sys2Proof.Machine

open Sys2Proof Sys2Proof.Machine Sys2Proof.Spec

/-! ## The obligations -/

/-- Settles O8: a command ends with its own writes, none of them to these fields, and the completion writes. -/
theorem everyCommandCompletes : Obligations.EveryCommandCompletes := by
  unfold Obligations.EveryCommandCompletes
  intro i s
  obtain ⟨t, hexec⟩ := completes_exec i s
  obtain ⟨s', code, hwrites, rfl⟩ := exec_completes hexec
  exact ⟨s'.complete code, hexec, rfl, rfl, hwrites.frame⟩

/-- Settles O12: by induction on the latency that the acceptance takes, and because no command reads the host side of the
port. -/
theorem pollingIsScheduleIndependent : Obligations.PollingIsScheduleIndependent := by
  unfold Obligations.PollingIsScheduleIndependent
  intro s u w rest hidle hops hexec
  obtain ⟨k, r, hrun⟩ := run_wait_completes (s := s.accept w) rfl hexec s.latencies.tail rest (s.latencies.headD 0)
    (.ack :: s.replies)
  exact ⟨k + 1, _, (run_succ _ _ _ (step_cmd_write hidle hops)).trans hrun, rfl, rfl⟩

/-- Settles O16: a read of a register is served in every state, and the fields of its word do not overlap. -/
theorem registersReadAsTheirFields : Obligations.RegistersReadAsTheirFields := by
  unfold Obligations.RegistersReadAsTheirFields
  intro s h
  exact ⟨hostRead_csr s, rfl, cfgWord_toNat h, toNat_setWidth_ofBool s.ie, statusWord_toNat s,
    ⟨rfl, rfl, rfl, rfl, rfl, rfl⟩, rfl, rfl, rfl, rfl, rfl, rfl, fun c => infoWord_toNat (s.plan c),
    toNat_setWidth_ofBool s.v2d⟩

/-- Settles O5: SeqStep decodes the bytes of L_CMD, and decoding inverts encoding on well-formed commands. -/
theorem stepRunsTheCommandInFlight : Obligations.StepRunsTheCommandInFlight := by
  unfold Obligations.StepRunsTheCommandInFlight
  refine ⟨fun s i hturn hdecode => ?_, fun s i hturn hwf hword => ?_, fun s i hwf => ?_⟩
  · obtain ⟨rfl, -⟩ := Prod.mk.inj (Except.ok.inj ((decode_wordBytes s.lCmd).symm.trans hdecode))
    exact step_of_seqTurn hturn
  · rw [step_of_seqTurn hturn, hword, decodeWord_encodeWord hwf]
  · rw [withFetchWord_toNat, step_of_seqTurn ⟨rfl, .inl rfl⟩, State.placeCommand_lCmd, decodeWord_encodeWord hwf]

/-- Settles O6: the step of the host's turn, and the interconnect's sum taken back by the block. -/
theorem stepServesTheHost : Obligations.StepServesTheHost := by
  unfold Obligations.StepServesTheHost
  exact ⟨fun _ _ _ => step_of_not_seqTurn, fun s a v size => ⟨hostStep_write s a v size, hostStep_read s a size⟩,
    fun _ => step_of_idle_of_no_ops⟩

/-- Settles O11: the write is accepted, and with latency 0 the next step is the sequencer's. -/
theorem commandRunsFromTheBus : Obligations.CommandRunsFromTheBus := by
  unfold Obligations.CommandRunsFromTheBus
  intro s w rest hidle hops hlatency
  rw [run_succ _ _ _ (step_cmd_write hidle hops), run_one, hlatency]
  exact step_of_seqTurn ⟨rfl, .inl rfl⟩

/-- Settles O17: the write reaches CMD, which an idle block accepts. -/
theorem cmdWriteAccepts : Obligations.CmdWriteAccepts := by
  unfold Obligations.CmdWriteAccepts
  exact fun w _ h => hostWrite_cmd_of_idle h w

/-- Settles O18: the write reaches CMD, which a busy block drops. -/
theorem cmdWriteWhileBusyOverruns : Obligations.CmdWriteWhileBusyOverruns := by
  unfold Obligations.CmdWriteWhileBusyOverruns
  exact fun w _ h => hostWrite_cmd_of_busy h w

/-- Settles O19: a write at a register's offset is served in every state. -/
theorem registerWrites : Obligations.RegisterWrites := by
  unfold Obligations.RegisterWrites
  intro v s
  refine ⟨hostWrite_csr s .ctrl v, ?_, hostWrite_csr s .arg0 v, hostWrite_csr s .arg1 v⟩
  rw [← clearStatus_eq]
  exact hostWrite_csr s .status v

/-- Settles O35: NOP commits the state it began in. -/
theorem nopOnlyCompletes : Obligations.NopOnlyCompletes := by
  unfold Obligations.NopOnlyCompletes
  exact fun _ => rfl

end

section
/-! The family of 60_exceptions.md: the checks of each command as they fail, in their order, what a failed command leaves,
the causes of a bus error, and the interrupt output. -/

namespace Sys2Proof.Machine

open Sys2Proof Sys2Proof.Spec

/-! ## What a failed command leaves -/

/-- A command that ends with an error code has made the completion writes only (60_exceptions.md R302). -/
theorem exec_of_err_ne_ok {i : Instr} {s t : State} (h : exec i s = .next t) (herr : t.err ≠ .ok) :
    ∃ code, t = s.complete code := by
  rcases exec_cases i s with ⟨code, -, hraise⟩ | ⟨s', -, hcommit⟩
  · exact ⟨code, (next_inj (hraise.symm.trans h)).symm⟩
  · obtain rfl : s'.complete .ok = t := next_inj (hcommit.symm.trans h)
    exact absurd rfl herr

/-! ## NOT_POW2 -/

theorem isPow2_eq_false_iff (x : Nat) : isPow2 x = false ↔ ∀ k, x ≠ 2 ^ k := by
  rw [← Bool.not_eq_true, isPow2_iff, not_exists]

theorem execPlanCreate_of_not_pow2 (c : HostCtx) {s : State} (h : isPow2 s.lengthArg = false) :
    execPlanCreate c s = raiseCmdError .notPow2 s := by
  simp only [execPlanCreate, h, Bool.not_false, if_true]

/-- The columns are checked before the rows, with the same code (45_transform2d.md R262). -/
theorem execPlan2dCreate_of_not_pow2 {s : State} (h : isPow2 s.colsArg = false ∨ isPow2 s.rowsArg = false) :
    execPlan2dCreate s = raiseCmdError .notPow2 s := by
  rcases h with hcols | hrows
  · simp only [execPlan2dCreate, hcols, Bool.not_false, if_true]
  · simp only [execPlan2dCreate, hrows, Bool.not_false, if_true, ite_self]

/-! ## TOO_LARGE -/

theorem execPlanCreate_of_gt (c : HostCtx) {s : State} (hpow : isPow2 s.lengthArg = true)
    (hgt : s.lengthArg > s.build.maxLen) : execPlanCreate c s = raiseCmdError .tooLarge s := by
  simp only [execPlanCreate, hpow, Bool.not_true, Bool.false_eq_true, if_false, if_pos hgt]

theorem execPlan2dCreate_of_gt {s : State} (hr : isPow2 s.rowsArg = true) (hc : isPow2 s.colsArg = true)
    (hgt : s.rowsArg > s.build.maxLen ∨ s.colsArg > s.build.maxLen ∨ s.rowsArg * s.colsArg > s.build.matMax) :
    execPlan2dCreate s = raiseCmdError .tooLarge s := by
  simp only [execPlan2dCreate, hr, hc, Bool.not_true, Bool.false_eq_true, if_false]
  rcases hgt with hrows | hcols | hprod
  · rw [if_pos (.inr hrows)]
  · rw [if_pos (.inl hcols)]
  · rw [if_pos hprod, ite_self]

/-- The longest power of two in 16 bits is 32768. -/
theorem State.lengthArg_le_of_isPow2 {s : State} (h : isPow2 s.lengthArg = true) : s.lengthArg ≤ 2 ^ 15 := by
  obtain ⟨k, hk⟩ := (isPow2_iff _).mp h
  have hlt : 2 ^ k < 2 ^ 16 := by
    rw [← hk, State.lengthArg_eq]
    exact Nat.mod_lt _ (by norm_num)
  rw [hk]
  exact Nat.pow_le_pow_right (by norm_num) (Nat.le_of_lt_succ ((Nat.pow_lt_pow_iff_right (by norm_num)).mp hlt))

/-- Where MAXLEN is 32768 no power of two in the operand is above it (60_exceptions.md R304). -/
theorem err_execPlanCreate_ne_tooLarge {c : HostCtx} {s t : State} (hmax : 2 ^ 15 ≤ s.build.maxLen)
    (h : execPlanCreate c s = .next t) : t.err ≠ .tooLarge := by
  cases hpow : isPow2 s.lengthArg with
  | false =>
    obtain rfl := next_inj ((execPlanCreate_of_not_pow2 c hpow).symm.trans h)
    exact ErrCode.noConfusion
  | true =>
    have hle : s.lengthArg ≤ s.build.maxLen := (State.lengthArg_le_of_isPow2 hpow).trans hmax
    obtain rfl := next_inj ((execPlanCreate_of_length c hpow hle).symm.trans h)
    exact ErrCode.noConfusion

/-! ## NO_PLAN -/

theorem execResult_of_invalid {c : HostCtx} {s : State} (h : (s.plan (ctxOf c)).valid = false) :
    execResult c s = raiseCmdError .noPlan s := by
  simp [execResult, h]

theorem execMag_of_invalid {c : HostCtx} {s : State} (h : (s.plan (ctxOf c)).valid = false) :
    execMag c s = raiseCmdError .noPlan s := by
  simp [execMag, h]

theorem execNmag_of_invalid {c : HostCtx} {s : State} (h : (s.plan (ctxOf c)).valid = false) :
    execNmag c s = raiseCmdError .noPlan s := by
  simp [execNmag, h]

theorem execTransform2d_of_no_v2d {s : State} (h : s.v2d = false) (d : Direction) :
    execTransform2d d s = raiseCmdError .noPlan s := by
  simp [execTransform2d, h]

theorem execResult2d_of_no_v2d {s : State} (h : s.v2d = false) : execResult2d s = raiseCmdError .noPlan s := by
  simp [execResult2d, h]

/-! ## INDEX -/

section
variable {c : HostCtx} {s : State} (hvalid : (s.plan (ctxOf c)).valid = true) (hindex : s.indexArg ≥ s.length (ctxOf c))
include hvalid hindex

theorem execResult_of_index_ge : execResult c s = raiseCmdError .index s := by
  simp [execResult, hvalid, hindex]

theorem execMag_of_index_ge : execMag c s = raiseCmdError .index s := by
  simp [execMag, hvalid, hindex]

theorem execNmag_of_index_ge : execNmag c s = raiseCmdError .index s := by
  simp [execNmag, hvalid, hindex]

end

theorem execResult2d_of_index_ge {s : State} (hv : s.v2d = true) (h : s.rowArg ≥ s.rows ∨ s.colArg ≥ s.cols) :
    execResult2d s = raiseCmdError .index s := by
  simp only [execResult2d, hv, Bool.not_true, Bool.false_eq_true, if_false, if_pos h]

/-! ## Bus errors -/

/-- The checks of an access fail for exactly the three causes of 60_exceptions.md R313. -/
theorem target_eq_none_iff_badAccess {s : State} (h : s.build.legal = true) (addr : Word) (size : AccessSize) :
    s.target addr size = none ↔ BadAccess addr size s := by
  rcases target_cases s addr size with ⟨htarget, hcause⟩ | ⟨l, htarget, hsize, halign, hl, hserved⟩
  · refine iff_of_true htarget ?_
    rcases hcause with hsize | halign | hnone | ⟨l, hl, hwindow, hbusy⟩
    · exact .inl hsize
    · exact .inr (.inl halign)
    · refine .inr (.inr (.inl fun l hmapped haddr => ?_))
      rw [← haddr, locate_addr h hmapped] at hnone
      cases hnone
    · refine .inr (.inr (.inr ⟨hbusy, fun r haddr => ?_⟩))
      rw [← haddr, locate_csr] at hl
      cases hl
      cases hwindow
  · obtain ⟨hmapped, haddr⟩ := mapped_of_locate halign hl
    refine iff_of_false (by rw [htarget]; exact Option.some_ne_none l) ?_
    rintro (hsize' | halign' | hunmapped | ⟨hbusy, hnoCsr⟩)
    · exact hsize' hsize
    · exact halign' halign
    · exact hunmapped l hmapped haddr
    · rcases hserved with hcsr | hidle
      · cases l with
        | csr r => exact hnoCsr r haddr
        | _ => cases hcsr
      · rw [hidle] at hbusy
        cases hbusy

theorem target_of_not_badAccess {s : State} (h : s.build.legal = true) {addr : Word} {size : AccessSize}
    (hgood : ¬BadAccess addr size s) : ∃ l, s.target addr size = some l ∧ locate s.build addr.toNat = some l := by
  rcases target_cases s addr size with ⟨htarget, -⟩ | ⟨l, htarget, -, -, hl, -⟩
  · exact absurd ((target_eq_none_iff_badAccess h addr size).mp htarget) hgood
  · exact ⟨l, htarget, hl⟩

theorem hostWrite_of_no_target {s : State} {addr : Word} {size : AccessSize} (v : Word)
    (h : s.target addr size = none) : hostWrite addr size v s = (s.markBusError, .busError) := by
  simp only [hostWrite, h]

theorem hostRead_of_no_target {s : State} {addr : Word} {size : AccessSize} (h : s.target addr size = none) :
    hostRead addr size s = (s.markBusError, .busError) := by
  simp only [hostRead, h]

/-- A write answered with a bus error has set BERR and nothing else (60_exceptions.md R312). -/
theorem hostWrite_state_of_busError {addr v : Word} {size : AccessSize} {s : State}
    (h : (hostWrite addr size v s).2 = .busError) : (hostWrite addr size v s).1 = s.markBusError := by
  cases htarget : s.target addr size with
  | none => rw [hostWrite_of_no_target v htarget]
  | some l => rw [hostWrite_of_target v htarget] at h; cases h

/-- A read answered with a bus error has set BERR and nothing else (60_exceptions.md R312). -/
theorem hostRead_state_of_busError {addr : Word} {size : AccessSize} {s : State}
    (h : (hostRead addr size s).2 = .busError) : (hostRead addr size s).1 = s.markBusError := by
  cases htarget : s.target addr size with
  | none => rw [hostRead_of_no_target htarget]
  | some l => rw [hostRead_of_target htarget] at h; cases h

/-! ## The interrupt output -/

@[simp] theorem State.markBusError_irq (s : State) : s.markBusError.irq = s.irq := rfl

@[simp] theorem State.accept_irq (s : State) (w : Word) : (s.accept w).irq = false := Bool.and_false _

@[simp] theorem State.complete_irq (s : State) (code : ErrCode) : (s.complete code).irq = s.ie := Bool.and_true _

theorem State.clearStatus_irq_of_done_bit (s : State) {v : Word} (h : v.getLsbD 1 = true) :
    (s.clearStatus v).irq = false := by
  rw [State.irq, State.clearStatus_done, if_pos h, Bool.and_false]

theorem exec_irq {i : Instr} {s t : State} (h : exec i s = .next t) : t.irq = s.ie := by
  obtain ⟨s', code, hwrites, rfl⟩ := exec_completes h
  obtain ⟨-, hie, -⟩ := hwrites.frame
  rw [State.complete_irq, hie]

end Sys2Proof.Machine

open Sys2Proof Sys2Proof.Machine Sys2Proof.Spec

/-! ## The obligations -/

/-- Settles O9: a command that ends with an error code has committed nothing, and an acceptance has written the latches,
LASTCMD and what completion overwrites. -/
theorem failedCommandsHaveNoEffect : Obligations.FailedCommandsHaveNoEffect := by
  unfold Obligations.FailedCommandsHaveNoEffect
  refine ⟨fun i s t h herr => ?_, fun w s t h herr => ?_⟩
  · obtain ⟨code, rfl⟩ := exec_of_err_ne_ok h herr
    rfl
  · obtain ⟨code, rfl⟩ := exec_of_err_ne_ok h herr
    rfl

/-- Settles O13: the port's checks fail for exactly the three causes, and an access that passes them reaches the place at
its address. -/
theorem busErrorsHaveThreeCauses : Obligations.BusErrorsHaveThreeCauses := by
  unfold Obligations.BusErrorsHaveThreeCauses
  intro addr v size s hb
  have hnone := target_eq_none_iff_badAccess hb addr size
  refine ⟨fun hbad => ?_, fun hgood => ?_, fun hbad => ?_, fun l hmapped haddr hgood => ?_⟩
  · exact ⟨hostWrite_of_no_target v (hnone.mpr hbad), hostRead_of_no_target (hnone.mpr hbad)⟩
  · obtain ⟨l, htarget, -⟩ := target_of_not_badAccess hb hgood
    exact ⟨by rw [hostWrite_of_target v htarget], s.readLoc l, hostRead_of_target htarget⟩
  · rw [hostRead_of_no_target (hnone.mpr hbad)]
    rfl
  · obtain ⟨l', htarget, hl'⟩ := target_of_not_badAccess hb hgood
    obtain rfl : l = l' := by
      rw [← haddr, locate_addr hb hmapped] at hl'
      exact Option.some.inj hl'
    rw [hostRead_of_target htarget]
    exact ⟨rfl, rfl⟩

/-- Settles O33: `isPow2` of the 16-bit operand is the first check of either command. -/
theorem notPow2Errors : Obligations.NotPow2Errors := by
  unfold Obligations.NotPow2Errors
  refine ⟨fun c s hlen => ?_, fun s hdims => ?_⟩
  · rw [← s.lengthArg_eq, ← isPow2_eq_false_iff] at hlen
    exact execPlanCreate_of_not_pow2 c hlen
  · rw [← s.colsArg_eq, ← s.rowsArg_eq, ← isPow2_eq_false_iff, ← isPow2_eq_false_iff] at hdims
    exact execPlan2dCreate_of_not_pow2 hdims

/-- Settles O34: powers of two pass the first check and fail the next; 16 bits hold no power of two above 32768. -/
theorem tooLargeErrors : Obligations.TooLargeErrors := by
  unfold Obligations.TooLargeErrors
  refine ⟨fun c k s hlen hgt => ?_, fun j k s hrows hcols hgt => ?_, fun c s t hbuild h => ?_⟩
  · rw [← s.lengthArg_eq] at hlen
    exact execPlanCreate_of_gt c ((isPow2_iff _).mpr ⟨k, hlen⟩) (hlen ▸ hgt)
  · rw [← s.rowsArg_eq] at hrows
    rw [← s.colsArg_eq] at hcols
    refine execPlan2dCreate_of_gt ((isPow2_iff _).mpr ⟨j, hrows⟩) ((isPow2_iff _).mpr ⟨k, hcols⟩) ?_
    rwa [hrows, hcols]
  · have hmax : 2 ^ 15 ≤ s.build.maxLen := by rw [hbuild]; exact le_rfl
    exact err_execPlanCreate_ne_tooLarge hmax h

/-- Settles O24: completion sets DONE, acceptance and a DONE clear clear it, and a bus error sets BERR alone. -/
theorem interruptFollowsCompletion : Obligations.InterruptFollowsCompletion := by
  unfold Obligations.InterruptFollowsCompletion
  refine ⟨fun _ => rfl, fun i s t => exec_irq, fun w s hidle => ?_, fun v s hclear => ?_, fun v s => ?_,
    fun addr v size s h => ?_, fun addr size s h => ?_⟩
  · rw [hostWrite_cmd_of_idle hidle, State.accept_irq]
  · exact (congrArg (·.1.irq) (hostWrite_csr s .status v)).trans (s.clearStatus_irq_of_done_bit hclear)
  · exact congrArg (·.1.irq) (hostWrite_csr s .ctrl v)
  · rw [hostWrite_state_of_busError h, State.markBusError_irq]
  · rw [hostRead_state_of_busError h, State.markBusError_irq]

/-- Settles O31: each of these commands checks VALID, or V2D, before anything else. -/
theorem noPlanErrors : Obligations.NoPlanErrors := by
  unfold Obligations.NoPlanErrors
  simp only [List.forall_mem_cons, List.not_mem_nil, false_implies, implies_true, and_true]
  refine ⟨fun c d k s h => ?_, fun d s h => ?_⟩
  · exact ⟨execPlanDestroy_of_invalid h, exec_loadCommand_of_invalid h .real, exec_loadCommand_of_invalid h .complex,
      execRun_of_invalid h d, execTransform_of_invalid h d k, execResult_of_invalid h, execMag_of_invalid h,
      execNmag_of_invalid h⟩
  · exact ⟨execPlan2dDestroy_of_no_v2d h, execTransform2d_of_no_v2d h d, execResult2d_of_no_v2d h⟩

/-- Settles O32: the plan is there, and the check of the whole operand against its length fails. -/
theorem indexErrors : Obligations.IndexErrors := by
  unfold Obligations.IndexErrors
  simp only [List.forall_mem_cons, List.not_mem_nil, false_implies, implies_true, and_true]
  refine ⟨fun c s hvalid hindex => ?_, fun s hv hindex => execResult2d_of_index_ge hv hindex⟩
  exact ⟨execResult_of_index_ge hvalid hindex, execMag_of_index_ge hvalid hindex, execNmag_of_index_ge hvalid hindex⟩

end

section
/-! The family of 70_reset_and_hazards.md: the state after reset, the reset input, and how a command in flight ends. -/

namespace Sys2Proof.Machine

open Sys2Proof Sys2Proof.Spec

/-! ## The state after reset -/

theorem afterReset_plan (b : Build) (m : Memory) (c : Ctx) : (State.afterReset b m).plan c = .none := by
  cases c <;> rfl

theorem placeCommand_afterReset_valid (b : Build) (m : Memory) (w : Word) (c : Ctx) :
    (((State.afterReset b m).placeCommand w).plan c).valid = false := by
  cases c <;> rfl

theorem readCsr_afterReset_ctxInfo (b : Build) (m : Memory) (c : Ctx) :
    (State.afterReset b m).readCsr (.ctxInfo c) = 0 :=
  congrArg Plan.infoWord (afterReset_plan b m c)

/-- No flag is set and no error is recorded after reset (10_state.md R34). -/
theorem statusWord_afterReset (b : Build) (m : Memory) : (State.afterReset b m).statusWord = 0 := by
  have hdefault : (State.afterReset b m).statusWord = State.reset.statusWord := rfl
  exact hdefault.trans (by decide)

theorem err_of_raiseCmdError {o : Host.Outcome State Fault Refusal} {code : ErrCode} {s t : State}
    (hraise : o = raiseCmdError code s) (h : o = .next t) : t.err = code :=
  congrArg State.err (next_inj (h.symm.trans hraise))

theorem err_of_commit {o : Host.Outcome State Fault Refusal} {s t : State} (hcommit : o = commit s)
    (h : o = .next t) : t.err = .ok :=
  congrArg State.err (next_inj (h.symm.trans hcommit))

/-! ## A command in flight -/

/-- Everything a step can do to a command in flight: complete it, abandon it for a reset input, or spend one host step
of its latency on another operation and leave the command and all it will read as they are. -/
theorem step_inFlight {s : State} (hb : s.busy = true) :
    (∃ t, step s = .next t ∧ exec (decodeWord s.lCmd) s = .next t) ∨
    (∃ t cells rest, step s = .next t ∧ t.busy = false ∧ 0 < s.wait ∧ s.hostOps = .reset cells :: rest) ∨
    (∃ t, step s = .next t ∧ s.SameCommand t ∧ s.wait = t.wait + 1 ∧
      (t.hostOps = s.hostOps ∨ t.hostOps = s.hostOps.tail)) := by
  rcases step_cases s with ⟨-, hseq⟩ | ⟨-, -, hidle, -⟩ | ⟨op, rest, hturn, hops, hhost⟩
  · obtain ⟨t, hexec⟩ := completes_exec (decodeWord s.lCmd) s
    exact .inl ⟨t, hseq.trans hexec, hexec⟩
  · rw [hb] at hidle
    cases hidle
  · have hwait : 0 < s.wait := Nat.pos_of_ne_zero fun h0 => by
      rw [(seqTurn_iff s).mpr ⟨hb, .inl h0⟩] at hturn
      cases hturn
    rcases hostStep_inFlight op s hb with ⟨⟨cells, rfl⟩, hidle⟩ | ⟨-, hsame, hspent, hqueue⟩
    · exact .inr (.inl ⟨_, cells, rest, hhost, hidle, hwait, hops⟩)
    · exact .inr (.inr ⟨_, hhost, hsame, by omega, hqueue⟩)

/-- What is left of the host's operations before the completion only shrinks. -/
theorem take_hostOps_subset {s t : State} (hwait : s.wait = t.wait + 1)
    (hqueue : t.hostOps = s.hostOps ∨ t.hostOps = s.hostOps.tail) :
    t.hostOps.take t.wait ⊆ s.hostOps.take s.wait := by
  rcases hqueue with h | h
  · rw [h]
    exact List.take_subset_take_left _ (by omega)
  · rw [h, show t.wait = s.wait - 1 by omega, ← List.tail_take_eq_take_tail]
    exact List.tail_subset _

/-- Within its latency a command in flight either completes, on the operands, contexts and data memories as they are
now, or meets a reset input. -/
theorem command_ends {s : State} (hb : s.busy = true) :
    ∃ k u t, k ≤ s.wait ∧ Sys2Proof.core.run k s = .next u ∧ Sys2Proof.core.run (k + 1) s = .next t ∧ t.busy = false ∧
      ((∃ cells, .reset cells ∈ s.hostOps.take s.wait) ∨
        (s.SameCommand u ∧ exec (decodeWord s.lCmd) u = .next t)) := by
  rcases step_inFlight hb with ⟨t, hstep, hexec⟩ | ⟨t, cells, rest, hstep, hidle, hwait, hops⟩ |
    ⟨v, hstep, hsame, hwait, hqueue⟩
  · exact ⟨0, s, t, Nat.zero_le _, run_zero s, (run_one s).trans hstep, exec_busy hexec, .inr ⟨.refl s, hexec⟩⟩
  · refine ⟨0, s, t, Nat.zero_le _, run_zero s, (run_one s).trans hstep, hidle, .inl ⟨cells, ?_⟩⟩
    rw [hops, ← Nat.succ_pred_eq_of_pos hwait]
    exact List.mem_cons_self
  · obtain ⟨k, u, t, hk, hu, ht, hidle, hend⟩ := command_ends (hsame.busy.trans hb)
    refine ⟨k + 1, u, t, by omega, (run_succ _ _ _ hstep).trans hu, (run_succ _ _ _ hstep).trans ht, hidle, ?_⟩
    rcases hend with ⟨cells, hreset⟩ | ⟨hsame', hexec⟩
    · exact .inl ⟨cells, take_hostOps_subset hwait hqueue hreset⟩
    · exact .inr ⟨hsame.trans hsame', hsame.lCmd ▸ hexec⟩
termination_by s.wait

end Sys2Proof.Machine

open Sys2Proof Sys2Proof.Machine Sys2Proof.Spec

/-! ## The obligations -/

/-- Settles O10: each step of a command in flight completes it, abandons it, or spends one host step of its latency and
leaves it as it is. -/
theorem acceptedCommandFinishes : Obligations.AcceptedCommandFinishes := by
  unfold Obligations.AcceptedCommandFinishes
  refine ⟨fun s hb => ?_, fun s hb hnoReset => ?_⟩
  · obtain ⟨k, -, t, hk, -, hrun, hidle, -⟩ := command_ends hb
    exact ⟨k + 1, t, Nat.succ_pos k, Nat.succ_le_succ hk, hrun, hidle⟩
  · obtain ⟨k, u, t, hk, hu, ht, hidle, ⟨cells, hreset⟩ | ⟨hsame, hexec⟩⟩ := command_ends hb
    · exact absurd hreset (hnoReset cells)
    · obtain ⟨s', code, -, rfl⟩ := exec_completes hexec
      exact ⟨k, u, _, hk, hu, ⟨hsame.busy.trans hb, hsame.build, hsame.lCmd, hsame.lArg0, hsame.lArg1, hsame.plan,
        hsame.v2d, hsame.mem, hsame.res0, hsame.res1⟩, hexec, ht, hidle, rfl⟩

/-- Settles O25: ID and CFG are constants of the build, STATUS and the contexts read 0, every other register holds 0. -/
theorem resetState : Obligations.ResetState := by
  unfold Obligations.ResetState
  refine ⟨fun b m r => ?_, by decide, fun b m => ⟨rfl, rfl, rfl, rfl, fun c => ?_, rfl⟩, rfl⟩
  · cases r
    case status => exact statusWord_afterReset b m
    case ctxInfo c => exact readCsr_afterReset_ctxInfo b m c
    all_goals rfl
  · rw [afterReset_plan]
    rfl

/-- Settles O26: after reset no context and no 2D plan is valid, which the plan commands check first; ISQRT and NOP
check nothing. -/
theorem commandsRightAfterReset : Obligations.CommandsRightAfterReset := by
  unfold Obligations.CommandsRightAfterReset
  intro b m i t h
  have hnoPlan (w : Word) (c : HostCtx) := placeCommand_afterReset_valid b m w (ctxOf c)
  refine ⟨?_, ?_⟩
  · rintro (⟨c, rfl⟩ | ⟨c, rfl⟩ | ⟨c, rfl⟩ | ⟨c, d, rfl⟩ | ⟨c, d, k, rfl⟩ | ⟨c, rfl⟩ | ⟨c, rfl⟩ | ⟨c, rfl⟩ | rfl |
      ⟨d, rfl⟩ | rfl)
    · exact err_of_raiseCmdError (execPlanDestroy_of_invalid (hnoPlan _ c)) h
    · exact err_of_raiseCmdError (exec_loadCommand_of_invalid (hnoPlan _ c) .real) h
    · exact err_of_raiseCmdError (exec_loadCommand_of_invalid (hnoPlan _ c) .complex) h
    · exact err_of_raiseCmdError (execRun_of_invalid (hnoPlan _ c) d) h
    · exact err_of_raiseCmdError (execTransform_of_invalid (hnoPlan _ c) d k) h
    · exact err_of_raiseCmdError (execResult_of_invalid (hnoPlan _ c)) h
    · exact err_of_raiseCmdError (execMag_of_invalid (hnoPlan _ c)) h
    · exact err_of_raiseCmdError (execNmag_of_invalid (hnoPlan _ c)) h
    · exact err_of_raiseCmdError (execPlan2dDestroy_of_no_v2d rfl) h
    · exact err_of_raiseCmdError (execTransform2d_of_no_v2d rfl d) h
    · exact err_of_raiseCmdError (execResult2d_of_no_v2d rfl) h
  · rintro (rfl | rfl)
    · exact err_of_commit (o := execIsqrt _) rfl h
    · exact err_of_commit (o := execNop _) rfl h

/-- Settles O27: the contents given are made canonical, those outside the data memories left out. -/
theorem resetInputAbandonsTheCommand : Obligations.ResetInputAbandonsTheCommand := by
  unfold Obligations.ResetInputAbandonsTheCommand
  intro cells s
  exact ⟨Memory.ofCells s.build cells, rfl, Memory.wf_ofCells s.build cells, Memory.mapped_ofCells s.build cells⟩

/-- Settles O28: a legal build with mapped, canonical contents is all the invariant asks, and the default build with
nothing listed is one. -/
theorem resetIsSound : Obligations.ResetIsSound := by
  unfold Obligations.ResetIsSound
  exact ⟨afterReset_sound (by decide) Memory.wf_reset fun _ hc => absurd hc List.not_mem_nil,
    fun _ _ => afterReset_sound⟩

end
